-- ==== Sys2Proof/Word.lean ====
section
/-! DEFINITION. The word types of HTDE: bytes of the two streams, 16-bit fields, 32-bit registers and
coefficient words (00_scope.md R6, R7). -/

namespace Sys2Proof

/-- A byte of IN or OUT (R39). -/
abbrev Byte := BitVec 8

/-- A 16-bit register field: ROWS, COLS, SCALE (R6). -/
abbrev Half := BitVec 16

/-- A 32-bit register, command word or coefficient word (R6, R70). -/
abbrev Word := BitVec 32

end Sys2Proof
end

