-- ==== Sys2Proof/Config.lean ====
section
/-! DEFINITION. What an implementation fixes (the OPEN parameters of 00_scope.md R6 and the Huffman ROM's
content) and the free values: constants with no body, for what the spec leaves unspecified. -/

namespace Sys2Proof

/-- One ROM entry: the code's value and its length in bits (R40). -/
structure HuffCode where
  code : Nat
  len : Nat
  deriving DecidableEq, Repr

/-- The parameter HUFF_TABLE (R6, R171, U10): the two tables the spec names, or any other 16 entries, in
symbol order. -/
inductive HuffTable where
  | docDefault
  | hcompress
  | custom (codes : List HuffCode)
  deriving DecidableEq, Repr

/-- The parameters an integrator fixes (R6). They are plain data in State, which no step changes, so that a
statement about every state is a statement about every choice of them. -/
structure Params where
  coefWords : Nat
  inBytes : Nat
  outBytes : Nat
  huffTable : HuffTable
  deriving DecidableEq, Repr

/-- MAX_PLANES (R6, R28). -/
abbrev maxPlanes : Nat := 31

/-- MAX_BITS_PER_CALL (R6): the largest n of GETBITS and PUTBITS. -/
abbrev maxBitsPerCall : Nat := 24

/-- RICE_K_MAX (R6). -/
abbrev riceKMax : Nat := 15

/-- ID_VALUE (R6, R37). -/
abbrev idValue : Word := 0x48544445#32

/-! Free values (R223, U1, U11; log entry 4). The first argument is the draw number, `State.draws`, which
every use advances; a memory's value also depends on the index. Nothing can be proved about them. -/

/-- RESULT after a command ended with an error part way through (R31). -/
opaque Config.freeResult : Nat → Word

/-- BR_BUF after a stream read ended with an error. -/
opaque Config.freeBrBuf : Nat → Byte

/-- BR_CNT after a stream read ended with an error: any value of its 4-bit field (R34, R223; log entry 5). -/
opaque Config.freeBrCnt : Nat → BitVec 4

/-- IN_POS after a stream read ended with an error. -/
opaque Config.freeInPos : Nat → Word

/-- BW_BUF after a stream write ended with an error. -/
opaque Config.freeBwBuf : Nat → Byte

/-- BW_CNT after a stream write ended with an error: any value of its 4-bit field, the 8 that R114 leaves when
`EmitByte` raises among them (R35, R223; log entry 5). -/
opaque Config.freeBwCnt : Nat → BitVec 4

/-- OUT_POS after a stream write ended with an error. -/
opaque Config.freeOutPos : Nat → Word

/-- RICEK after RICEDEC ended with an error part way through. -/
opaque Config.freeRicek : Nat → BitVec 4

/-- A COEF word after an error of a grid command, or after a reset during a command. -/
opaque Config.freeCoef : Nat → Nat → Word

/-- An OUT byte after an error of a stream write, or after a reset during a command. -/
opaque Config.freeOutByte : Nat → Nat → Byte

end Sys2Proof
end

