-- ==== Sys2Proof/Syntax.lean ====
section
/-! DEFINITION. The 25 commands of the opcode map (30_encoding.md R72), one constructor per row of
spec/opcode_table.json. -/

namespace Sys2Proof

/-- A command with its operand fields as the command word carries them (R70, R71). -/
inductive Instr where
  | nop
  | srst
  | clr
  | rdu8
  | rdu16
  | rdu32
  | wru8
  | wru16
  | wru32
  | getbit
  /-- `n` is the field N: how many bits to read. -/
  | getbits (n : BitVec 5)
  | bralign
  | putbit
  /-- `n` is the field N: how many bits of ARG to write. -/
  | putbits (n : BitVec 5)
  | bwflush
  | htrans
  | hinv
  | digitize
  | undigitize
  | huffsym
  /-- `q` is the field Q: the quadrant. -/
  | qtdec (q : BitVec 2)
  | term
  | signs
  /-- `k` is the field N: the split parameter. -/
  | riceval (k : BitVec 5)
  /-- `q` is the field Q: the quadrant. -/
  | ricedec (q : BitVec 2)
  deriving DecidableEq, Repr

end Sys2Proof
end

