-- ==== Sys2Proof/WellFormed.lean ====
section
/-! DEFINITION. Which instruction terms are commands of the machine: the limits on N of 30_encoding.md R72
and R73. Every value of Q is a quadrant (R162). -/

namespace Sys2Proof

/-- N is within the limit R72 gives its opcode. -/
def Instr.wellFormed : Instr → Bool
  | .getbits n | .putbits n => decide (n.toNat ≤ maxBitsPerCall)
  | .riceval k => decide (k.toNat ≤ riceKMax)
  | .nop | .srst | .clr | .rdu8 | .rdu16 | .rdu32 | .wru8 | .wru16 | .wru32 | .getbit | .bralign
  | .putbit | .bwflush | .htrans | .hinv | .digitize | .undigitize | .huffsym | .qtdec _ | .term
  | .signs | .ricedec _ => true

end Sys2Proof
end

