-- ==== Sys2Proof/Decode.lean ====
section
/-! DEFINITION. The command word (30_encoding.md R70 to R73): its fields, the decoder, total on any word and
refusing an illegal one by name, then the encoder, written from the same opcode map. -/

namespace Sys2Proof

/-- Why a command word is illegal (R73). -/
inductive Illegal where
  | unassignedOpcode
  | reservedNotZero
  | countNotZero
  | countTooLarge
  | quadrantNotZero
  deriving DecidableEq, Repr

/-- OP, bits 7:0 (R70). -/
def fieldOp (w : Word) : BitVec 8 := w.extractLsb' 0 8

/-- N, bits 12:8 (R70). -/
def fieldN (w : Word) : BitVec 5 := w.extractLsb' 8 5

/-- Q, bits 14:13 (R70). -/
def fieldQ (w : Word) : BitVec 2 := w.extractLsb' 13 2

/-- RSV, bits 31:15 (R70). -/
def fieldRsv (w : Word) : BitVec 17 := w.extractLsb' 15 17

/-- An opcode with neither N nor Q: both fields must be 0 (R73). -/
def decodePlain (i : Instr) (n : BitVec 5) (q : BitVec 2) : Except Illegal Instr :=
  if n ≠ 0 then .error .countNotZero else if q ≠ 0 then .error .quadrantNotZero else .ok i

/-- An opcode with N up to `limit` and no Q (R72, R73). -/
def decodeCounted (limit : Nat) (mk : BitVec 5 → Instr) (n : BitVec 5) (q : BitVec 2) :
    Except Illegal Instr :=
  if q ≠ 0 then .error .quadrantNotZero
  else if n.toNat ≤ limit then .ok (mk n) else .error .countTooLarge

/-- An opcode with Q and no N (R72, R73). -/
def decodeQuadrant (mk : BitVec 2 → Instr) (n : BitVec 5) (q : BitVec 2) : Except Illegal Instr :=
  if n ≠ 0 then .error .countNotZero else .ok (mk q)

/-- The opcode map of R72. -/
def decodeOp (op : BitVec 8) (n : BitVec 5) (q : BitVec 2) : Except Illegal Instr :=
  match op with
  | 0x00#8 => decodePlain .nop n q
  | 0x01#8 => decodePlain .srst n q
  | 0x02#8 => decodePlain .clr n q
  | 0x10#8 => decodePlain .rdu8 n q
  | 0x11#8 => decodePlain .rdu16 n q
  | 0x12#8 => decodePlain .rdu32 n q
  | 0x14#8 => decodePlain .wru8 n q
  | 0x15#8 => decodePlain .wru16 n q
  | 0x16#8 => decodePlain .wru32 n q
  | 0x20#8 => decodePlain .getbit n q
  | 0x21#8 => decodeCounted maxBitsPerCall .getbits n q
  | 0x22#8 => decodePlain .bralign n q
  | 0x24#8 => decodePlain .putbit n q
  | 0x25#8 => decodeCounted maxBitsPerCall .putbits n q
  | 0x26#8 => decodePlain .bwflush n q
  | 0x30#8 => decodePlain .htrans n q
  | 0x31#8 => decodePlain .hinv n q
  | 0x32#8 => decodePlain .digitize n q
  | 0x33#8 => decodePlain .undigitize n q
  | 0x40#8 => decodePlain .huffsym n q
  | 0x41#8 => decodeQuadrant .qtdec n q
  | 0x42#8 => decodePlain .term n q
  | 0x43#8 => decodePlain .signs n q
  | 0x50#8 => decodeCounted riceKMax .riceval n q
  | 0x51#8 => decodeQuadrant .ricedec n q
  | _ => .error .unassignedOpcode

/-- The instruction a command word stands for, or why it is illegal (R70 to R73). -/
def decode (w : Word) : Except Illegal Instr :=
  if fieldRsv w ≠ 0 then .error .reservedNotZero else decodeOp (fieldOp w) (fieldN w) (fieldQ w)

/-- The instruction the decoder reads from a word of `nbits` bits; every command is one 32-bit word (R70), so
bits above `nbits` are 0 and a number of more than 32 bits is no command word. -/
def decodeTableWord (nbits w : Nat) : Option Instr :=
  if w % 2 ^ nbits < 2 ^ 32 then (decode (BitVec.ofNat 32 (w % 2 ^ nbits))).toOption else none

/-- OP of each command (R72). -/
def Instr.opcode : Instr → BitVec 8
  | .nop => 0x00#8
  | .srst => 0x01#8
  | .clr => 0x02#8
  | .rdu8 => 0x10#8
  | .rdu16 => 0x11#8
  | .rdu32 => 0x12#8
  | .wru8 => 0x14#8
  | .wru16 => 0x15#8
  | .wru32 => 0x16#8
  | .getbit => 0x20#8
  | .getbits _ => 0x21#8
  | .bralign => 0x22#8
  | .putbit => 0x24#8
  | .putbits _ => 0x25#8
  | .bwflush => 0x26#8
  | .htrans => 0x30#8
  | .hinv => 0x31#8
  | .digitize => 0x32#8
  | .undigitize => 0x33#8
  | .huffsym => 0x40#8
  | .qtdec _ => 0x41#8
  | .term => 0x42#8
  | .signs => 0x43#8
  | .riceval _ => 0x50#8
  | .ricedec _ => 0x51#8

/-- The field N of each command: its count, or 0 (R70). -/
def Instr.count : Instr → BitVec 5
  | .getbits n | .putbits n | .riceval n => n
  | .nop | .srst | .clr | .rdu8 | .rdu16 | .rdu32 | .wru8 | .wru16 | .wru32 | .getbit | .bralign
  | .putbit | .bwflush | .htrans | .hinv | .digitize | .undigitize | .huffsym | .qtdec _ | .term
  | .signs | .ricedec _ => 0

/-- The field Q of each command: its quadrant, or 0 (R70). -/
def Instr.quadrant : Instr → BitVec 2
  | .qtdec q | .ricedec q => q
  | .nop | .srst | .clr | .rdu8 | .rdu16 | .rdu32 | .wru8 | .wru16 | .wru32 | .getbit | .getbits _
  | .bralign | .putbit | .putbits _ | .bwflush | .htrans | .hinv | .digitize | .undigitize
  | .huffsym | .term | .signs | .riceval _ => 0

/-- The four fields side by side: RSV, Q, N, OP from bit 31 down (R70). -/
def packWord (rsv : BitVec 17) (q : BitVec 2) (n : BitVec 5) (op : BitVec 8) : Word :=
  rsv ++ q ++ n ++ op

/-- The command word of an instruction (R70, R72). -/
def encode (i : Instr) : Word := packWord 0 i.quadrant i.count i.opcode

end Sys2Proof
end

