-- ==== Sys2Proof/Machine/State.lean ====
section
/-! DEFINITION. The state of HTDE (10_state.md R20 to R42), the host's moves it waits for, the error codes of
60_exceptions.md R222, the reasons a step can stop, and the state after reset (R250). Plain data only. -/

namespace Sys2Proof.Machine

/-- The error codes of STATUS.ERR (R222). Codes 8 to 15 are never produced, so they have no constructor. -/
inductive ErrCode where
  | none
  | truncated
  | format
  | outFull
  | illegal
  | range
  | size
  | seq
  deriving DecidableEq, Repr

/-- A memory of `w`-bit cells: (index, value) pairs, indices strictly rising, no value 0. An index that is not
listed reads 0 (DESIGN CHOICE, unsafe, log entry 1). -/
abbrev Memory (w : Nat) := List (Nat × BitVec w)

/-- The bit reader (R32, R34): BR_BUF, BR_CNT and IN_POS. -/
structure BitReader where
  buf : Byte
  cnt : BitVec 4
  pos : Word
  deriving DecidableEq, Repr

/-- The bit writer (R33, R35): BW_BUF, BW_CNT and OUT_POS. -/
structure BitWriter where
  buf : Byte
  cnt : BitVec 4
  pos : Word
  deriving DecidableEq, Repr

/-- One access of the host (R22, R50), or one assertion of the reset input (R250). `size` is the access width in
bytes; the protocol allows only 4 for a register or a coefficient word (R52). -/
inductive HostMove where
  | regRead (off size : Nat)
  | regWrite (off size : Nat) (v : Word)
  | coefRead (i size : Nat)
  | coefWrite (i size : Nat) (v : Word)
  | inRead (i : Nat)
  | inWrite (i : Nat) (b : Byte)
  | outRead (i : Nat)
  | outWrite (i : Nat) (b : Byte)
  /-- Reset asserted between commands. -/
  | reset
  /-- Reset asserted while a command runs (U11). -/
  | resetDuringCommand
  deriving DecidableEq, Repr

/-- Everything the spec gives the machine, and the model's own `host`, `hostData` and `draws`. -/
structure State where
  /-- The OPEN parameters (R6); no step changes them. -/
  params : Params
  /-- STATUS.BUSY (R24). -/
  busy : Bool
  /-- STATUS.DONE (R24). -/
  done : Bool
  /-- STATUS.ERR (R24, R222). -/
  err : ErrCode
  /-- STATUS.LASTOP (R24). -/
  lastOp : BitVec 8
  /-- CFG.FLAGW (R25): true is the 4-bit plane flag. -/
  flagW : Bool
  /-- CFG.IE (R25). -/
  ie : Bool
  /-- DIM.ROWS (R26). -/
  rows : Half
  /-- DIM.COLS (R26). -/
  cols : Half
  /-- SCALE (R27). -/
  scale : Half
  /-- NBP0 (R28). -/
  nbp0 : Byte
  /-- NBP1 (R28). -/
  nbp1 : Byte
  /-- NBP2 (R28). -/
  nbp2 : Byte
  /-- NBP3 (R28). -/
  nbp3 : Byte
  /-- ARG (R30). -/
  arg : Word
  /-- RESULT (R31). -/
  result : Word
  /-- IN_LEN (R29). -/
  inLen : Word
  /-- BR_BUF, BR_CNT, IN_POS (R32, R34). -/
  rd : BitReader
  /-- BW_BUF, BW_CNT, OUT_POS (R33, R35). -/
  wr : BitWriter
  /-- RICEK (R36). -/
  ricek : BitVec 4
  /-- COEF (R38). -/
  coef : Memory 32
  /-- IN (R39). -/
  inMem : Memory 8
  /-- OUT (R39). -/
  outMem : Memory 8
  /-- The model's own: the host's coming moves, the next one first (log entry 3). -/
  host : List HostMove
  /-- The model's own: the data of the host's last read (log entry 3). -/
  hostData : Word
  /-- The model's own: how many times free values were drawn (log entry 4). -/
  draws : Nat
  deriving DecidableEq, Repr

/-- The machine never stops with a fault: every command completes (R253), an error is a code in STATUS (R221),
and every index is inside its space or refused with a code (R59). So there is no constructor (safe). -/
inductive Fault where
  deriving DecidableEq, Repr

/-- Why a step has no move. Each but the first is a host protocol violation, of which nothing is specified
(R257, U6). -/
inductive Refusal where
  /-- Raised by an arm of `exec` that has no meaning yet. Safe. -/
  | notModelled (mnemonic : String)
  /-- Raised by `hostMove`: an access other than a STATUS read while BUSY = 1 (R255, R257). Safe. -/
  | hostWhileBusy
  /-- Raised by `hostMove`: a register or COEF access that is not one aligned 32-bit word (R52, R257). Safe. -/
  | hostNotAlignedWord
  /-- Raised by `hostMove`: a register access outside the window 0x00 to 0xFC (R22, U6). Safe. -/
  | hostOutsideWindow
  /-- Raised by `hostMove`: a COEF, IN or OUT access at an index outside the memory (R257, U6). Safe. -/
  | hostOutsideMemory
  /-- Raised by `hostMove`: a host write to OUT, to which R50 gives the host read access only. Safe. -/
  | hostWritesOut
  deriving DecidableEq, Repr

/-- The machine right after reset (R250). The sizes (log entry 2) and the memories' contents (log entry 1) are the
model's choice; every register has the value of R250's table. -/
def State.reset : State where
  params := ⟨1048576, 1048576, 1048576, .docDefault⟩
  busy := false
  done := false
  err := .none
  lastOp := 0
  flagW := false
  ie := false
  rows := 0
  cols := 0
  scale := 0
  nbp0 := 0
  nbp1 := 0
  nbp2 := 0
  nbp3 := 0
  arg := 0
  result := 0
  inLen := 0
  rd := ⟨0, 0, 0⟩
  wr := ⟨0, 0, 0⟩
  ricek := 0
  coef := []
  inMem := []
  outMem := []
  host := []
  hostData := 0
  draws := 0

end Sys2Proof.Machine
end

