-- ==== Sys2Proof/Machine/Flags.lean ====
section
/-! DEFINITION. The status register: its word, and the only events that write it, acceptance, completion and the
host's write of DONE (R24, R220, R221), and the interrupt output (R230). -/

namespace Sys2Proof.Machine

/-- The code of an error in STATUS.ERR (R222). -/
def ErrCode.code : ErrCode → BitVec 4
  | .none => 0
  | .truncated => 1
  | .format => 2
  | .outFull => 3
  | .illegal => 4
  | .range => 5
  | .size => 6
  | .seq => 7

/-- STATUS as the host reads it (R24): LASTOP in 15:8, ERR in 7:4, DONE in 1, BUSY in 0, the rest 0. -/
def statusWord (s : State) : Word :=
  0#16 ++ s.lastOp ++ s.err.code ++ 0#2 ++ BitVec.ofBool s.done ++ BitVec.ofBool s.busy

/-- Acceptance of a command word whose OP is `op` (R220). -/
def accept (op : BitVec 8) (s : State) : State := { s with busy := true, lastOp := op }

/-- `Complete(e)` (R221). -/
def complete (e : ErrCode) (s : State) : State :=
  { s with err := if e = .none then s.err else e, busy := false, done := true }

/-- The host's write of `v` to STATUS: 1 in bit 1 clears DONE, 0 leaves it (R24). -/
def writeStatus (v : Word) (s : State) : State := { s with done := s.done && !v.getLsbD 1 }

/-- The interrupt output (R230). -/
def irq (s : State) : Bool := s.done && s.ie

end Sys2Proof.Machine
end

