-- ==== Sys2Proof/Machine/Operands.lean ====
section
/-! DEFINITION. Where a command's operands come from (R71): the grid's dimensions and its check (R10, R74), the
quadrant ranges (R162), the plane count of a quadrant (R28), and the two streams. -/

namespace Sys2Proof.Machine

/-- R, the grid's row count: DIM.ROWS (R10). -/
def gridRows (s : State) : Nat := s.rows.toNat

/-- C, the grid's column count: DIM.COLS (R10). -/
def gridCols (s : State) : Nat := s.cols.toNat

/-- The grid check (R74): the error a grid command raises before any other effect. -/
def gridCheck (s : State) : Option ErrCode :=
  if gridRows s = 0 ∨ gridCols s = 0 ∨ s.params.coefWords < gridRows s * gridCols s then some .size
  else none

/-- The row range `r0 .. r1-1` and the column range `c0 .. c1-1` of a quadrant (R162). -/
structure Quadrant where
  r0 : Nat
  r1 : Nat
  c0 : Nat
  c1 : Nat
  deriving DecidableEq, Repr

/-- `ceil(n / 2^s)` (R8). -/
def ceilShift (n s : Nat) : Nat := (n + (2 ^ s - 1)) / 2 ^ s

/-- `QuadrantRange(q)` on an R×C grid (R162). -/
def quadrantRange (R C : Nat) (q : BitVec 2) : Quadrant :=
  let r2 := ceilShift R 1
  let c2 := ceilShift C 1
  if q = 0 then ⟨0, r2, 0, c2⟩
  else if q = 1 then ⟨0, r2, c2, C⟩
  else if q = 2 then ⟨r2, R, 0, c2⟩
  else ⟨r2, R, c2, C⟩

/-- How many rows a quadrant has. -/
def Quadrant.height (d : Quadrant) : Nat := d.r1 - d.r0

/-- How many columns a quadrant has. -/
def Quadrant.width (d : Quadrant) : Nat := d.c1 - d.c0

/-- The COEF index of the quadrant's cell (i, j) in a grid of C columns (R10). -/
def Quadrant.cell (d : Quadrant) (C i j : Nat) : Nat := (d.r0 + i) * C + (d.c0 + j)

/-- NBPq (R28). -/
def planeCount (s : State) (q : BitVec 2) : Nat :=
  if q = 0 then s.nbp0.toNat
  else if q = 1 then s.nbp1.toNat
  else if q = 2 then s.nbp2.toNat
  else s.nbp3.toNat

/-- The plane-count check of QTDEC, after the grid check (R180, R225). -/
def planeCheck (q : BitVec 2) (s : State) : Option ErrCode :=
  match gridCheck s with
  | some e => some e
  | none => if maxPlanes < planeCount s q then some .format else none

/-- The check of N against its limit (R73, R123, R126, R204). -/
def countCheck (limit : Nat) (n : BitVec 5) : Option ErrCode :=
  if n.toNat ≤ limit then none else some .illegal

/-- The buffer check of the byte-level reads (R55, R116). -/
def byteReadCheck (s : State) : Option ErrCode := if s.rd.cnt = 0 then none else some .seq

/-- The buffer check of the byte-level writes (R55, R119). -/
def byteWriteCheck (s : State) : Option ErrCode := if s.wr.cnt = 0 then none else some .seq

/-- What the engine reads bytes from (R39): IN_LEN and IN. -/
structure Source where
  len : Word
  mem : Memory 8
  deriving DecidableEq, Repr

/-- The input stream of a state. -/
def source (s : State) : Source := ⟨s.inLen, s.inMem⟩

/-- What the engine writes bytes to (R39): the writer with OUT_POS, and OUT. -/
structure Sink where
  wr : BitWriter
  mem : Memory 8
  deriving DecidableEq, Repr

/-- The output stream of a state. -/
def sink (s : State) : Sink := ⟨s.wr, s.outMem⟩

/-- The state with its output stream replaced. -/
def setSink (s : State) (k : Sink) : State := { s with wr := k.wr, outMem := k.mem }

end Sys2Proof.Machine
end

