-- ==== Sys2Proof/Machine/Ops.lean ====
section
/-! DEFINITION. The named operations every command is written with: memory, loops, the bit reader and writer
(R110 to R115), coefficient words and their range check (R9), what an error leaves unspecified (R223), the
running of a command from acceptance to completion (R220, R221), and SRST's effect, the return from an error
(R101, R228). -/

namespace Sys2Proof.Machine

/-! ## Memory -/

/-- The cell at an index; an index that is not listed reads 0. -/
def Memory.read {w : Nat} : Memory w → Nat → BitVec w
  | [], _ => 0#w
  | (b, u) :: m, a => if a = b then u else Memory.read m a

/-- Write a cell and keep the canonical form: writing 0 removes the entry. -/
def Memory.write {w : Nat} : Memory w → Nat → BitVec w → Memory w
  | [], a, v => if v = 0#w then [] else [(a, v)]
  | (b, u) :: m, a, v =>
    if a < b then (if v = 0#w then (b, u) :: m else (a, v) :: (b, u) :: m)
    else if a = b then (if v = 0#w then m else (a, v) :: m)
    else (b, u) :: Memory.write m a v

/-- Indices strictly rise from `lo` on and no listed value is 0. -/
def Memory.risesFrom {w : Nat} : Nat → Memory w → Bool
  | _, [] => true
  | lo, (a, v) :: m => decide (lo ≤ a) && decide (v ≠ 0#w) && Memory.risesFrom (a + 1) m

/-- The canonical form. -/
def Memory.wf {w : Nat} (m : Memory w) : Bool := Memory.risesFrom 0 m

/-- Every listed index is inside a memory of `n` cells. -/
def Memory.below {w : Nat} (n : Nat) (m : Memory w) : Bool := m.all fun c => decide (c.1 < n)

/-! ## Loops -/

/-- `for i in 0 .. n-1` of a loop body that raises nothing. -/
def foldUp {σ : Type} : Nat → (Nat → σ → σ) → σ → σ
  | 0, _, x => x
  | n + 1, f, x => f n (foldUp n f x)

/-- `for i in 0 .. n-1`, ended by the first error. -/
def loopUp {σ : Type} : Nat → (Nat → σ → Except ErrCode σ) → σ → Except ErrCode σ
  | 0, _, x => .ok x
  | n + 1, f, x => loopUp n f x >>= f n

/-- `for i from n-1 down to 0`, ended by the first error. -/
def loopDown {σ : Type} : Nat → (Nat → σ → Except ErrCode σ) → σ → Except ErrCode σ
  | 0, _, x => .ok x
  | n + 1, f, x => f n x >>= loopDown n f

/-! ## The bit reader -/

/-- `ReadByte()` (R110). -/
def readByte (src : Source) (r : BitReader) : Except ErrCode (Byte × BitReader) :=
  if src.len ≤ r.pos then .error .truncated
  else .ok (src.mem.read r.pos.toNat, { r with pos := r.pos + 1 })

/-- The reader with at least one bit buffered: a byte is taken only when none is (R112). -/
def refill (src : Source) (r : BitReader) : Except ErrCode BitReader :=
  if r.cnt = 0 then do
    let p ← readByte src r
    .ok { p.2 with buf := p.1, cnt := 8 }
  else .ok r

/-- `GetBit()` (R112). -/
def getBit (src : Source) (r : BitReader) : Except ErrCode (Bool × BitReader) := do
  let r ← refill src r
  .ok (r.buf.getLsbD (r.cnt - 1).toNat, { r with cnt := r.cnt - 1 })

/-- The loop of `GetBits`: `n` more bits below the value `v` (R113). -/
def getBitsFrom (src : Source) : Nat → Nat → BitReader → Except ErrCode (Nat × BitReader)
  | 0, v, r => .ok (v, r)
  | n + 1, v, r => do
    let p ← getBit src r
    getBitsFrom src n (2 * v + p.1.toNat) p.2

/-- `GetBits(n)` (R113). -/
def getBits (src : Source) (n : Nat) (r : BitReader) : Except ErrCode (Nat × BitReader) :=
  getBitsFrom src n 0 r

/-- The big-endian integer of the next `n` bytes, below the value `v` (R53, R116 to R118). -/
def readBytesFrom (src : Source) : Nat → Nat → BitReader → Except ErrCode (Nat × BitReader)
  | 0, v, r => .ok (v, r)
  | n + 1, v, r => do
    let p ← readByte src r
    readBytesFrom src n (256 * v + p.1.toNat) p.2

/-! ## The bit writer -/

/-- `EmitByte(b)` into an output buffer of `room` bytes (R111). -/
def emitByte (room : Nat) (b : Byte) (k : Sink) : Except ErrCode Sink :=
  if room ≤ k.wr.pos.toNat then .error .outFull
  else .ok { wr := { k.wr with pos := k.wr.pos + 1 }, mem := k.mem.write k.wr.pos.toNat b }

/-- `PutBit(b)` (R114). -/
def putBit (room : Nat) (b : Bool) (k : Sink) : Except ErrCode Sink :=
  let buf := k.wr.buf <<< 1 ||| (BitVec.ofBool b).zeroExtend 8
  if k.wr.cnt + 1 = 8 then do
    let k ← emitByte room buf k
    .ok { k with wr := { k.wr with buf := 0, cnt := 0 } }
  else .ok { k with wr := { k.wr with buf := buf, cnt := k.wr.cnt + 1 } }

/-- `PutBits(v, n)` (R115): bit n-1 first. -/
def putBits (room : Nat) (v : Word) (n : Nat) (k : Sink) : Except ErrCode Sink :=
  loopDown n (fun i => putBit room (v.getLsbD i)) k

/-- `finish()` (R127): zero bits up to the byte boundary, none when no bit is buffered. -/
def flushWriter (room : Nat) (k : Sink) : Except ErrCode Sink :=
  if k.wr.cnt = 0 then .ok k else putBits room 0 (8 - k.wr.cnt.toNat) k

/-- The low `n` bytes of `v`, the most significant first (R53, R119 to R121). -/
def emitBytes (room : Nat) (v : Word) (n : Nat) (k : Sink) : Except ErrCode Sink :=
  loopDown n (fun i => emitByte room (v.extractLsb' (8 * i) 8)) k

/-! ## Coefficient words -/

/-- `COEF[a]` as a signed integer (R9, R38). -/
def coefInt (c : Memory 32) (a : Nat) : Int := (c.read a).toInt

/-- `COEF[a] <- v` with the range check of `Store32` (R9). -/
def store (a : Nat) (v : Int) (c : Memory 32) : Except ErrCode (Memory 32) :=
  if v < -2147483648 ∨ 2147483647 < v then .error .range else .ok (c.write a (BitVec.ofInt 32 v))

/-- Every cell of a quadrant in raster order (R183, R206): rows from the top, each from left to right. -/
def overQuadrant {σ : Type} (d : Quadrant) (C : Nat) (f : Nat → σ → Except ErrCode σ) :
    σ → Except ErrCode σ :=
  loopUp d.height fun i => loopUp d.width fun j => f (d.cell C i j)

/-! ## Running a command -/

/-- What a command can write, as its pseudocode lists it: the groups that R223 gives to some commands only. -/
structure Touches where
  reader : Bool := false
  writer : Bool := false
  grid : Bool := false
  ricek : Bool := false
  deriving DecidableEq, Repr

/-- Write a free value into each of the cells `lo .. hi-1`. -/
def fillRange {w : Nat} (lo hi : Nat) (v : Nat → BitVec w) (m : Memory w) : Memory w :=
  foldUp (hi - lo) (fun i m => m.write (lo + i) (v (lo + i))) m

/-- The state after an error part way through a command (R223): RESULT, whichever command it is (R31), and each piece
of state it can write hold free values; everything else is as it was when the command started. -/
def spoil (t : Touches) (s : State) : State :=
  { s with
    result := Config.freeResult s.draws
    rd := if t.reader then
        ⟨Config.freeBrBuf s.draws, Config.freeBrCnt s.draws, Config.freeInPos s.draws⟩
      else s.rd
    wr := if t.writer then
        ⟨Config.freeBwBuf s.draws, Config.freeBwCnt s.draws, Config.freeOutPos s.draws⟩
      else s.wr
    outMem := if t.writer then
        fillRange s.wr.pos.toNat s.params.outBytes (Config.freeOutByte s.draws) s.outMem
      else s.outMem
    coef := if t.grid then fillRange 0 (gridRows s * gridCols s) (Config.freeCoef s.draws) s.coef
      else s.coef
    ricek := if t.ricek then Config.freeRicek s.draws else s.ricek
    draws := s.draws + 1 }

/-- Run an accepted command to its completion (R220, R221, R225): the checks made before any effect, then the
pseudocode, then `Complete` with the first error raised. -/
def runCommand (t : Touches) (check : State → Option ErrCode) (body : State → Except ErrCode State)
    (s : State) : State :=
  match check s with
  | some e => complete e s
  | none =>
    match body s with
    | .ok s' => complete .none s'
    | .error e => complete e (spoil t s)

/-- The host submits a legal command word other than SRST (R220): ignored while ERR is not 0, else accepted and
run to completion. This is how every error of the machine is taken. -/
def submit (op : BitVec 8) (t : Touches) (check : State → Option ErrCode)
    (body : State → Except ErrCode State) (s : State) :
    Host.Outcome State Fault Refusal :=
  if s.err ≠ .none then .next s else .next (runCommand t check body (accept op s))

/-- A command with no check of its own. -/
def noCheck (_ : State) : Option ErrCode := none

/-- The pseudocode of SRST, the return from an error (R101, R228). -/
def softReset (s : State) : State :=
  { s with
    rd := ⟨0, 0, 0⟩
    wr := ⟨0, 0, 0⟩
    result := 0
    ricek := 0
    err := .none }

end Sys2Proof.Machine
end

