-- ==== Sys2Proof/Machine/BitByteIo.lean ====
section
/-! DEFINITION. The bit and byte stream commands (41_bit_byte_io.md). -/

namespace Sys2Proof.Machine

/-- A big-endian read of `n` bytes into RESULT (R116 to R118). -/
def readBytes (n : Nat) (s : State) : Except ErrCode State := do
  let p ← readBytesFrom (source s) n 0 s.rd
  .ok { s with rd := p.2, result := BitVec.ofNat 32 p.1 }

/-- A read of `n` bits into RESULT (R122, R123). -/
def readBits (n : Nat) (s : State) : Except ErrCode State := do
  let p ← getBits (source s) n s.rd
  .ok { s with rd := p.2, result := BitVec.ofNat 32 p.1 }

/-- A big-endian write of the low `n` bytes of ARG (R119 to R121). -/
def writeBytes (n : Nat) (s : State) : Except ErrCode State := do
  let k ← emitBytes s.params.outBytes s.arg n (sink s)
  .ok (setSink s k)

/-- A write of the low `n` bits of ARG (R125, R126). -/
def writeBits (n : Nat) (s : State) : Except ErrCode State := do
  let k ← putBits s.params.outBytes s.arg n (sink s)
  .ok (setSink s k)

/-- RDU8 (R116). -/
def execRdu8 (s : State) : Host.Outcome State Fault Refusal :=
  submit 0x10 { reader := true } byteReadCheck (readBytes 1) s

/-- RDU16 (R117). -/
def execRdu16 (s : State) : Host.Outcome State Fault Refusal :=
  submit 0x11 { reader := true } byteReadCheck (readBytes 2) s

/-- RDU32 (R118). -/
def execRdu32 (s : State) : Host.Outcome State Fault Refusal :=
  submit 0x12 { reader := true } byteReadCheck (readBytes 4) s

/-- WRU8 (R119). -/
def execWru8 (s : State) : Host.Outcome State Fault Refusal :=
  submit 0x14 { writer := true } byteWriteCheck (writeBytes 1) s

/-- WRU16 (R120). -/
def execWru16 (s : State) : Host.Outcome State Fault Refusal :=
  submit 0x15 { writer := true } byteWriteCheck (writeBytes 2) s

/-- WRU32 (R121). -/
def execWru32 (s : State) : Host.Outcome State Fault Refusal :=
  submit 0x16 { writer := true } byteWriteCheck (writeBytes 4) s

/-- GETBIT (R122). -/
def execGetbit (s : State) : Host.Outcome State Fault Refusal :=
  submit 0x20 { reader := true } noCheck (readBits 1) s

/-- GETBITS n (R123). -/
def execGetbits (n : BitVec 5) (s : State) : Host.Outcome State Fault Refusal :=
  submit 0x21 { reader := true } (fun _ => countCheck maxBitsPerCall n)
    (readBits n.toNat) s

/-- BRALIGN (R124): BR_BUF and BR_CNT become 0, as its pseudocode says, also when BR_CNT is 0 already. There the
rule's corner case says that it has no effect, so that clearing BR_BUF is the model's choice (DESIGN CHOICE, unsafe,
log entry 14). -/
def execBralign (s : State) : Host.Outcome State Fault Refusal :=
  submit 0x22 { reader := true } noCheck
    (fun s => .ok { s with rd := { s.rd with buf := 0, cnt := 0 } }) s

/-- PUTBIT (R125). -/
def execPutbit (s : State) : Host.Outcome State Fault Refusal :=
  submit 0x24 { writer := true } noCheck (writeBits 1) s

/-- PUTBITS n (R126). -/
def execPutbits (n : BitVec 5) (s : State) : Host.Outcome State Fault Refusal :=
  submit 0x25 { writer := true } (fun _ => countCheck maxBitsPerCall n) (writeBits n.toNat) s

/-- BWFLUSH (R127). -/
def execBwflush (s : State) : Host.Outcome State Fault Refusal :=
  submit 0x26 { writer := true } noCheck (fun s => do
    let k ← flushWriter s.params.outBytes (sink s)
    .ok (setSink s k)) s

end Sys2Proof.Machine
end

