-- ==== Sys2Proof/Machine/Control.lean ====
section
/-! DEFINITION. The control commands NOP, SRST and CLR (40_control.md). -/

namespace Sys2Proof.Machine

/-- NOP (R100). -/
def execNop (s : State) : Host.Outcome State Fault Refusal :=
  submit 0x00 {} noCheck .ok s

/-- SRST (R101): the one command accepted while ERR is not 0 (R220). -/
def execSrst (s : State) : Host.Outcome State Fault Refusal :=
  .next (complete .none (softReset (accept 0x01 s)))

/-- CLR (R102). -/
def execClr (s : State) : Host.Outcome State Fault Refusal :=
  submit 0x02 { grid := true } gridCheck (fun s => do
    let c ← loopUp (gridRows s * gridCols s) (fun a => store a 0) s.coef
    .ok { s with coef := c }) s

end Sys2Proof.Machine
end

