-- ==== Sys2Proof/Machine/Transform.lean ====
section
/-! DEFINITION. The H-transform, its inverse, quantize and un-quantize (42_transform.md). A grid is COEF with C
columns; a(i, j) is the word i*C + j (R10). -/

namespace Sys2Proof.Machine

/-! ## Exact integer helpers (R8, R144) -/

/-- `2^s` as an integer. -/
def pow2 (s : Nat) : Int := ((2 ^ s : Nat) : Int)

/-- `a >> s`: floor(a / 2^s) (R8). -/
def asr (a : Int) (s : Nat) : Int := a / pow2 s

/-- `a & -(2^s)`: the largest multiple of 2^s not above a (R8). -/
def maskLow (a : Int) (s : Nat) : Int := a / pow2 s * pow2 s

/-- Bit s of the two's-complement form of a, as 0 or 1 (R8). -/
def bitOf (a : Int) (s : Nat) : Int := a / pow2 s % 2

/-- `a & 2^s` (R8). -/
def bitMask (a : Int) (s : Nat) : Int := bitOf a s * pow2 s

/-- `(a ^ b ^ c) & 2^s`: the exclusive or of three bits is the parity of their sum (R8). -/
def xorMask (a b c : Int) (s : Nat) : Int := (bitOf a s + bitOf b s + bitOf c s) % 2 * pow2 s

/-- `RndD(v, p, -(2^s))` (R144). -/
def rndD (v p : Int) (s : Nat) : Int := maskLow (if 0 ≤ v then v + p else v) s

/-- `RndS(v, p, -(2^s))` (R144). -/
def rndS (v p : Int) (s : Nat) : Int := maskLow (if 0 ≤ v then v + p else v + p - 1) s

/-- `RndI(v, p, q, -(2^s))` (R144). -/
def rndI (v p q : Int) (s : Nat) : Int := maskLow (v + if 0 ≤ v then p else q) s

/-- The search for the least L with 2^L ≥ n, from L on, in at most `fuel` steps. -/
def clog2From : Nat → Nat → Nat → Nat
  | 0, L, _ => L
  | fuel + 1, L, n => if n ≤ 2 ^ L then L else clog2From fuel (L + 1) n

/-- `clog2(n)` (R8); n steps suffice, since 2^n ≥ n. -/
def clog2 (n : Nat) : Nat := clog2From n 0 n

/-! ## Geometry (R140 to R143) -/

/-- The level count L (R140). -/
def levelCount (R C : Nat) : Nat := clog2 (max R C)

/-- Where `Shuffle` takes its element m from (R142). -/
def shuffleSource (n m : Nat) : Nat :=
  if m < ceilShift n 1 then 2 * m else 2 * (m - ceilShift n 1) + 1

/-- Where `Unshuffle` takes its element m from (R143). -/
def unshuffleSource (n m : Nat) : Nat := if m % 2 = 0 then m / 2 else ceilShift n 1 + m / 2

/-- Replace the n words at `addr 0 .. addr (n-1)` by a permutation of their old values. -/
def permute (n : Nat) (src addr : Nat → Nat) (c : Memory 32) : Memory 32 :=
  foldUp n (fun m acc => acc.write (addr m) (c.read (addr (src m)))) c

/-- A permutation of the first `ct` columns in each of the first `rt` rows (R150, R158). -/
def permuteRows (C rt ct : Nat) (src : Nat → Nat) (c : Memory 32) : Memory 32 :=
  foldUp rt (fun i => permute ct src (fun j => i * C + j)) c

/-- A permutation of the first `rt` rows in each of the first `ct` columns (R150, R158). -/
def permuteCols (C rt ct : Nat) (src : Nat → Nat) (c : Memory 32) : Memory 32 :=
  foldUp ct (fun j => permute rt src (fun i => i * C + j)) c

/-! ## Forward transform (R145 to R151) -/

/-- The shift `sh` of forward level k (R145). -/
def forwardShift (k : Nat) : Nat := if k = 0 then 0 else 1

/-- A difference coefficient's rounding at level k (R144, R145). -/
def roundDiff (k : Nat) (v : Int) : Int := rndD v (pow2 k) (k + 1)

/-- A sum coefficient's rounding at level k (R144, R145). -/
def roundSum (k : Nat) (v : Int) : Int := rndS v (pow2 (k + 1)) (k + 2)

/-- Forward full block at (i, j) (R146). -/
def forwardBlock (C k i j : Nat) (c : Memory 32) : Except ErrCode (Memory 32) :=
  let A := coefInt c (i * C + j)
  let B := coefInt c (i * C + (j + 1))
  let Cc := coefInt c ((i + 1) * C + j)
  let D := coefInt c ((i + 1) * C + (j + 1))
  let h0 := asr (D + Cc + B + A) (forwardShift k)
  let hx := asr (D + Cc - B - A) (forwardShift k)
  let hy := asr (D - Cc + B - A) (forwardShift k)
  let hc := asr (D - Cc - B + A) (forwardShift k)
  do
    let c ← store ((i + 1) * C + (j + 1)) hc c
    let c ← store ((i + 1) * C + j) (roundDiff k hx) c
    let c ← store (i * C + (j + 1)) (roundDiff k hy) c
    store (i * C + j) (roundSum k h0) c

/-- The two-word block of a leftover column or row, at words `a` and `b` (R147, R148). -/
def forwardPair (k a b : Nat) (c : Memory 32) : Except ErrCode (Memory 32) :=
  let A := coefInt c a
  let B := coefInt c b
  let h0 := (B + A) * pow2 (1 - forwardShift k)
  let hd := (B - A) * pow2 (1 - forwardShift k)
  do
    let c ← store b (roundDiff k hd) c
    store a (roundSum k h0) c

/-- Forward corner at word `a` (R149). -/
def forwardCorner (k a : Nat) (c : Memory 32) : Except ErrCode (Memory 32) :=
  store a (roundSum k (coefInt c a * pow2 (2 - forwardShift k))) c

/-- The blocks of a level, in order, over an `rt` by `ct` corner (R150, R158): for each row pair its full blocks
and then its leftover column pair, then the leftover row's pairs, then the corner. -/
def overBlocks (C rt ct : Nat) (block : Nat → Nat → Memory 32 → Except ErrCode (Memory 32))
    (pair : Nat → Nat → Memory 32 → Except ErrCode (Memory 32))
    (corner : Nat → Memory 32 → Except ErrCode (Memory 32)) (c : Memory 32) :
    Except ErrCode (Memory 32) := do
  let c ← loopUp (rt / 2) (fun ip c => do
    let c ← loopUp (ct / 2) (fun jp => block (2 * ip) (2 * jp)) c
    if ct % 2 = 1 then pair (2 * ip * C + (ct - 1)) ((2 * ip + 1) * C + (ct - 1)) c else .ok c) c
  let c ← if rt % 2 = 1 then
      loopUp (ct / 2) (fun jp => pair ((rt - 1) * C + 2 * jp) ((rt - 1) * C + (2 * jp + 1))) c
    else .ok c
  if rt % 2 = 1 ∧ ct % 2 = 1 then corner ((rt - 1) * C + (ct - 1)) c else .ok c

/-- `ForwardLevel(k)` (R150). -/
def forwardLevel (R C k : Nat) (c : Memory 32) : Except ErrCode (Memory 32) := do
  let rt := ceilShift R k
  let ct := ceilShift C k
  let c ← overBlocks C rt ct (forwardBlock C k) (forwardPair k) (forwardCorner k) c
  .ok (permuteCols C rt ct (shuffleSource rt) (permuteRows C rt ct (shuffleSource ct) c))

/-- The forward transform of an R×C grid (R151). -/
def forwardTransform (R C : Nat) (c : Memory 32) : Except ErrCode (Memory 32) :=
  loopUp (levelCount R C) (forwardLevel R C) c

/-! ## Inverse transform (R152 to R159) -/

/-- The shift `sh` of inverse level k (R152). -/
def inverseShift (k : Nat) : Nat := if k = 0 then 2 else 1

/-- The re-rounding of hx and hy at level k: prnd1, nrnd1, mask1 (R152). -/
def reRoundDiff (k : Nat) (v : Int) : Int := rndI v (pow2 k) (pow2 k - 1) (k + 1)

/-- The re-rounding of hc at level k: prnd0, nrnd0, mask0 (R152). -/
def reRoundCross (k : Nat) (v : Int) : Int :=
  if k = 0 then rndI v 0 0 0 else rndI v (pow2 (k - 1)) (pow2 (k - 1) - 1) k

/-- Inverse full block at (i, j) (R154). -/
def inverseBlock (C k i j : Nat) (c : Memory 32) : Except ErrCode (Memory 32) :=
  let h0 := coefInt c (i * C + j)
  let hx := reRoundDiff k (coefInt c ((i + 1) * C + j))
  let hy := reRoundDiff k (coefInt c (i * C + (j + 1)))
  let hc := reRoundCross k (coefInt c ((i + 1) * C + (j + 1)))
  let lb0 := bitMask hc k
  let hx := if 0 ≤ hx then hx - lb0 else hx + lb0
  let hy := if 0 ≤ hy then hy - lb0 else hy + lb0
  let lb1 := xorMask hc hx hy (k + 1)
  let h0 := if 0 ≤ h0 then h0 + lb0 - lb1 else h0 + (if lb0 = 0 then lb1 else lb0 - lb1)
  do
    let c ← store ((i + 1) * C + (j + 1)) (asr (h0 + hx + hy + hc) (inverseShift k)) c
    let c ← store ((i + 1) * C + j) (asr (h0 + hx - hy - hc) (inverseShift k)) c
    let c ← store (i * C + (j + 1)) (asr (h0 - hx + hy - hc) (inverseShift k)) c
    store (i * C + j) (asr (h0 - hx - hy + hc) (inverseShift k)) c

/-- The two-word block of a leftover column or row, at words `a` and `b` (R155, R156). -/
def inversePair (k a b : Nat) (c : Memory 32) : Except ErrCode (Memory 32) :=
  let h0 := coefInt c a
  let hd := reRoundDiff k (coefInt c b)
  let lb1 := bitMask hd (k + 1)
  let h0 := if 0 ≤ h0 then h0 - lb1 else h0 + lb1
  do
    let c ← store b (asr (h0 + hd) (inverseShift k)) c
    store a (asr (h0 - hd) (inverseShift k)) c

/-- Inverse corner at word `a` (R157). -/
def inverseCorner (k a : Nat) (c : Memory 32) : Except ErrCode (Memory 32) :=
  store a (asr (coefInt c a) (inverseShift k)) c

/-- Inverse level k (R158). -/
def inverseLevel (R C k : Nat) (c : Memory 32) : Except ErrCode (Memory 32) :=
  let rt := ceilShift R k
  let ct := ceilShift C k
  overBlocks C rt ct (inverseBlock C k) (inversePair k) (inverseCorner k)
    (permuteCols C rt ct (unshuffleSource rt) (permuteRows C rt ct (unshuffleSource ct) c))

/-- `PreRound()` before the first of L inverse levels (R153). -/
def preRound (L : Nat) (c : Memory 32) : Except ErrCode (Memory 32) :=
  store 0 (rndI (coefInt c 0) (pow2 L) (pow2 L - 1) (L + 1)) c

/-- The inverse transform of an R×C grid (R159). -/
def inverseTransform (R C : Nat) (c : Memory 32) : Except ErrCode (Memory 32) :=
  let L := levelCount R C
  if L = 0 then .ok c
  else do
    let c ← preRound L c
    loopDown L (inverseLevel R C) c

/-! ## Quantization (R160, R161) -/

/-- One word quantized by s (R160). -/
def digitizeValue (s : Nat) (v : Int) : Int :=
  let d : Int := ((s + 1) / 2 - 1 : Nat)
  if 0 < v then Int.tdiv (v + d) s else Int.tdiv (v - d) s

/-- Quantize the first n words by s; nothing when s ≤ 1 (R160). -/
def digitizeGrid (s n : Nat) (c : Memory 32) : Except ErrCode (Memory 32) :=
  if s ≤ 1 then .ok c
  else loopUp n (fun a c => store a (digitizeValue s (coefInt c a)) c) c

/-- Un-quantize the first n words by s; nothing when s ≤ 1 (R161). -/
def undigitizeGrid (s n : Nat) (c : Memory 32) : Except ErrCode (Memory 32) :=
  if s ≤ 1 then .ok c
  else loopUp n (fun a c => store a (coefInt c a * s) c) c

/-! ## Commands -/

/-- A grid command's pseudocode that reads and writes COEF only. -/
def onGrid (f : State → Memory 32 → Except ErrCode (Memory 32)) (s : State) : Except ErrCode State := do
  let c ← f s s.coef
  .ok { s with coef := c }

/-- HTRANS (R151). -/
def execHtrans (s : State) : Host.Outcome State Fault Refusal :=
  submit 0x30 { grid := true } gridCheck
    (onGrid fun s => forwardTransform (gridRows s) (gridCols s)) s

/-- HINV (R159). -/
def execHinv (s : State) : Host.Outcome State Fault Refusal :=
  submit 0x31 { grid := true } gridCheck
    (onGrid fun s => inverseTransform (gridRows s) (gridCols s)) s

/-- DIGITIZE (R160). -/
def execDigitize (s : State) : Host.Outcome State Fault Refusal :=
  submit 0x32 { grid := true } gridCheck
    (onGrid fun s => digitizeGrid s.scale.toNat (gridRows s * gridCols s)) s

/-- UNDIGITIZE (R161). -/
def execUndigitize (s : State) : Host.Outcome State Fault Refusal :=
  submit 0x33 { grid := true } gridCheck
    (onGrid fun s => undigitizeGrid s.scale.toNat (gridRows s * gridCols s)) s

end Sys2Proof.Machine
end

