-- ==== Sys2Proof/Machine/Huffman.lean ====
section
/-! DEFINITION. The Huffman ROM, the bit-plane quadtree decoder, the terminator and the sign bits
(43_huffman_quadtree.md). -/

namespace Sys2Proof.Machine

/-! ## The Huffman ROM (R170 to R173) -/

/-- `DOC_DEFAULT`, by symbol (R172). -/
def docDefaultCodes : List HuffCode :=
  [⟨0b000, 3⟩, ⟨0b111110, 6⟩, ⟨0b001, 3⟩, ⟨0b1000, 4⟩, ⟨0b010, 3⟩, ⟨0b1001, 4⟩, ⟨0b11010, 5⟩,
    ⟨0b11011, 5⟩, ⟨0b011, 3⟩, ⟨0b11100, 5⟩, ⟨0b1010, 4⟩, ⟨0b11101, 5⟩, ⟨0b1011, 4⟩, ⟨0b11110, 5⟩,
    ⟨0b111111, 6⟩, ⟨0b1100, 4⟩]

/-- `HCOMPRESS`, by symbol (R173). -/
def hcompressCodes : List HuffCode :=
  [⟨0x3E, 6⟩, ⟨0x00, 3⟩, ⟨0x01, 3⟩, ⟨0x08, 4⟩, ⟨0x02, 3⟩, ⟨0x09, 4⟩, ⟨0x1A, 5⟩, ⟨0x1B, 5⟩, ⟨0x03, 3⟩,
    ⟨0x1C, 5⟩, ⟨0x0A, 4⟩, ⟨0x1D, 5⟩, ⟨0x0B, 4⟩, ⟨0x1E, 5⟩, ⟨0x3F, 6⟩, ⟨0x0C, 4⟩]

/-- HROM's entries in symbol order (R40). -/
def huffCodes : HuffTable → List HuffCode
  | .docDefault => docDefaultCodes
  | .hcompress => hcompressCodes
  | .custom codes => codes

/-- The symbol, counted from `sym`, whose code is the `l`-bit value `v` (R170). -/
def huffLookup : List HuffCode → Nat → Nat → Nat → Option Nat
  | [], _, _, _ => none
  | h :: t, sym, v, l => if h.len = l ∧ h.code = v then some sym else huffLookup t (sym + 1) v l

/-- The loop of `HuffDecode` with `l` bits read and at most `more` left to read (R170). -/
def huffLoop (codes : List HuffCode) (src : Source) :
    Nat → Nat → Nat → BitReader → Except ErrCode (Nat × BitReader)
  | more, l, v, r =>
    match huffLookup codes 0 v l with
    | some sym => .ok (sym, r)
    | none =>
      match more with
      | 0 => .error .format
      | more + 1 => do
        let p ← getBit src r
        huffLoop codes src more (l + 1) (2 * v + p.1.toNat) p.2

/-- `HuffDecode()` (R170): 3 bits, then one more at a time up to 6. -/
def huffDecode (codes : List HuffCode) (src : Source) (r : BitReader) :
    Except ErrCode (Nat × BitReader) := do
  let p ← getBits src 3 r
  huffLoop codes src 3 3 p.1 p.2

/-- HUFFSYM (R174). -/
def execHuffsym (s : State) : Host.Outcome State Fault Refusal :=
  submit 0x40 { reader := true } noCheck (fun s => do
    let p ← huffDecode (huffCodes s.params.huffTable) (source s) s.rd
    .ok { s with rd := p.2, result := BitVec.ofNat 32 p.1 }) s

/-! ## Code arrays (R175, R176) -/

/-- A code array G: its codes in raster order, `width` to a row (R175). Scratch, not state (R42). -/
structure CodeArray where
  width : Nat
  codes : List Nat
  deriving DecidableEq, Repr

/-- The code at (i, j). -/
def CodeArray.at (g : CodeArray) (i j : Nat) : Nat := g.codes.getD (i * g.width + j) 0

/-- `CodeBit(G, i, j)` (R176). -/
def codeBit (g : CodeArray) (i j : Nat) : Bool := (g.at (i / 2) (j / 2)).testBit (3 - 2 * (i % 2) - j % 2)

/-- M, the number of code levels of a quadrant (R175). -/
def codeLevels (nqx nqy : Nat) : Nat := max 1 (clog2 (max nqx nqy))

/-! ## Plane decoding (R177 to R179) -/

/-- `ReadPlaneFlag()` (R177): true for a quadtree plane, false for a direct one. -/
def readPlaneFlag (wide : Bool) (src : Source) (r : BitReader) : Except ErrCode (Bool × BitReader) :=
  if wide then do
    let p ← getBits src 4 r
    if p.1 = 0xF then .ok (true, p.2)
    else if p.1 = 0 then .ok (false, p.2)
    else .error .format
  else getBit src r

/-- The codes of a level with `idx` positions still to come, in reverse raster order, put before `acc` (R178). -/
def readLevel (codes : List HuffCode) (src : Source) (parent : CodeArray) (width : Nat) :
    Nat → List Nat → BitReader → Except ErrCode (List Nat × BitReader)
  | 0, acc, r => .ok (acc, r)
  | idx + 1, acc, r =>
    if codeBit parent (idx / width) (idx % width) then do
      let p ← huffDecode codes src r
      readLevel codes src parent width idx (p.1 :: acc) p.2
    else readLevel codes src parent width idx (0 :: acc) r

/-- The levels of a quadtree plane below `parent`, with `todo` levels to come (R175, R178): the next one is level
j = M - (todo + 1), so it has ceil(nqx / 2^(M-j)) = ceil(nqx / 2^(todo+1)) rows. -/
def expandLevels (codes : List HuffCode) (src : Source) (nqx nqy : Nat) :
    Nat → CodeArray → BitReader → Except ErrCode (CodeArray × BitReader)
  | 0, parent, r => .ok (parent, r)
  | todo + 1, parent, r => do
    let gx := ceilShift nqx (todo + 1)
    let gy := ceilShift nqy (todo + 1)
    let p ← readLevel codes src parent gy (gx * gy) [] r
    expandLevels codes src nqx nqy todo ⟨gy, p.1⟩ p.2

/-- `DecodeQuadtreePlane()` (R178). -/
def decodeQuadtreePlane (codes : List HuffCode) (src : Source) (nqx nqy : Nat) (r : BitReader) :
    Except ErrCode (CodeArray × BitReader) := do
  let p ← huffDecode codes src r
  expandLevels codes src nqx nqy (codeLevels nqx nqy - 1) ⟨1, [p.1]⟩ p.2

/-- The next `n` nybbles, in forward order (R179). -/
def readNybbles (src : Source) : Nat → BitReader → Except ErrCode (List Nat × BitReader)
  | 0, r => .ok ([], r)
  | n + 1, r => do
    let p ← getBits src 4 r
    let q ← readNybbles src n p.2
    .ok (p.1 :: q.1, q.2)

/-- `DecodeDirectPlane()` (R179): G_(M-1) has one code per 2×2 group (R175). -/
def decodeDirectPlane (src : Source) (nqx nqy : Nat) (r : BitReader) :
    Except ErrCode (CodeArray × BitReader) := do
  let p ← readNybbles src (ceilShift nqx 1 * ceilShift nqy 1) r
  .ok (⟨ceilShift nqy 1, p.1⟩, p.2)

/-- One plane: its flag and its codes (R180, R181). -/
def decodePlane (codes : List HuffCode) (wide : Bool) (src : Source) (nqx nqy : Nat) (r : BitReader) :
    Except ErrCode (CodeArray × BitReader) := do
  let f ← readPlaneFlag wide src r
  if f.1 then decodeQuadtreePlane codes src nqx nqy f.2 else decodeDirectPlane src nqx nqy f.2

/-! ## QTDEC (R180) -/

/-- OR bit p into each word of the quadrant whose code bit is 1 (R180). -/
def applyPlane (d : Quadrant) (C p : Nat) (g : CodeArray) (c : Memory 32) : Memory 32 :=
  foldUp d.height (fun i => foldUp d.width fun j c =>
    if codeBit g i j then
      c.write (d.cell C i j) (c.read (d.cell C i j) ||| BitVec.ofNat 32 (2 ^ p))
    else c) c

/-- Plane p of quadrant d: decode it, then apply it (R180). -/
def qtdecPlane (codes : List HuffCode) (wide : Bool) (src : Source) (d : Quadrant) (C p : Nat)
    (x : BitReader × Memory 32) : Except ErrCode (BitReader × Memory 32) := do
  let g ← decodePlane codes wide src d.height d.width x.1
  .ok (g.2, applyPlane d C p g.1 x.2)

/-- Every plane of a quadrant, the highest first; an empty quadrant reads nothing (R180). -/
def qtdecQuadrant (codes : List HuffCode) (wide : Bool) (src : Source) (d : Quadrant) (C nbp : Nat)
    (x : BitReader × Memory 32) : Except ErrCode (BitReader × Memory 32) :=
  if d.height = 0 ∨ d.width = 0 then .ok x
  else loopDown nbp (qtdecPlane codes wide src d C) x

/-- A grid command's pseudocode that reads the bit stream and writes COEF. -/
def onStreamGrid (f : State → BitReader × Memory 32 → Except ErrCode (BitReader × Memory 32))
    (s : State) : Except ErrCode State := do
  let x ← f s (s.rd, s.coef)
  .ok { s with rd := x.1, coef := x.2 }

/-- QTDEC q (R180). -/
def execQtdec (q : BitVec 2) (s : State) : Host.Outcome State Fault Refusal :=
  submit 0x41 { reader := true, grid := true } (planeCheck q)
    (onStreamGrid fun s =>
      qtdecQuadrant (huffCodes s.params.huffTable) s.flagW (source s)
        (quadrantRange (gridRows s) (gridCols s) q) (gridCols s) (planeCount s q)) s

/-! ## TERM and SIGNS (R182, R183) -/

/-- TERM (R182). -/
def execTerm (s : State) : Host.Outcome State Fault Refusal :=
  submit 0x42 { reader := true } noCheck (fun s => do
    let p ← getBits (source s) 4 s.rd
    if p.1 ≠ 0 then .error .format else .ok { s with rd := p.2 }) s

/-- The sign of one word: a zero word takes no bit, bit 1 negates (R183). -/
def signCell (src : Source) (a : Nat) (x : BitReader × Memory 32) :
    Except ErrCode (BitReader × Memory 32) :=
  if coefInt x.2 a = 0 then .ok x
  else do
    let b ← getBit src x.1
    if b.1 then do
      let c ← store a (-coefInt x.2 a) x.2
      .ok (b.2, c)
    else .ok (b.2, x.2)

/-- The signs of the whole grid: quadrants 0 to 3, each in raster order (R183). -/
def applySigns (src : Source) (R C : Nat) : BitReader × Memory 32 → Except ErrCode (BitReader × Memory 32) :=
  loopUp 4 fun q => overQuadrant (quadrantRange R C (BitVec.ofNat 2 q)) C (signCell src)

/-- SIGNS (R183). -/
def execSigns (s : State) : Host.Outcome State Fault Refusal :=
  submit 0x43 { reader := true, grid := true } gridCheck
    (onStreamGrid fun s => applySigns (source s) (gridRows s) (gridCols s)) s

end Sys2Proof.Machine
end

