-- ==== Sys2Proof/Machine/Rice.lean ====
section
/-! DEFINITION. The Rice decoder (44_rice.md). -/

namespace Sys2Proof.Machine

/-- `ZigZag(v)` (R200). -/
def zigZag (v : Int) : Nat := 2 * v.natAbs - if 0 < v then 1 else 0

/-- `UnZig(u)` (R200). -/
def unZig (u : Nat) : Int := if u % 2 = 1 then ((u + 1) / 2 : Nat) else -((u / 2 : Nat) : Int)

/-- The zeros before the 1 of a Rice code: `room` more may come, `z` have come (R202). The zero that exceeds the
bound raises FORMAT. -/
def riceRun (src : Source) : Nat → Nat → BitReader → Except ErrCode (Nat × BitReader)
  | room, z, r => do
    let p ← getBit src r
    if p.1 then .ok (z, p.2)
    else
      match room with
      | 0 => .error .format
      | room + 1 => riceRun src room (z + 1) p.2

/-- `RiceValue(k)` (R202). -/
def riceValue (src : Source) (k : Nat) (r : BitReader) : Except ErrCode (Int × BitReader) := do
  let z ← riceRun src (2 ^ (32 - k)) 0 r
  let low ← getBits src k z.2
  let v := unZig (z.1 * 2 ^ k + low.1)
  if v < -2147483648 ∨ 2147483647 < v then .error .format else .ok (v, low.2)

/-- RICEVAL k (R204). -/
def execRiceval (k : BitVec 5) (s : State) : Host.Outcome State Fault Refusal :=
  submit 0x50 { reader := true } (fun _ => countCheck riceKMax k) (fun s => do
    let p ← riceValue (source s) k.toNat s.rd
    .ok { s with rd := p.2, result := BitVec.ofInt 32 p.1 }) s

/-- One word of a quadrant (R206). -/
def riceCell (src : Source) (k a : Nat) (x : BitReader × Memory 32) :
    Except ErrCode (BitReader × Memory 32) := do
  let p ← riceValue src k x.1
  let c ← store a p.1 x.2
  .ok (p.2, c)

/-- RICEDEC q (R206): the split parameter, then every word of the quadrant in raster order. -/
def execRicedec (q : BitVec 2) (s : State) : Host.Outcome State Fault Refusal :=
  submit 0x51 { reader := true, grid := true, ricek := true } gridCheck (fun s => do
    let k ← getBits (source s) 4 s.rd
    let x ← overQuadrant (quadrantRange (gridRows s) (gridCols s) q) (gridCols s)
      (riceCell (source s) k.1) (k.2, s.coef)
    .ok { s with rd := x.1, coef := x.2, ricek := BitVec.ofNat 4 k.1 }) s

end Sys2Proof.Machine
end

