-- ==== Sys2Proof/Machine/Dispatch.lean ====
section
/-! DEFINITION. One meaning per command: what the host's submission of it does (60_exceptions.md R220). -/

namespace Sys2Proof.Machine

def exec (i : Instr) (s : State) : Host.Outcome State Fault Refusal :=
  match i with
  -- control (40_control.md)
  | .nop => Sys2Proof.Machine.execNop s
  | .srst => Sys2Proof.Machine.execSrst s
  | .clr => Sys2Proof.Machine.execClr s
  -- bit and byte streams (41_bit_byte_io.md)
  | .rdu8 => Sys2Proof.Machine.execRdu8 s
  | .rdu16 => Sys2Proof.Machine.execRdu16 s
  | .rdu32 => Sys2Proof.Machine.execRdu32 s
  | .wru8 => Sys2Proof.Machine.execWru8 s
  | .wru16 => Sys2Proof.Machine.execWru16 s
  | .wru32 => Sys2Proof.Machine.execWru32 s
  | .getbit => Sys2Proof.Machine.execGetbit s
  | .getbits n => Sys2Proof.Machine.execGetbits n s
  | .bralign => Sys2Proof.Machine.execBralign s
  | .putbit => Sys2Proof.Machine.execPutbit s
  | .putbits n => Sys2Proof.Machine.execPutbits n s
  | .bwflush => Sys2Proof.Machine.execBwflush s
  -- transform and quantization (42_transform.md)
  | .htrans => Sys2Proof.Machine.execHtrans s
  | .hinv => Sys2Proof.Machine.execHinv s
  | .digitize => Sys2Proof.Machine.execDigitize s
  | .undigitize => Sys2Proof.Machine.execUndigitize s
  -- Huffman and quadtree (43_huffman_quadtree.md)
  | .huffsym => Sys2Proof.Machine.execHuffsym s
  | .qtdec q => Sys2Proof.Machine.execQtdec q s
  | .term => Sys2Proof.Machine.execTerm s
  | .signs => Sys2Proof.Machine.execSigns s
  -- Rice (44_rice.md)
  | .riceval k => Sys2Proof.Machine.execRiceval k s
  | .ricedec q => Sys2Proof.Machine.execRicedec q s

end Sys2Proof.Machine
end

