-- ==== Sys2Proof/Machine/HostBus.lean ====
section
/-! DEFINITION. The host's moves: the register window (10_state.md R22 to R37), the memories (20_memory.md R50),
reset (70_reset_and_hazards.md R250, R251) and the protocol violations (R257). -/

namespace Sys2Proof.Machine

/-- The host writes the word `w` to CMD (R220). -/
def onCmdWrite (w : Word) (s : State) : Host.Outcome State Fault Refusal :=
  if s.err ≠ .none ∧ w ≠ 0x00000001#32 then .next s
  else
    match decode w with
    | .ok i => exec i s
    | .error _ => .next (complete .illegal (accept (fieldOp w) s))

/-- What a register of the window reads as (R22 to R37); CMD and the reserved offsets read 0. -/
def regValue (off : Nat) (s : State) : Word :=
  if off = 0x04 then statusWord s
  else if off = 0x08 then 0#30 ++ BitVec.ofBool s.ie ++ BitVec.ofBool s.flagW
  else if off = 0x0C then s.rows ++ s.cols
  else if off = 0x10 then 0#16 ++ s.scale
  else if off = 0x14 then s.nbp3 ++ s.nbp2 ++ s.nbp1 ++ s.nbp0
  else if off = 0x18 then s.arg
  else if off = 0x1C then s.result
  else if off = 0x20 then s.inLen
  else if off = 0x24 then s.rd.pos
  else if off = 0x28 then s.wr.pos
  else if off = 0x2C then 0#20 ++ s.rd.cnt ++ s.rd.buf
  else if off = 0x30 then 0#20 ++ s.wr.cnt ++ s.wr.buf
  else if off = 0x34 then idValue
  else if off = 0x38 then 0#28 ++ s.ricek
  else 0

/-- IN_LEN after a host write of `v`: min(v, IN_BYTES) (R29). -/
def inLenOf (v : Word) (p : Params) : Word := BitVec.ofNat 32 (min v.toNat p.inBytes)

/-- A host write of `v` to a register other than CMD (R22 to R37); read-only and reserved offsets ignore it. -/
def regWriteData (off : Nat) (v : Word) (s : State) : State :=
  if off = 0x04 then writeStatus v s
  else if off = 0x08 then { s with flagW := v.getLsbD 0, ie := v.getLsbD 1 }
  else if off = 0x0C then { s with cols := v.extractLsb' 0 16, rows := v.extractLsb' 16 16 }
  else if off = 0x10 then { s with scale := v.extractLsb' 0 16 }
  else if off = 0x14 then
    { s with
      nbp0 := v.extractLsb' 0 8
      nbp1 := v.extractLsb' 8 8
      nbp2 := v.extractLsb' 16 8
      nbp3 := v.extractLsb' 24 8 }
  else if off = 0x18 then { s with arg := v }
  else if off = 0x20 then { s with inLen := inLenOf v s.params }
  else s

/-- Why a register access is no move (R22, R52, R257). -/
def regViolation (off size : Nat) : Option Refusal :=
  if size ≠ 4 ∨ off % 4 ≠ 0 then some .hostNotAlignedWord
  else if 0x100 ≤ off then some .hostOutsideWindow
  else none

/-- Why a COEF access is no move (R52, R257). -/
def coefViolation (i size : Nat) (p : Params) : Option Refusal :=
  if size ≠ 4 then some .hostNotAlignedWord
  else if p.coefWords ≤ i then some .hostOutsideMemory
  else none

/-- A move of the host while BUSY = 1 other than a STATUS read or a reset is no move (R255, R250). -/
def busyViolation (m : HostMove) (s : State) : Option Refusal :=
  if s.busy then
    match m with
    | .regRead off _ => if off = 0x04 then none else some .hostWhileBusy
    | .reset | .resetDuringCommand => none
    | .regWrite _ _ _ | .coefRead _ _ | .coefWrite _ _ _ | .inRead _ | .inWrite _ _ | .outRead _
    | .outWrite _ _ => some .hostWhileBusy
  else none

/-- A byte access of the host to a memory of `n` bytes (R257). -/
def byteViolation (i n : Nat) : Option Refusal := if n ≤ i then some .hostOutsideMemory else none

/-- Why a move is no move of the model (R257), or nothing. -/
def violation (m : HostMove) (s : State) : Option Refusal :=
  match busyViolation m s with
  | some r => some r
  | none =>
    match m with
    | .regRead off size => regViolation off size
    | .regWrite off size _ => regViolation off size
    | .coefRead i size => coefViolation i size s.params
    | .coefWrite i size _ => coefViolation i size s.params
    | .inRead i => byteViolation i s.params.inBytes
    | .inWrite i _ => byteViolation i s.params.inBytes
    | .outRead i => byteViolation i s.params.outBytes
    | .outWrite i _ =>
      match byteViolation i s.params.outBytes with
      | some r => some r
      | none => some .hostWritesOut
    | .reset | .resetDuringCommand => none

/-- The reset input (R250, R251): every register at its reset value, the memories untouched. The parameters and
the model's own fields are no registers and stay. -/
def hardReset (s : State) : State :=
  { State.reset with
    params := s.params
    coef := s.coef
    inMem := s.inMem
    outMem := s.outMem
    host := s.host
    hostData := s.hostData
    draws := s.draws }

/-- Reset while a command runs (R250, U11): as `hardReset`, and every COEF word and OUT byte holds a free value. -/
def abandonCommand (s : State) : State :=
  { hardReset s with
    coef := fillRange 0 s.params.coefWords (Config.freeCoef s.draws) s.coef
    outMem := fillRange 0 s.params.outBytes (Config.freeOutByte s.draws) s.outMem
    draws := s.draws + 1 }

/-- What an allowed move does (R22, R50, R57, R220, R250): a read returns its data and changes nothing else. -/
def hostEffect (m : HostMove) (s : State) : Host.Outcome State Fault Refusal :=
  match m with
  | .regRead off _ => .next { s with hostData := regValue off s }
  | .regWrite off _ v => if off = 0 then onCmdWrite v s else .next (regWriteData off v s)
  | .coefRead i _ => .next { s with hostData := s.coef.read i }
  | .coefWrite i _ v => .next { s with coef := s.coef.write i v }
  | .inRead i => .next { s with hostData := (s.inMem.read i).zeroExtend 32 }
  | .inWrite i b => .next { s with inMem := s.inMem.write i b }
  | .outRead i => .next { s with hostData := (s.outMem.read i).zeroExtend 32 }
  | .outWrite _ _ => .refused .hostWritesOut
  | .reset => .next (hardReset s)
  | .resetDuringCommand => .next (abandonCommand s)

/-- One move of the host: refused when it violates the protocol (R257), else its effect. -/
def hostMove (m : HostMove) (s : State) : Host.Outcome State Fault Refusal :=
  match violation m s with
  | some r => .refused r
  | none => hostEffect m s

/-- The host's move that submits the command word `w`: an aligned word write to CMD (R23). -/
def cmdMove (w : Word) : HostMove := .regWrite 0x00 4 w

end Sys2Proof.Machine
end

