-- ==== Sys2Proof/Machine/Step.lean ====
section
/-! DEFINITION. One step: the host's next move (70_reset_and_hazards.md R252). -/

namespace Sys2Proof.Machine

/-- The next move of the host is taken from the list and done; with none the engine is idle and keeps all its
state (R237, R252). -/
def step (s : State) : Host.Outcome State Fault Refusal :=
  match s.host with
  | [] => .next s
  | m :: rest => hostMove m { s with host := rest }

/-- `s` with the command word whose low `nbits` bits are those of `w` as the host's next move, a write to CMD. -/
def State.withFetchWord (s : State) (nbits w : Nat) : State :=
  { s with host := cmdMove (BitVec.ofNat 32 (w % 2 ^ nbits)) :: s.host }

end Sys2Proof.Machine
end

