-- ==== Sys2Proof/Safety.lean ====
section
/-! DEFINITION. The terms claims use: what a sound state is, which parameters are legal, and what the two streams
hold, said without the engine's loops. -/

namespace Sys2Proof.Machine

/-! ## Legal parameters -/

/-- No code of the table is a prefix of another: the longer one's leading bits differ from the shorter (R171). -/
def codesApart (a b : HuffCode) : Bool :=
  if a.len ≤ b.len then decide (b.code / 2 ^ (b.len - a.len) ≠ a.code)
  else decide (a.code / 2 ^ (a.len - b.len) ≠ b.code)

/-- Every two entries of the list are apart. -/
def allApart : List HuffCode → Bool
  | [] => true
  | h :: t => t.all (codesApart h) && allApart t

/-- The constraints of R40 and R171 on a table: 16 codes of 3 to 6 bits, prefix-free, its 6-bit codes two that share
their first 5 bits, and symbol 0's code of minimum length. -/
def tableLegal (codes : List HuffCode) : Bool :=
  decide (codes.length = 16) &&
  codes.all (fun h => decide (3 ≤ h.len) && decide (h.len ≤ 6) && decide (h.code < 2 ^ h.len)) &&
  allApart codes &&
  (match codes.filter (fun h => decide (h.len = 6)) with
    | [a, b] => decide (a.code / 2 = b.code / 2)
    | _ => false) &&
  codes.all (fun h => decide ((codes.headD ⟨0, 0⟩).len ≤ h.len))

/-- A HUFF_TABLE an implementation may have: DOC_DEFAULT, HCOMPRESS or a table meeting R171 (R171, U10). -/
def tableAllowed : HuffTable → Bool
  | .docDefault | .hcompress => true
  | .custom codes => tableLegal codes

/-- Legal parameters (R6). OUT_BYTES is below 2^32 because OUT_POS, a 32-bit register, holds every position up to
it (R33; DEDUCED, log entry 2). -/
def paramsLegal (p : Params) : Bool :=
  decide (1 ≤ p.coefWords) && decide (1 ≤ p.inBytes) && decide (1 ≤ p.outBytes) &&
  decide (p.outBytes < 2 ^ 32) && tableAllowed p.huffTable

/-! ## Sound states -/

/-- What holds between any two steps (R24, R29, R34, R35, R59). After an error both buffers' counts, the stream
positions and the writer's buffer are unspecified (R223), so their bounds are claimed only while ERR = 0. -/
structure State.Sound (s : State) : Prop where
  legal : paramsLegal s.params = true
  idle : s.busy = false
  coefWf : s.coef.wf = true
  inWf : s.inMem.wf = true
  outWf : s.outMem.wf = true
  inLen : s.inLen.toNat ≤ s.params.inBytes
  brCnt : s.err = .none → s.rd.cnt.toNat ≤ 7
  bwCnt : s.err = .none → s.wr.cnt.toNat ≤ 7
  inPos : s.err = .none → s.rd.pos.toNat ≤ s.params.inBytes
  outPos : s.err = .none → s.wr.pos.toNat ≤ s.params.outBytes
  bwBuf : s.err = .none → s.wr.buf.toNat < 2 ^ s.wr.cnt.toNat

/-- Nothing is stored at an index outside a memory (R50, R59). -/
structure State.Inside (s : State) : Prop where
  coef : s.coef.below s.params.coefWords = true
  input : s.inMem.below s.params.inBytes = true
  output : s.outMem.below s.params.outBytes = true

/-- The grid passes the check of R74. -/
abbrev gridFits (s : State) : Prop :=
  gridRows s ≠ 0 ∧ gridCols s ≠ 0 ∧ gridRows s * gridCols s ≤ s.params.coefWords

/-! ## The input stream (R53, R54, R112) -/

/-- How many bits the reader can still take. -/
def bitsLeft (src : Source) (r : BitReader) : Nat := r.cnt.toNat + 8 * (src.len.toNat - r.pos.toNat)

/-- The bit the reader takes after `t` others: first what is buffered, then each byte from bit 7 down. -/
def streamBit (src : Source) (r : BitReader) (t : Nat) : Bool :=
  if t < r.cnt.toNat then r.buf.getLsbD (r.cnt.toNat - 1 - t)
  else (src.mem.read (r.pos.toNat + (t - r.cnt.toNat) / 8)).getLsbD (7 - (t - r.cnt.toNat) % 8)

/-- The n-bit value that starts after `t` bits, its first bit most significant (R54). -/
def streamValue (src : Source) (r : BitReader) (t : Nat) : Nat → Nat
  | 0 => 0
  | n + 1 => 2 * streamValue src r t n + (streamBit src r (t + n)).toNat

/-- How many bytes are taken for the next n bits: ceil((n - BR_CNT) / 8), or none (R123). -/
def bytesFor (r : BitReader) (n : Nat) : Nat := (n - r.cnt.toNat + 7) / 8

/-- The reader after n bits (R112, R123). -/
def readerAfter (src : Source) (r : BitReader) (n : Nat) : BitReader :=
  if n ≤ r.cnt.toNat then { r with cnt := BitVec.ofNat 4 (r.cnt.toNat - n) }
  else
    { buf := src.mem.read (r.pos.toNat + bytesFor r n - 1)
      cnt := BitVec.ofNat 4 (r.cnt.toNat + 8 * bytesFor r n - n)
      pos := r.pos + BitVec.ofNat 32 (bytesFor r n) }

/-- The reader's next bits are those of the list. -/
abbrev streamHas (src : Source) (r : BitReader) (bits : List Bool) : Prop :=
  bits.length ≤ bitsLeft src r ∧ ∀ t, t < bits.length → streamBit src r t = bits.getD t false

/-- The big-endian value of the next n bytes (R53). -/
def bytesValue (src : Source) (r : BitReader) : Nat → Nat
  | 0 => 0
  | n + 1 => 256 * bytesValue src r n + (src.mem.read (r.pos.toNat + n)).toNat

/-! ## Codes as bits -/

/-- The n low bits of v, bit n-1 first (R54, R115). -/
def valueBits (v : Nat) : Nat → List Bool
  | 0 => []
  | n + 1 => v.testBit n :: valueBits v n

/-- The bits of one Rice value u with split parameter k (R201). -/
def riceBits (k u : Nat) : List Bool := List.replicate (u / 2 ^ k) false ++ true :: valueBits u k

/-- The bits of a symbol's Huffman code (R40, R172). -/
def huffBits (codes : List HuffCode) (sym : Nat) : List Bool :=
  valueBits (codes.getD sym ⟨0, 0⟩).code (codes.getD sym ⟨0, 0⟩).len

/-! ## The output stream (R114, R115) -/

/-- Every bit of the writer after n more: what is buffered, then the n low bits of v, as one number. -/
def writerValue (w : BitWriter) (v n : Nat) : Nat := w.buf.toNat * 2 ^ n + v % 2 ^ n

/-- How many bits that is. -/
def writerBits (w : BitWriter) (n : Nat) : Nat := w.cnt.toNat + n

/-- The byte those bits put at OUT_POS + j (R114): 8 bits at a time, from the most significant. -/
def writerByte (w : BitWriter) (v n j : Nat) : Byte :=
  BitVec.ofNat 8 (writerValue w v n / 2 ^ (writerBits w n - 8 * (j + 1)))

/-- The writer after them: the bits that do not fill a byte stay buffered (R114). -/
def writerAfter (w : BitWriter) (v n : Nat) : BitWriter :=
  { buf := BitVec.ofNat 8 (writerValue w v n % 2 ^ (writerBits w n % 8))
    cnt := BitVec.ofNat 4 (writerBits w n % 8)
    pos := w.pos + BitVec.ofNat 32 (writerBits w n / 8) }

/-! ## The order of visits (R183, R206) -/

/-- The COEF indices of a quadrant in raster order. -/
def quadrantCells (d : Quadrant) (C : Nat) : List Nat :=
  (List.range d.height).flatMap fun i => (List.range d.width).map fun j => d.cell C i j

/-- The COEF indices of the grid, quadrant by quadrant (R183). -/
def signOrder (R C : Nat) : List Nat :=
  (List.range 4).flatMap fun q => quadrantCells (quadrantRange R C (BitVec.ofNat 2 q)) C

/-! ## How a command ends (R220, R221) -/

/-- The common completion of an accepted command: BUSY 0, DONE 1, LASTOP its opcode. -/
def finished (op : BitVec 8) (s : State) : State := { s with busy := false, done := true, lastOp := op }

/-- A command ended by the error `e` with no other effect. -/
def failed (op : BitVec 8) (e : ErrCode) (s : State) : State :=
  { s with busy := false, done := true, lastOp := op, err := e }

/-! ## Tables of the rules -/

/-- The commands the grid check is made for (R74). -/
def isGridCommand : Instr → Bool
  | .clr | .htrans | .hinv | .digitize | .undigitize | .qtdec _ | .signs | .ricedec _ => true
  | .nop | .srst | .rdu8 | .rdu16 | .rdu32 | .wru8 | .wru16 | .wru32 | .getbit | .getbits _ | .bralign
  | .putbit | .putbits _ | .bwflush | .huffsym | .term | .riceval _ => false

/-- The errors a legal command may end with: the column "raised by" of R222. -/
def mayRaise : Instr → List ErrCode
  | .nop | .srst | .bralign => []
  | .clr | .digitize => [.size]
  | .rdu8 | .rdu16 | .rdu32 => [.truncated, .seq]
  | .wru8 | .wru16 | .wru32 => [.outFull, .seq]
  | .getbit | .getbits _ => [.truncated]
  | .putbit | .putbits _ | .bwflush => [.outFull]
  | .htrans | .hinv | .undigitize => [.range, .size]
  | .huffsym | .term | .riceval _ => [.truncated, .format]
  | .qtdec _ | .ricedec _ => [.truncated, .format, .size]
  | .signs => [.truncated, .range, .size]

/-- The commands that write RESULT when they succeed (R31). -/
def writesResult : Instr → Bool
  | .rdu8 | .rdu16 | .rdu32 | .getbit | .getbits _ | .huffsym | .riceval _ | .srst => true
  | .nop | .clr | .wru8 | .wru16 | .wru32 | .bralign | .putbit | .putbits _ | .bwflush | .htrans | .hinv
  | .digitize | .undigitize | .qtdec _ | .term | .signs | .ricedec _ => false

/-- What a command may write besides STATUS and RESULT, on success or error (R51, R223). -/
def mayWrite : Instr → Touches
  | .nop => {}
  | .srst => { reader := true, writer := true, ricek := true }
  | .clr | .htrans | .hinv | .digitize | .undigitize => { grid := true }
  | .rdu8 | .rdu16 | .rdu32 | .getbit | .getbits _ | .bralign | .huffsym | .term | .riceval _ =>
    { reader := true }
  | .wru8 | .wru16 | .wru32 | .putbit | .putbits _ | .bwflush => { writer := true }
  | .qtdec _ | .signs => { reader := true, grid := true }
  | .ricedec _ => { reader := true, grid := true, ricek := true }

/-- The opcodes R72 assigns. -/
def assignedOps : List Nat :=
  [0x00, 0x01, 0x02, 0x10, 0x11, 0x12, 0x14, 0x15, 0x16, 0x20, 0x21, 0x22, 0x24, 0x25, 0x26, 0x30, 0x31,
    0x32, 0x33, 0x40, 0x41, 0x42, 0x43, 0x50, 0x51]

/-- R73, case by case, on the word as a number: OP = w mod 256, N = w / 2^8 mod 32, Q = w / 2^13 mod 4,
RSV = w / 2^15. -/
abbrev breaksR73 (w : Nat) : Prop :=
  w % 256 ∉ assignedOps ∨ w / 2 ^ 15 ≠ 0 ∨
  (w / 2 ^ 8 % 32 ≠ 0 ∧ w % 256 ∉ [0x21, 0x25, 0x50]) ∨
  (24 < w / 2 ^ 8 % 32 ∧ w % 256 ∈ [0x21, 0x25]) ∨
  (15 < w / 2 ^ 8 % 32 ∧ w % 256 = 0x50) ∨
  (w / 2 ^ 13 % 4 ≠ 0 ∧ w % 256 ∉ [0x41, 0x51])

/-! ## The roundings and the inverse blocks of the transform, the constants of a level as arguments -/

/-- `RndS(v, p, -(2p))` (R144). -/
def sumRounded (p v : Int) : Int := (if 0 ≤ v then v + p else v + p - 1) / (2 * p) * (2 * p)

/-- `RndD(v, p, -(2p))` (R144). -/
def diffRounded (p v : Int) : Int := (if 0 ≤ v then v + p else v) / (2 * p) * (2 * p)

/-- `RndI(v, p, p - 1, -(2p))` (R144). -/
def reRounded (p v : Int) : Int := (v + if 0 ≤ v then p else p - 1) / (2 * p) * (2 * p)

/-- The two words of a leftover column or row from their sum h and difference d, with bit0 = b and division by q
(R155, R156): the first word, then the second. -/
def inverseTwo (b q h d : Int) : Int × Int :=
  let d := reRounded b d
  let m := d / (2 * b) % 2 * (2 * b)
  let h := if 0 ≤ h then h - m else h + m
  ((h - d) / q, (h + d) / q)

/-- The four words of a full block from h0 = h, hx = x, hy = y and the re-rounded hc = c, with bit0 = b and division
by q (R154), in raster order. -/
def inverseFour (b q h x y c : Int) : Int × Int × Int × Int :=
  let x := reRounded b x
  let y := reRounded b y
  let l := c / b % 2 * b
  let x := if 0 ≤ x then x - l else x + l
  let y := if 0 ≤ y then y - l else y + l
  let m := (c / (2 * b) + x / (2 * b) + y / (2 * b)) % 2 * (2 * b)
  let h := if 0 ≤ h then h + l - m else h + if l = 0 then m else l - m
  ((h - x - y + c) / q, (h - x + y - c) / q, (h + x - y - c) / q, (h + x + y + c) / q)

/-! ## A bit-plane as its encoder writes it (43_huffman_quadtree.md, section 6) -/

/-- Some bit of the plane is set in the block of 2^m by 2^m cells at block position (i, j), inside an h by w
quadrant. -/
def blockAny (h w : Nat) (b : Nat → Nat → Bool) (m i j : Nat) : Bool :=
  (List.range (2 ^ m)).any fun x => (List.range (2 ^ m)).any fun y =>
    decide (i * 2 ^ m + x < h) && decide (j * 2 ^ m + y < w) && b (i * 2 ^ m + x) (j * 2 ^ m + y)

/-- The code of the block of 2^(m+1) by 2^(m+1) cells at block position (i, j) (R176). -/
def nodeCode (h w : Nat) (b : Nat → Nat → Bool) (m i j : Nat) : Nat :=
  8 * (blockAny h w b m (2 * i) (2 * j)).toNat + 4 * (blockAny h w b m (2 * i) (2 * j + 1)).toNat +
    2 * (blockAny h w b m (2 * i + 1) (2 * j)).toNat + (blockAny h w b m (2 * i + 1) (2 * j + 1)).toNat

/-- The codes of one level below the root, `idx` positions in reverse raster order (R178). -/
def levelBits (codes : List HuffCode) (h w : Nat) (b : Nat → Nat → Bool) (m width : Nat) : Nat → List Bool
  | 0 => []
  | idx + 1 =>
    (if blockAny h w b (m + 1) (idx / width) (idx % width) then
      huffBits codes (nodeCode h w b m (idx / width) (idx % width)) else []) ++
    levelBits codes h w b m width idx

/-- The levels below the root, the coarsest first. -/
def levelsBits (codes : List HuffCode) (h w : Nat) (b : Nat → Nat → Bool) : Nat → List Bool
  | 0 => []
  | m + 1 =>
    levelBits codes h w b m (ceilShift w (m + 1)) (ceilShift h (m + 1) * ceilShift w (m + 1)) ++
    levelsBits codes h w b m

/-- The bits of a quadtree-coded plane after its flag (R178, R181). -/
def planeBits (codes : List HuffCode) (h w : Nat) (b : Nat → Nat → Bool) : List Bool :=
  huffBits codes (nodeCode h w b (codeLevels h w - 1) 0 0) ++ levelsBits codes h w b (codeLevels h w - 1)

/-- The bits of a plane's flag, 1s for a quadtree plane and 0s for a direct one: four of them, or one (R177). -/
def flagBits (wide quadtree : Bool) : List Bool := List.replicate (if wide then 4 else 1) quadtree

/-- The bits of a direct plane after its flag: the nybbles in forward raster order (R179). -/
def directBits (h w : Nat) (b : Nat → Nat → Bool) : List Bool :=
  (List.range (ceilShift h 1)).flatMap fun i =>
    (List.range (ceilShift w 1)).flatMap fun j => valueBits (nodeCode h w b 0 i j) 4

/-- The planes of a quadrant of magnitudes, the highest of `nbp` first, each in the form `quadtree` gives it: its
flag and its codes (R177, R178, R179, R181). -/
def planesBits (codes : List HuffCode) (wide : Bool) (quadtree : Nat → Bool) (h w : Nat)
    (mag : Nat → Nat → Nat) : Nat → List Bool
  | 0 => []
  | p + 1 =>
    flagBits wide (quadtree p) ++
    ((if quadtree p then planeBits codes h w fun i j => (mag i j).testBit p
      else directBits h w fun i j => (mag i j).testBit p) ++
    planesBits codes wide quadtree h w mag p)

/-- How many codes all the levels of an h by w quadrant can hold (R175). -/
def planeCodes (h w : Nat) : Nat :=
  ((List.range (codeLevels h w)).map fun m => ceilShift h (m + 1) * ceilShift w (m + 1)).sum

/-! ## Groups of bits, one after another (R128) -/

/-- `PutBits` of each group in turn. -/
def writeGroups (room : Nat) : List (Nat × Word) → Sink → Except ErrCode Sink
  | [], k => .ok k
  | g :: gs, k => do
    let k ← putBits room g.2 g.1 k
    writeGroups room gs k

/-- `GetBits` of each width in turn. -/
def readGroups (src : Source) : List Nat → BitReader → Except ErrCode (List Nat × BitReader)
  | [], r => .ok ([], r)
  | n :: ns, r => do
    let p ← getBits src n r
    let q ← readGroups src ns p.2
    .ok (p.1 :: q.1, q.2)

end Sys2Proof.Machine
end

