-- ==== Sys2Proof/Certificates/Slice0/Obligations.lean ====
section
/-! DEFINITION. The statements about HTDE, for the provers. Each docstring names the rule it formalises. -/

open Sys2Proof Sys2Proof.Machine

/-! ## Encoding (30_encoding.md) -/

/-- R70, R72: decoding a legal command's word gives the command back, at every N and Q. -/
def Obligations.DecodeOfEncode : Prop :=
  ∀ i : Instr, i.wellFormed = true → decode (encode i) = .ok i

/-- R72: a word that decodes is a legal command's own word, so no two words decode alike and no bit is ignored. -/
def Obligations.EncodeOfDecode : Prop :=
  ∀ (w : Word) (i : Instr), decode w = .ok i → i.wellFormed = true ∧ encode i = w

/-- R72, R75: the words the spec writes out, one from each family. -/
def Obligations.SpecWordsDecode : Prop :=
  decode 0x00000001#32 = .ok .srst ∧ decode 0x00000521#32 = .ok (.getbits 5) ∧
  decode 0x00000015#32 = .ok .wru16 ∧ decode 0x00000031#32 = .ok .hinv ∧
  decode 0x00004041#32 = .ok (.qtdec 2) ∧ decode 0x00000350#32 = .ok (.riceval 3)

/-- R73, R224: a word is illegal exactly when it breaks R73, and then it changes STATUS only. -/
def Obligations.IllegalWordsChangeStatusOnly : Prop :=
  ∀ w : Word,
    ((∃ e, decode w = .error e) ↔ breaksR73 w.toNat) ∧
    ∀ s : State, s.err = .none → breaksR73 w.toNat →
      onCmdWrite w s = .next (failed (fieldOp w) .illegal s)

/-! ## Steps, acceptance and completion (60_exceptions.md, 70_reset_and_hazards.md) -/

/-- R252, R237: a step whose next host move writes a legal word to CMD is exec of its command, the move taken off
the list (`host` is the model's own field, log entry 3); with no move the step changes nothing. -/
def Obligations.StepRunsDecodedCommand : Prop :=
  (∀ (s : State) (w : Word) (i : Instr) (rest : List HostMove),
    s.busy = false → s.host = cmdMove w :: rest → decode w = .ok i →
      step s = exec i { s with host := rest }) ∧
  ∀ s : State, s.host = [] → step s = .next s

/-- R220, R228: while ERR is not 0 a step ignores every word but 0x00000001, which clears ERR. -/
def Obligations.LatchedErrorIgnoresCommands : Prop :=
  ∀ (s : State) (w : Word) (rest : List HostMove),
    s.busy = false → s.host = cmdMove w :: rest → s.err ≠ .none →
      (w ≠ 0x00000001#32 → step s = .next { s with host := rest }) ∧
      (w = 0x00000001#32 → ∃ t, step s = .next t ∧ t.err = .none ∧ t.done = true ∧ t.lastOp = 0x01#8)

/-- R221, R253: every accepted command completes, with BUSY 0, DONE 1 and LASTOP its opcode; every other is
ignored. -/
def Obligations.EveryCommandCompletes : Prop :=
  ∀ (i : Instr) (s : State),
    (s.err = .none ∨ i = .srst →
      ∃ t, exec i s = .next t ∧ t.busy = false ∧ t.done = true ∧ t.lastOp = i.opcode) ∧
    (s.err ≠ .none → i ≠ .srst → exec i s = .next s)

/-- R222: a legal command ends with no error or with one its row of the error table allows. -/
def Obligations.ErrorsAreThoseOfTheTable : Prop :=
  ∀ (i : Instr) (s t : State), i.wellFormed = true → s.err = .none → exec i s = .next t →
    t.err = .none ∨ t.err ∈ mayRaise i

/-- R74: a grid command on a grid that does not fit raises SIZE before any other effect. -/
def Obligations.GridCheckRaisesSizeFirst : Prop :=
  ∀ (i : Instr) (s : State), isGridCommand i = true → s.err = .none →
    (gridRows s = 0 ∨ gridCols s = 0 ∨ s.params.coefWords < gridRows s * gridCols s) →
      exec i s = .next (failed i.opcode .size s)

/-- R55: a byte-level access with a partial byte raises SEQ, and BRALIGN and BWFLUSH empty the buffers. -/
def Obligations.ByteAccessNeedsEmptyBuffer : Prop :=
  ∀ s : State, s.err = .none →
    (∀ i ∈ [Instr.rdu8, .rdu16, .rdu32], s.rd.cnt ≠ 0 → exec i s = .next (failed i.opcode .seq s)) ∧
    (∀ i ∈ [Instr.wru8, .wru16, .wru32], s.wr.cnt ≠ 0 → exec i s = .next (failed i.opcode .seq s)) ∧
    (∃ t, exec .bralign s = .next t ∧ t.rd.cnt = 0) ∧
    (s.wr.cnt.toNat ≤ 7 → ∀ t, exec .bwflush s = .next t → t.err = .none → t.wr.cnt = 0)

/-- R180, R225: QTDEC on a fitting grid with a plane count above 31 raises FORMAT before any other effect. -/
def Obligations.PlaneCountAbove31RaisesFormat : Prop :=
  ∀ (q : BitVec 2) (s : State), s.err = .none → gridFits s → 31 < planeCount s q →
    exec (.qtdec q) s = .next (failed 0x41#8 .format s)

/-- R223: an error raised before a command has any other effect changes STATUS only. -/
def Obligations.EarlyErrorsChangeStatusOnly : Prop :=
  ∀ (i : Instr) (s t : State), s.err = .none → exec i s = .next t →
    (t.err = .size ∨ t.err = .seq ∨ t.err = .illegal) → t = failed i.opcode t.err s

/-- R223, R30, R31, R51: the frame of every command, on success and on error. No command changes the parameters,
CFG, DIM, SCALE, NBP, ARG, IN_LEN or IN; each leaves alone what its rule does not write; a grid command leaves every
word from R*C on, and a write every OUT byte below the OUT_POS it started at. A command that does not write RESULT keeps
it when it succeeds, is ignored, or is turned away with SIZE, SEQ or ILLEGAL; after another error RESULT is unspecified
(R31). The premise takes OUT_BYTES below 2^32 (log entry 2). -/
def Obligations.CommandFrame : Prop :=
  ∀ (i : Instr) (s t : State), paramsLegal s.params = true → exec i s = .next t →
    (t.params = s.params ∧ t.flagW = s.flagW ∧ t.ie = s.ie ∧ t.rows = s.rows ∧ t.cols = s.cols ∧
      t.scale = s.scale ∧ t.nbp0 = s.nbp0 ∧ t.nbp1 = s.nbp1 ∧ t.nbp2 = s.nbp2 ∧ t.nbp3 = s.nbp3 ∧
      t.arg = s.arg ∧ t.inLen = s.inLen ∧ t.inMem = s.inMem ∧ t.host = s.host ∧
      t.hostData = s.hostData) ∧
    (writesResult i = false → (t.err = s.err ∨ t.err = .size ∨ t.err = .seq ∨ t.err = .illegal) →
      t.result = s.result) ∧
    ((mayWrite i).reader = false → t.rd = s.rd) ∧
    ((mayWrite i).writer = false → t.wr = s.wr ∧ t.outMem = s.outMem) ∧
    ((mayWrite i).grid = false → t.coef = s.coef) ∧
    ((mayWrite i).ricek = false → t.ricek = s.ricek) ∧
    (∀ a, gridRows s * gridCols s ≤ a → t.coef.read a = s.coef.read a) ∧
    ∀ p, p < s.wr.pos.toNat → t.outMem.read p = s.outMem.read p

/-- R32, R33: on success no command but SRST moves a stream position back. -/
def Obligations.StreamPositionsOnlyGrow : Prop :=
  ∀ (i : Instr) (s t : State), paramsLegal s.params = true → i ≠ .srst → s.err = .none →
    exec i s = .next t → t.err = .none →
      s.rd.pos.toNat ≤ t.rd.pos.toNat ∧ s.wr.pos.toNat ≤ t.wr.pos.toNat

/-- R230: irq is raised at every completion when IE = 1, left by an ignored command, cleared by writing 1 to DONE
and masked by IE = 0. -/
def Obligations.InterruptFollowsDoneAndEnable : Prop :=
  ∀ s : State,
    (∀ i t, s.err = .none ∨ i = .srst → exec i s = .next t → irq t = s.ie) ∧
    (∀ i t, s.err ≠ .none → i ≠ .srst → exec i s = .next t → irq t = irq s) ∧
    (∀ v, irq (writeStatus v s) = if v.getLsbD 1 then false else irq s) ∧
    (s.ie = false → irq s = false)

/-! ## Invariants -/

/-- R24, R29, R34, R35, R59: a step from a sound state gives a sound state. After an error BR_CNT and BW_CNT, like the
positions, are unspecified (R223), so what is sound bounds them only while ERR = 0 (log entry 5). That a sound state has
OUT_BYTES below 2^32 is the model's inference (log entry 2). -/
def Obligations.StepKeepsSound : Prop :=
  ∀ s t : State, s.Sound → step s = .next t → t.Sound

/-- R50, R59: from a sound state with nothing stored outside a memory, a step stores nothing outside one. -/
def Obligations.StepStaysInside : Prop :=
  ∀ s t : State, s.Sound → s.Inside → step s = .next t → t.Inside

/-- The state after reset is sound, with nothing stored outside a memory (the sizes are the model's choice, log
entry 2, and so are the contents, log entry 1). -/
def Obligations.ResetIsSound : Prop := State.reset.Sound ∧ State.reset.Inside

/-- R6: no step changes a parameter. -/
def Obligations.ParametersNeverChange : Prop :=
  ∀ s t : State, step s = .next t → t.params = s.params

/-! ## Control (40_control.md) -/

/-- R100: NOP does nothing but complete, and is ignored while ERR is not 0. -/
def Obligations.NopOnlyCompletes : Prop :=
  decode 0x00000000#32 = .ok .nop ∧
  ∀ s : State, exec .nop s = .next (if s.err = .none then finished 0x00#8 s else s)

/-- R101: SRST, in any state. -/
def Obligations.SrstResetsStreamAndError : Prop :=
  decode 0x00000001#32 = .ok .srst ∧
  ∀ s : State, exec .srst s = .next (finished 0x01#8
    { s with
      rd := ⟨0, 0, 0⟩
      wr := ⟨0, 0, 0⟩
      result := 0
      ricek := 0
      err := .none })

/-- R102: CLR makes words 0 to R*C-1 zero and no other; on a grid that does not fit it writes no word. -/
def Obligations.ClrZeroesTheGrid : Prop :=
  decode 0x00000002#32 = .ok .clr ∧
  ∀ s : State, s.err = .none → s.coef.wf = true →
    (gridFits s → ∃ c, exec .clr s = .next (finished 0x02#8 { s with coef := c }) ∧
      ∀ a, c.read a = if a < gridRows s * gridCols s then 0 else s.coef.read a) ∧
    (¬ gridFits s → exec .clr s = .next (failed 0x02#8 .size s))

/-! ## Byte and bit streams (41_bit_byte_io.md) -/

/-- R116, R117, R118: RDU8, RDU16 and RDU32 take 1, 2 and 4 bytes, the first most significant, into RESULT; SEQ is
checked first, and too few bytes raise TRUNCATED. -/
def Obligations.ByteReadsAreBigEndian : Prop :=
  ∀ (i : Instr) (n : Nat) (w : Word) (s : State),
    (i, n, w) ∈ [(Instr.rdu8, 1, 0x00000010#32), (.rdu16, 2, 0x00000011#32), (.rdu32, 4, 0x00000012#32)] →
    s.err = .none →
    decode w = .ok i ∧
    (s.rd.cnt ≠ 0 → exec i s = .next (failed i.opcode .seq s)) ∧
    (s.rd.cnt = 0 → s.rd.pos.toNat + n ≤ s.inLen.toNat →
      exec i s = .next (finished i.opcode
        { s with
          rd := { s.rd with pos := s.rd.pos + BitVec.ofNat 32 n }
          result := BitVec.ofNat 32 (bytesValue (source s) s.rd n) })) ∧
    (s.rd.cnt = 0 → s.inLen.toNat < s.rd.pos.toNat + n →
      ∃ t, exec i s = .next t ∧ t.err = .truncated)

/-- R119, R120, R121: WRU8, WRU16 and WRU32 write the low 1, 2 and 4 bytes of ARG at OUT_POS, the most significant
first, and no other byte; SEQ is checked first, and too little room raises OUTFULL. -/
def Obligations.ByteWritesAreBigEndian : Prop :=
  ∀ (i : Instr) (n : Nat) (w : Word) (s : State),
    (i, n, w) ∈ [(Instr.wru8, 1, 0x00000014#32), (.wru16, 2, 0x00000015#32), (.wru32, 4, 0x00000016#32)] →
    s.err = .none → paramsLegal s.params = true → s.outMem.wf = true →
    decode w = .ok i ∧
    (s.wr.cnt ≠ 0 → exec i s = .next (failed i.opcode .seq s)) ∧
    (s.wr.cnt = 0 → s.wr.pos.toNat + n ≤ s.params.outBytes →
      ∃ m, exec i s = .next (finished i.opcode
          { s with wr := { s.wr with pos := s.wr.pos + BitVec.ofNat 32 n }, outMem := m }) ∧
        ∀ p, m.read p =
          if s.wr.pos.toNat ≤ p ∧ p < s.wr.pos.toNat + n then
            s.arg.extractLsb' (8 * (n - 1 - (p - s.wr.pos.toNat))) 8
          else s.outMem.read p) ∧
    (s.wr.cnt = 0 → s.params.outBytes < s.wr.pos.toNat + n →
      ∃ t, exec i s = .next t ∧ t.err = .outFull)

/-- R122, R123: GETBIT and GETBITS n put the stream's next bits into RESULT, the first most significant, and move the
reader past them, taking a byte only when a bit of it is needed; too few bits raise TRUNCATED, n > 24 ILLEGAL. -/
def Obligations.BitReadsTakeTheNextBits : Prop :=
  ∀ (i : Instr) (n w : Nat) (s : State),
    ((i, n, w) = (.getbit, 1, 0x20) ∨ ∃ c : BitVec 5, (i, n, w) = (.getbits c, c.toNat, 0x21 + 256 * c.toNat)) →
    s.err = .none → s.rd.cnt.toNat ≤ 7 →
    (n ≤ 24 → decode (BitVec.ofNat 32 w) = .ok i) ∧
    (n ≤ 24 → n ≤ bitsLeft (source s) s.rd →
      exec i s = .next (finished i.opcode
        { s with
          rd := readerAfter (source s) s.rd n
          result := BitVec.ofNat 32 (streamValue (source s) s.rd 0 n) })) ∧
    (n ≤ 24 → bitsLeft (source s) s.rd < n → ∃ t, exec i s = .next t ∧ t.err = .truncated) ∧
    (24 < n → exec i s = .next (failed i.opcode .illegal s))

/-- BRALIGN makes BR_BUF and BR_CNT 0 and changes nothing else, as the pseudocode of R124 says. That BR_BUF becomes 0
also when BR_CNT is 0 already is the model's choice (log entry 14): a corner case of R124 says that BRALIGN has no
effect then. -/
def Obligations.BralignDropsThePartialByte : Prop :=
  decode 0x00000022#32 = .ok .bralign ∧
  ∀ s : State, s.err = .none →
    exec .bralign s = .next (finished 0x22#8 { s with rd := { s.rd with buf := 0, cnt := 0 } })

/-- R125, R126: PUTBIT and PUTBITS n append the low n bits of ARG, bit n-1 first, to the buffered bits; each full byte
goes to OUT at OUT_POS, the rest stays buffered, and no other byte changes; too little room raises OUTFULL, n > 24
ILLEGAL. -/
def Obligations.BitWritesAppendTheLowBits : Prop :=
  ∀ (i : Instr) (n w : Nat) (s : State),
    ((i, n, w) = (.putbit, 1, 0x24) ∨ ∃ c : BitVec 5, (i, n, w) = (.putbits c, c.toNat, 0x25 + 256 * c.toNat)) →
    s.err = .none → s.Sound →
    (n ≤ 24 → decode (BitVec.ofNat 32 w) = .ok i) ∧
    (n ≤ 24 → s.wr.pos.toNat + writerBits s.wr n / 8 ≤ s.params.outBytes →
      ∃ m, exec i s = .next (finished i.opcode
          { s with wr := writerAfter s.wr s.arg.toNat n, outMem := m }) ∧
        ∀ p, m.read p =
          if s.wr.pos.toNat ≤ p ∧ p < s.wr.pos.toNat + writerBits s.wr n / 8 then
            writerByte s.wr s.arg.toNat n (p - s.wr.pos.toNat)
          else s.outMem.read p) ∧
    (n ≤ 24 → s.params.outBytes < s.wr.pos.toNat + writerBits s.wr n / 8 →
      ∃ t, exec i s = .next t ∧ t.err = .outFull) ∧
    (24 < n → exec i s = .next (failed i.opcode .illegal s))

/-- R127: BWFLUSH with no bit buffered writes nothing; else it writes one byte, the buffered bits above zeros. -/
def Obligations.BwflushPadsWithZeros : Prop :=
  decode 0x00000026#32 = .ok .bwflush ∧
  ∀ s : State, s.err = .none → s.wr.cnt.toNat ≤ 7 →
    (s.wr.cnt = 0 → exec .bwflush s = .next (finished 0x26#8 s)) ∧
    (s.wr.cnt ≠ 0 → s.wr.pos.toNat < s.params.outBytes →
      exec .bwflush s = .next (finished 0x26#8
        { s with
          wr := ⟨0, 0, s.wr.pos + 1⟩
          outMem := s.outMem.write s.wr.pos.toNat (s.wr.buf <<< (8 - s.wr.cnt.toNat)) })) ∧
    (s.wr.cnt ≠ 0 → s.params.outBytes ≤ s.wr.pos.toNat →
      ∃ t, exec .bwflush s = .next t ∧ t.err = .outFull)

/-- R128: groups of bits written one after another and flushed are read back by a fresh reader over the bytes
written, with fewer than 8 bits left, all 0. -/
def Obligations.ReaderMirrorsWriter : Prop :=
  ∀ (room : Nat) (gs : List (Nat × Word)) (m : Memory 8) (k k' : Sink),
    room < 2 ^ 32 → m.wf = true → (∀ g ∈ gs, g.1 ≤ 24) →
    writeGroups room gs ⟨⟨0, 0, 0⟩, m⟩ = .ok k → flushWriter room k = .ok k' →
      ∃ r, readGroups ⟨k'.wr.pos, k'.mem⟩ (gs.map fun g => g.1) ⟨0, 0, 0⟩ =
          .ok (gs.map fun g => g.2.toNat % 2 ^ g.1, r) ∧
        bitsLeft ⟨k'.wr.pos, k'.mem⟩ r < 8 ∧
        ∀ t, t < bitsLeft ⟨k'.wr.pos, k'.mem⟩ r → streamBit ⟨k'.wr.pos, k'.mem⟩ r t = false

/-! ## Transform and quantization (42_transform.md) -/

/-- R166: HTRANS completes on samples within the bound, with the transform's words. -/
def Obligations.HtransCompletesWithinBound : Prop :=
  ∀ s : State, s.err = .none → gridFits s → s.coef.wf = true →
    (∀ a, a < gridRows s * gridCols s →
      ((coefInt s.coef a).natAbs : Int) * 2 ^ (levelCount (gridRows s) (gridCols s) + 1) +
        levelCount (gridRows s) (gridCols s) * 2 ^ levelCount (gridRows s) (gridCols s) ≤ 2147483647) →
    ∃ c, forwardTransform (gridRows s) (gridCols s) s.coef = .ok c ∧
      exec .htrans s = .next (finished 0x30#8 { s with coef := c })

/-- R144, R145, R146, R151: HTRANS of a 2×2 grid, word by word, with the constants of level 0 written out. -/
def Obligations.HtransTwoByTwo : Prop :=
  ∀ (s : State) (A B C D : Int), s.err = .none → s.coef.wf = true → s.rows = 2 → s.cols = 2 →
    4 ≤ s.params.coefWords →
    coefInt s.coef 0 = A → coefInt s.coef 1 = B → coefInt s.coef 2 = C → coefInt s.coef 3 = D →
    A.natAbs ≤ 536870911 → B.natAbs ≤ 536870911 → C.natAbs ≤ 536870911 → D.natAbs ≤ 536870911 →
    ∃ c, exec .htrans s = .next (finished 0x30#8 { s with coef := c }) ∧
      coefInt c 0 = (if 0 ≤ D + C + B + A then D + C + B + A + 2 else D + C + B + A + 1) / 4 * 4 ∧
      coefInt c 1 = (if 0 ≤ D - C + B - A then D - C + B - A + 1 else D - C + B - A) / 2 * 2 ∧
      coefInt c 2 = (if 0 ≤ D + C - B - A then D + C - B - A + 1 else D + C - B - A) / 2 * 2 ∧
      coefInt c 3 = D - C - B + A ∧
      ∀ a, 4 ≤ a → c.read a = s.coef.read a

/-- R152, R153, R154, R159: HINV of a 2×2 grid, word by word, with the constants of level 0 written out. -/
def Obligations.HinvTwoByTwo : Prop :=
  ∀ (s : State) (v0 v1 v2 v3 h0 hx hy hx' hy' h0' lb0 lb1 : Int),
    s.err = .none → s.coef.wf = true → s.rows = 2 → s.cols = 2 → 4 ≤ s.params.coefWords →
    coefInt s.coef 0 = v0 → coefInt s.coef 1 = v1 → coefInt s.coef 2 = v2 → coefInt s.coef 3 = v3 →
    v0.natAbs ≤ 536870911 → v1.natAbs ≤ 536870911 → v2.natAbs ≤ 536870911 → v3.natAbs ≤ 536870911 →
    h0 = (v0 + if 0 ≤ v0 then 2 else 1) / 4 * 4 →
    hx = (v2 + if 0 ≤ v2 then 1 else 0) / 2 * 2 → hy = (v1 + if 0 ≤ v1 then 1 else 0) / 2 * 2 →
    lb0 = v3 % 2 →
    hx' = (if 0 ≤ hx then hx - lb0 else hx + lb0) → hy' = (if 0 ≤ hy then hy - lb0 else hy + lb0) →
    lb1 = (v3 / 2 % 2 + hx' / 2 % 2 + hy' / 2 % 2) % 2 * 2 →
    h0' = (if 0 ≤ h0 then h0 + lb0 - lb1 else h0 + if lb0 = 0 then lb1 else lb0 - lb1) →
    ∃ c, exec .hinv s = .next (finished 0x31#8 { s with coef := c }) ∧
      coefInt c 0 = (h0' - hx' - hy' + v3) / 4 ∧ coefInt c 1 = (h0' - hx' + hy' - v3) / 4 ∧
      coefInt c 2 = (h0' + hx' - hy' - v3) / 4 ∧ coefInt c 3 = (h0' + hx' + hy' + v3) / 4 ∧
      ∀ a, 4 ≤ a → c.read a = s.coef.read a

/-- R165: on every grid HTRANS completes on, HINV restores every word; DIGITIZE and UNDIGITIZE with SCALE ≤ 1 change
nothing. -/
def Obligations.HinvRestoresWhatHtransMade : Prop :=
  (∀ s t : State, s.err = .none → gridFits s → s.coef.wf = true → exec .htrans s = .next t →
    t.err = .none → exec .hinv t = .next (finished 0x31#8 { t with coef := s.coef })) ∧
  ∀ s : State, s.err = .none → gridFits s → s.scale.toNat ≤ 1 →
    exec .digitize s = .next (finished 0x32#8 s) ∧ exec .undigitize s = .next (finished 0x33#8 s)

/-- R151: a grid of zeros stays all zero under HTRANS; and HINV keeps it so too (derived from R152 to R158). -/
def Obligations.ZeroGridStaysZero : Prop :=
  ∀ s : State, s.err = .none → gridFits s → s.coef.wf = true →
    (∀ a, a < gridRows s * gridCols s → s.coef.read a = 0) →
    exec .htrans s = .next (finished 0x30#8 s) ∧ exec .hinv s = .next (finished 0x31#8 s)

/-- R151, R159: HTRANS and HINV leave a 1×1 grid unchanged. -/
def Obligations.OneByOneGridIsUnchanged : Prop :=
  ∀ s : State, s.err = .none → s.rows = 1 → s.cols = 1 → 1 ≤ s.params.coefWords →
    exec .htrans s = .next (finished 0x30#8 s) ∧ exec .hinv s = .next (finished 0x31#8 s)

/-- R164: after HTRANS with L ≥ 1 levels a(0, 0) is a multiple of 2^(L+1). -/
def Obligations.SumWordIsAMultiple : Prop :=
  ∀ s t : State, s.err = .none → gridFits s → s.coef.wf = true → exec .htrans s = .next t →
    t.err = .none → 1 ≤ levelCount (gridRows s) (gridCols s) →
      (2 : Int) ^ (levelCount (gridRows s) (gridCols s) + 1) ∣ coefInt t.coef 0

/-- R160: DIGITIZE with SCALE ≤ 1 changes nothing; with SCALE s ≥ 2 it replaces every word v of the grid by
tdiv(v ± d, s), d = (s + 1) div 2 - 1, and never raises RANGE; a grid that does not fit raises SIZE. -/
def Obligations.DigitizeQuantizesEveryWord : Prop :=
  decode 0x00000032#32 = .ok .digitize ∧
  ∀ s : State, s.err = .none → s.coef.wf = true →
    (¬ gridFits s → exec .digitize s = .next (failed 0x32#8 .size s)) ∧
    (gridFits s → s.scale.toNat ≤ 1 → exec .digitize s = .next (finished 0x32#8 s)) ∧
    (gridFits s → 2 ≤ s.scale.toNat →
      ∃ c, exec .digitize s = .next (finished 0x32#8 { s with coef := c }) ∧
        (∀ a, a < gridRows s * gridCols s →
          coefInt c a =
            if 0 < coefInt s.coef a then
              Int.tdiv (coefInt s.coef a + (((s.scale.toNat + 1) / 2 - 1 : Nat) : Int)) s.scale.toNat
            else
              Int.tdiv (coefInt s.coef a - (((s.scale.toNat + 1) / 2 - 1 : Nat) : Int)) s.scale.toNat) ∧
        ∀ a, gridRows s * gridCols s ≤ a → c.read a = s.coef.read a)

/-- R161: UNDIGITIZE with SCALE ≤ 1 changes nothing; else it multiplies every word of the grid by SCALE, and raises
RANGE when a product leaves 32 bits; a grid that does not fit raises SIZE. -/
def Obligations.UndigitizeScalesEveryWord : Prop :=
  decode 0x00000033#32 = .ok .undigitize ∧
  ∀ s : State, s.err = .none → s.coef.wf = true →
    (¬ gridFits s → exec .undigitize s = .next (failed 0x33#8 .size s)) ∧
    (gridFits s → s.scale.toNat ≤ 1 → exec .undigitize s = .next (finished 0x33#8 s)) ∧
    (gridFits s → 2 ≤ s.scale.toNat →
      (∀ a, a < gridRows s * gridCols s →
        -2147483648 ≤ coefInt s.coef a * s.scale.toNat ∧
          coefInt s.coef a * s.scale.toNat ≤ 2147483647) →
      ∃ c, exec .undigitize s = .next (finished 0x33#8 { s with coef := c }) ∧
        (∀ a, a < gridRows s * gridCols s → coefInt c a = coefInt s.coef a * s.scale.toNat) ∧
        ∀ a, gridRows s * gridCols s ≤ a → c.read a = s.coef.read a) ∧
    (gridFits s → 2 ≤ s.scale.toNat →
      (∃ a, a < gridRows s * gridCols s ∧
        (coefInt s.coef a * s.scale.toNat < -2147483648 ∨
          2147483647 < coefInt s.coef a * s.scale.toNat)) →
      ∃ t, exec .undigitize s = .next t ∧ t.err = .range)

/-- R162: every cell of the grid lies in exactly one quadrant's row and column ranges, whose sizes are those of the
table. -/
def Obligations.QuadrantsPartitionTheGrid : Prop :=
  ∀ R C : Nat,
    (∀ i j, i < R → j < C → ∃! q : BitVec 2,
      (quadrantRange R C q).r0 ≤ i ∧ i < (quadrantRange R C q).r1 ∧
        (quadrantRange R C q).c0 ≤ j ∧ j < (quadrantRange R C q).c1) ∧
    (quadrantRange R C 0 = ⟨0, (R + 1) / 2, 0, (C + 1) / 2⟩ ∧
      quadrantRange R C 1 = ⟨0, (R + 1) / 2, (C + 1) / 2, C⟩ ∧
      quadrantRange R C 2 = ⟨(R + 1) / 2, R, 0, (C + 1) / 2⟩ ∧
      quadrantRange R C 3 = ⟨(R + 1) / 2, R, (C + 1) / 2, C⟩) ∧
    ∀ q : BitVec 2,
      (quadrantRange R C q).height = (if q = 0 ∨ q = 1 then (R + 1) / 2 else R / 2) ∧
      (quadrantRange R C q).width = (if q = 0 ∨ q = 2 then (C + 1) / 2 else C / 2)

/-! ## Huffman and quadtree (43_huffman_quadtree.md) -/

/-- R170, R172, R173, R174: HUFFSYM on a symbol's code of a named table puts the symbol into RESULT and reads exactly
the code's bits. -/
def Obligations.HuffsymDecodesEachCode : Prop :=
  ∀ (s : State) (sym : Nat), s.err = .none → s.rd.cnt.toNat ≤ 7 →
    (s.params.huffTable = .docDefault ∨ s.params.huffTable = .hcompress) → sym < 16 →
    streamHas (source s) s.rd (huffBits (huffCodes s.params.huffTable) sym) →
      exec .huffsym s = .next (finished 0x40#8
        { s with
          rd := readerAfter (source s) s.rd (huffBits (huffCodes s.params.huffTable) sym).length
          result := BitVec.ofNat 32 sym })

/-- R187: with a named table HUFFSYM never raises FORMAT, and with 6 bits left it completes with a symbol. -/
def Obligations.NamedTablesNeverRaiseFormat : Prop :=
  ∀ s : State, s.err = .none → s.rd.cnt.toNat ≤ 7 →
    (s.params.huffTable = .docDefault ∨ s.params.huffTable = .hcompress) →
    (∀ t, exec .huffsym s = .next t → t.err ≠ .format) ∧
    (6 ≤ bitsLeft (source s) s.rd →
      ∃ sym n, sym < 16 ∧ 3 ≤ n ∧ n ≤ 6 ∧ exec .huffsym s = .next (finished 0x40#8
        { s with rd := readerAfter (source s) s.rd n, result := BitVec.ofNat 32 sym }))

/-- R180: QTDEC with no planes, or of an empty quadrant, reads and writes nothing. -/
def Obligations.QtdecOfNothingReadsNothing : Prop :=
  ∀ (q : BitVec 2) (s : State), s.err = .none → gridFits s → planeCount s q ≤ 31 →
    (planeCount s q = 0 ∨ (quadrantRange (gridRows s) (gridCols s) q).height = 0 ∨
      (quadrantRange (gridRows s) (gridCols s) q).width = 0) →
    exec (.qtdec q) s = .next (finished 0x41#8 s)

/-- R178, R179, R180: with the one-bit flag, a named table and bits enough for the longest planes, QTDEC completes; it
changes only words of its quadrant, and there only sets bits below the plane count. -/
def Obligations.QtdecSetsPlaneBitsOnly : Prop :=
  ∀ (q : BitVec 2) (s : State), s.err = .none → gridFits s → s.coef.wf = true → s.flagW = false →
    s.rd.cnt.toNat ≤ 7 → planeCount s q ≤ 31 →
    (s.params.huffTable = .docDefault ∨ s.params.huffTable = .hcompress) →
    planeCount s q * (1 + 6 * planeCodes (quadrantRange (gridRows s) (gridCols s) q).height
      (quadrantRange (gridRows s) (gridCols s) q).width) ≤ bitsLeft (source s) s.rd →
    ∃ r c, exec (.qtdec q) s = .next (finished 0x41#8 { s with rd := r, coef := c }) ∧
      (∀ a, a ∉ quadrantCells (quadrantRange (gridRows s) (gridCols s) q) (gridCols s) →
        c.read a = s.coef.read a) ∧
      (∀ a b, planeCount s q ≤ b → (c.read a).getLsbD b = (s.coef.read a).getLsbD b) ∧
      ∀ a b, (s.coef.read a).getLsbD b = true → (c.read a).getLsbD b = true

/-- R176, R177, R180: one plane of a quadrant of at most 2×2 cells, in either flag width and either form: bit
3 - 2i - j of the code is OR-ed into bit 0 of cell (i, j); a 4-bit flag other than 0 or 15 raises FORMAT. -/
def Obligations.QtdecOfOneSmallPlane : Prop :=
  ∀ (q : BitVec 2) (s : State) (d : Quadrant) (code : Nat) (quadtree : Bool) (flag codeBits : List Bool),
    s.err = .none → gridFits s → s.coef.wf = true → s.rd.cnt.toNat ≤ 7 → planeCount s q = 1 →
    (s.params.huffTable = .docDefault ∨ s.params.huffTable = .hcompress) →
    quadrantRange (gridRows s) (gridCols s) q = d →
    (d.height = 1 ∨ d.height = 2) → (d.width = 1 ∨ d.width = 2) → code < 16 →
    flag = (if s.flagW then [quadtree, quadtree, quadtree, quadtree] else [quadtree]) →
    codeBits = (if quadtree then huffBits (huffCodes s.params.huffTable) code else valueBits code 4) →
    (streamHas (source s) s.rd (flag ++ codeBits) →
      ∃ c, exec (.qtdec q) s = .next (finished 0x41#8
          { s with rd := readerAfter (source s) s.rd (flag ++ codeBits).length, coef := c }) ∧
        (∀ i j, i < d.height → j < d.width →
          c.read (d.cell (gridCols s) i j) = s.coef.read (d.cell (gridCols s) i j) |||
            (if code.testBit (3 - 2 * i - j) then 1 else 0)) ∧
        ∀ a, a ∉ quadrantCells d (gridCols s) → c.read a = s.coef.read a) ∧
    (s.flagW = true → 4 ≤ bitsLeft (source s) s.rd → streamValue (source s) s.rd 0 4 ≠ 0 →
      streamValue (source s) s.rd 0 4 ≠ 15 →
      ∃ t, exec (.qtdec q) s = .next t ∧ t.err = .format)

/-- R175 to R181, R188: QTDEC over the planes of any magnitudes, each plane in the quadtree form or the direct form,
with either flag width, ORs exactly those magnitudes into the quadrant's words, reads exactly those bits, and changes no
other word. -/
def Obligations.QtdecDecodesEncodedPlanes : Prop :=
  ∀ (q : BitVec 2) (s : State) (d : Quadrant) (mag : Nat → Nat → Nat) (quadtree : Nat → Bool),
    s.err = .none → gridFits s → s.coef.wf = true → s.rd.cnt.toNat ≤ 7 →
    planeCount s q ≤ 31 → (s.params.huffTable = .docDefault ∨ s.params.huffTable = .hcompress) →
    quadrantRange (gridRows s) (gridCols s) q = d → 1 ≤ d.height → 1 ≤ d.width →
    (∀ i j, mag i j < 2 ^ planeCount s q) →
    streamHas (source s) s.rd
      (planesBits (huffCodes s.params.huffTable) s.flagW quadtree d.height d.width mag (planeCount s q)) →
    ∃ c, exec (.qtdec q) s = .next (finished 0x41#8
        { s with
          rd := readerAfter (source s) s.rd
            (planesBits (huffCodes s.params.huffTable) s.flagW quadtree d.height d.width mag
              (planeCount s q)).length
          coef := c }) ∧
      (∀ i j, i < d.height → j < d.width →
        c.read (d.cell (gridCols s) i j) =
          s.coef.read (d.cell (gridCols s) i j) ||| BitVec.ofNat 32 (mag i j)) ∧
      ∀ a, a ∉ quadrantCells d (gridCols s) → c.read a = s.coef.read a

/-- R182: TERM completes on four zero bits, raises FORMAT on any other four and TRUNCATED on fewer. -/
def Obligations.TermChecksFourZeroBits : Prop :=
  decode 0x00000042#32 = .ok .term ∧
  ∀ s : State, s.err = .none → s.rd.cnt.toNat ≤ 7 →
    (4 ≤ bitsLeft (source s) s.rd → streamValue (source s) s.rd 0 4 = 0 →
      exec .term s = .next (finished 0x42#8 { s with rd := readerAfter (source s) s.rd 4 })) ∧
    (4 ≤ bitsLeft (source s) s.rd → streamValue (source s) s.rd 0 4 ≠ 0 →
      ∃ t, exec .term s = .next t ∧ t.err = .format) ∧
    (bitsLeft (source s) s.rd < 4 → ∃ t, exec .term s = .next t ∧ t.err = .truncated)

/-- R183: SIGNS visits quadrants 0 to 3, each in raster order, and gives the next bit of the stream to each non-zero
word, negating it when the bit is 1. -/
def Obligations.SignsFollowTheVisitOrder : Prop :=
  ∀ s : State, s.err = .none → gridFits s → s.coef.wf = true → s.rd.cnt.toNat ≤ 7 →
    ((signOrder (gridRows s) (gridCols s)).filter fun a => decide (coefInt s.coef a ≠ 0)).length ≤
      bitsLeft (source s) s.rd →
    (∀ a, coefInt s.coef a ≠ -2147483648) →
    ∃ c, exec .signs s = .next (finished 0x43#8
        { s with
          rd := readerAfter (source s) s.rd
            ((signOrder (gridRows s) (gridCols s)).filter fun a =>
              decide (coefInt s.coef a ≠ 0)).length
          coef := c }) ∧
      (∀ p a : Nat, (signOrder (gridRows s) (gridCols s))[p]? = some a →
        coefInt c a =
          if coefInt s.coef a ≠ 0 ∧ streamBit (source s) s.rd
              (((signOrder (gridRows s) (gridCols s)).take p).filter fun b =>
                decide (coefInt s.coef b ≠ 0)).length = true then -coefInt s.coef a
          else coefInt s.coef a) ∧
      ∀ a, gridRows s * gridCols s ≤ a → c.read a = s.coef.read a

/-! ## Rice (44_rice.md) -/

/-- R200: the mapping and its inverse, and the range of a 32-bit value's image. -/
def Obligations.ZigZagAndUnZigAreInverse : Prop :=
  (∀ v : Int, unZig (zigZag v) = v) ∧ (∀ u : Nat, zigZag (unZig u) = u) ∧
  ∀ v : Int, -2147483648 ≤ v → v ≤ 2147483647 →
    zigZag v ≤ 2 ^ 32 ∧ (zigZag v = 2 ^ 32 ↔ v = -2147483648)

/-- R201, R202, R203, R204: RICEVAL k on the code of u completes with UnZig(u) and reads exactly the code's
(u >> k) + 1 + k bits; a run above 2^(32-k) zeros, or a u within the run bound whose value does not fit 32 bits, raises
FORMAT; k > 15 is ILLEGAL. -/
def Obligations.RicevalDecodesItsCode : Prop :=
  ∀ (k : BitVec 5) (u : Nat) (s : State), s.err = .none → s.rd.cnt.toNat ≤ 7 →
    (k.toNat ≤ 15 → decode (BitVec.ofNat 32 (0x50 + 256 * k.toNat)) = .ok (.riceval k)) ∧
    (k.toNat ≤ 15 → streamHas (source s) s.rd (riceBits k.toNat u) →
      -2147483648 ≤ unZig u → unZig u ≤ 2147483647 →
      exec (.riceval k) s = .next (finished 0x50#8
        { s with
          rd := readerAfter (source s) s.rd (u / 2 ^ k.toNat + 1 + k.toNat)
          result := BitVec.ofInt 32 (unZig u) })) ∧
    (k.toNat ≤ 15 → streamHas (source s) s.rd (riceBits k.toNat u) →
      (unZig u < -2147483648 ∨ 2147483647 < unZig u) →
      ∃ t, exec (.riceval k) s = .next t ∧ t.err = .format) ∧
    (k.toNat ≤ 15 →
      streamHas (source s) s.rd (List.replicate (2 ^ (32 - k.toNat) + 1) false) →
      ∃ t, exec (.riceval k) s = .next t ∧ t.err = .format) ∧
    (15 < k.toNat → exec (.riceval k) s = .next (failed 0x50#8 .illegal s))

/-- R205, R206, R209: RICEDEC q over the stream of a quadrant's values gives each word of the quadrant its value in
raster order, RICEK the split parameter, and changes no other word. -/
def Obligations.RicedecDecodesAQuadrant : Prop :=
  ∀ (q : BitVec 2) (k : Nat) (us : List Nat) (s : State) (cells : List Nat) (bits : List Bool),
    s.err = .none → gridFits s → s.coef.wf = true → s.rd.cnt.toNat ≤ 7 → k ≤ 15 →
    cells = quadrantCells (quadrantRange (gridRows s) (gridCols s) q) (gridCols s) →
    us.length = cells.length →
    (∀ u ∈ us, -2147483648 ≤ unZig u ∧ unZig u ≤ 2147483647) →
    bits = valueBits k 4 ++ us.flatMap (riceBits k) →
    streamHas (source s) s.rd bits →
    ∃ c, exec (.ricedec q) s = .next (finished 0x51#8
        { s with
          rd := readerAfter (source s) s.rd bits.length
          ricek := BitVec.ofNat 4 k
          coef := c }) ∧
      (∀ p a u : Nat, cells[p]? = some a → us[p]? = some u → coefInt c a = unZig u) ∧
      ∀ a, a ∉ cells → c.read a = s.coef.read a

/-! ## The register window and the host (10_state.md, 20_memory.md, 70_reset_and_hazards.md) -/

/-- R250, R37: after reset every register of the window reads 0 but ID. -/
def Obligations.ResetRegistersReadZero : Prop :=
  ∀ off, regValue off State.reset = if off = 0x34 then 0x48544445#32 else 0

/-- R22, R24 to R37: what each register of the window reads as, field by field, STATUS with the codes of R222; CMD and
the reserved offsets read 0. -/
def Obligations.StatusFields : Prop :=
  (ErrCode.none.code = 0 ∧ ErrCode.truncated.code = 1 ∧ ErrCode.format.code = 2 ∧ ErrCode.outFull.code = 3 ∧
    ErrCode.illegal.code = 4 ∧ ErrCode.range.code = 5 ∧ ErrCode.size.code = 6 ∧ ErrCode.seq.code = 7) ∧
  ∀ s : State,
    ((regValue 0x04 s).getLsbD 0 = s.busy ∧ (regValue 0x04 s).getLsbD 1 = s.done ∧
      (regValue 0x04 s).extractLsb' 2 2 = 0 ∧ (regValue 0x04 s).extractLsb' 4 4 = s.err.code ∧
      (regValue 0x04 s).extractLsb' 8 8 = s.lastOp ∧ (regValue 0x04 s).extractLsb' 16 16 = 0) ∧
    ((regValue 0x08 s).getLsbD 0 = s.flagW ∧ (regValue 0x08 s).getLsbD 1 = s.ie ∧
      (regValue 0x08 s).extractLsb' 2 30 = 0) ∧
    ((regValue 0x0C s).extractLsb' 0 16 = s.cols ∧ (regValue 0x0C s).extractLsb' 16 16 = s.rows) ∧
    ((regValue 0x10 s).extractLsb' 0 16 = s.scale ∧ (regValue 0x10 s).extractLsb' 16 16 = 0) ∧
    ((regValue 0x14 s).extractLsb' 0 8 = s.nbp0 ∧ (regValue 0x14 s).extractLsb' 8 8 = s.nbp1 ∧
      (regValue 0x14 s).extractLsb' 16 8 = s.nbp2 ∧ (regValue 0x14 s).extractLsb' 24 8 = s.nbp3) ∧
    (regValue 0x18 s = s.arg ∧ regValue 0x1C s = s.result ∧ regValue 0x20 s = s.inLen ∧
      regValue 0x24 s = s.rd.pos ∧ regValue 0x28 s = s.wr.pos) ∧
    ((regValue 0x2C s).extractLsb' 0 8 = s.rd.buf ∧ (regValue 0x2C s).extractLsb' 8 4 = s.rd.cnt ∧
      (regValue 0x2C s).extractLsb' 12 20 = 0) ∧
    ((regValue 0x30 s).extractLsb' 0 8 = s.wr.buf ∧ (regValue 0x30 s).extractLsb' 8 4 = s.wr.cnt ∧
      (regValue 0x30 s).extractLsb' 12 20 = 0) ∧
    regValue 0x34 s = 0x48544445#32 ∧
    ((regValue 0x38 s).extractLsb' 0 4 = s.ricek ∧ (regValue 0x38 s).extractLsb' 4 28 = 0) ∧
    regValue 0x00 s = 0 ∧ ∀ off, 0x3C ≤ off → regValue off s = 0

/-- R22, R24 to R30: where a host word write puts each bit of a writable register, every other field of the machine
kept; what is read back, reserved bits as 0, with every other register's value kept; and that a write to a read-only or
reserved offset changes nothing. -/
def Obligations.RegisterWritesReadBack : Prop :=
  ∀ (s : State) (v : Word), s.busy = false →
    (hostMove (.regWrite 0x08 4 v) s = .next { s with flagW := v.getLsbD 0, ie := v.getLsbD 1 } ∧
      hostMove (.regWrite 0x0C 4 v) s =
        .next { s with cols := v.extractLsb' 0 16, rows := v.extractLsb' 16 16 } ∧
      hostMove (.regWrite 0x10 4 v) s = .next { s with scale := v.extractLsb' 0 16 } ∧
      hostMove (.regWrite 0x14 4 v) s = .next
        { s with
          nbp0 := v.extractLsb' 0 8
          nbp1 := v.extractLsb' 8 8
          nbp2 := v.extractLsb' 16 8
          nbp3 := v.extractLsb' 24 8 } ∧
      hostMove (.regWrite 0x18 4 v) s = .next { s with arg := v } ∧
      hostMove (.regWrite 0x20 4 v) s =
        .next { s with inLen := BitVec.ofNat 32 (min v.toNat s.params.inBytes) }) ∧
    (∀ off ∈ [0x08, 0x0C, 0x10, 0x14, 0x18, 0x20],
      ∃ t, hostMove (.regWrite off 4 v) s = .next t ∧
        regValue off t =
          (if off = 0x08 then v &&& 3#32 else if off = 0x10 then v &&& 0xFFFF#32
            else if off = 0x20 then BitVec.ofNat 32 (min v.toNat s.params.inBytes) else v) ∧
        (∀ off', off' ≠ off → regValue off' t = regValue off' s) ∧
        t.coef = s.coef ∧ t.inMem = s.inMem ∧ t.outMem = s.outMem) ∧
    (∀ off, off % 4 = 0 → off < 0x100 →
      off ∉ [0x00, 0x04, 0x08, 0x0C, 0x10, 0x14, 0x18, 0x20] →
        hostMove (.regWrite off 4 v) s = .next s) ∧
    hostMove (.regWrite 0x04 4 v) s = .next { s with done := s.done && !v.getLsbD 1 }

/-- R57, R22: a host read changes only the data it returns (`hostData`, the model's own field, log entry 3), and
returns the register, word or byte read. -/
def Obligations.HostReadsHaveNoSideEffect : Prop :=
  ∀ s : State, s.busy = false →
    (∀ off, off % 4 = 0 → off < 0x100 →
      hostMove (.regRead off 4) s = .next { s with hostData := regValue off s }) ∧
    (∀ i, i < s.params.coefWords →
      hostMove (.coefRead i 4) s = .next { s with hostData := s.coef.read i }) ∧
    (∀ i, i < s.params.inBytes →
      hostMove (.inRead i) s = .next { s with hostData := (s.inMem.read i).zeroExtend 32 }) ∧
    ∀ i, i < s.params.outBytes →
      hostMove (.outRead i) s = .next { s with hostData := (s.outMem.read i).zeroExtend 32 }

/-- R50, R256: a host write of a COEF word or an IN byte changes that cell and nothing else. -/
def Obligations.HostMemoryWritesOneCell : Prop :=
  ∀ s : State, s.busy = false → s.coef.wf = true → s.inMem.wf = true →
    (∀ i v, i < s.params.coefWords →
      ∃ c, hostMove (.coefWrite i 4 v) s = .next { s with coef := c } ∧
        ∀ a, c.read a = if a = i then v else s.coef.read a) ∧
    ∀ i b, i < s.params.inBytes →
      ∃ m, hostMove (.inWrite i b) s = .next { s with inMem := m } ∧
        ∀ a, m.read a = if a = i then b else s.inMem.read a

/-- R257, R52: each protocol violation has no move. -/
def Obligations.ProtocolViolationsAreRefused : Prop :=
  ∀ s : State,
    (s.busy = true → ∀ m, m ≠ .reset → m ≠ .resetDuringCommand → (∀ size, m ≠ .regRead 0x04 size) →
      hostMove m s = .refused .hostWhileBusy) ∧
    (s.busy = false → ∀ off size v, size ≠ 4 ∨ off % 4 ≠ 0 →
      hostMove (.regRead off size) s = .refused .hostNotAlignedWord ∧
        hostMove (.regWrite off size v) s = .refused .hostNotAlignedWord) ∧
    (s.busy = false → ∀ i size v, size ≠ 4 →
      hostMove (.coefRead i size) s = .refused .hostNotAlignedWord ∧
        hostMove (.coefWrite i size v) s = .refused .hostNotAlignedWord) ∧
    (s.busy = false → ∀ i v, s.params.coefWords ≤ i →
      hostMove (.coefWrite i 4 v) s = .refused .hostOutsideMemory) ∧
    (s.busy = false → ∀ i b, s.params.inBytes ≤ i →
      hostMove (.inWrite i b) s = .refused .hostOutsideMemory) ∧
    (s.busy = false → ∀ i b, s.params.outBytes ≤ i →
      hostMove (.outWrite i b) s = .refused .hostOutsideMemory)

/-- R251: reset between commands gives every register its reset value; SRST resets the stream state and the error latch
only; neither touches COEF, IN or OUT. That reset keeps them is the model's choice between two rules (log entry 9): R251
says so, while R250's table and U2 call them unspecified after reset. -/
def Obligations.ResetAndSrstDiffer : Prop :=
  ∀ s : State,
    (∃ t, hostMove .reset s = .next t ∧ (∀ off, regValue off t = regValue off State.reset) ∧
      t.coef = s.coef ∧ t.inMem = s.inMem ∧ t.outMem = s.outMem) ∧
    ∃ t, exec .srst s = .next t ∧ t.rd = ⟨0, 0, 0⟩ ∧ t.wr = ⟨0, 0, 0⟩ ∧ t.result = 0 ∧ t.ricek = 0 ∧
      t.err = .none ∧ t.done = true ∧ t.coef = s.coef ∧ t.inMem = s.inMem ∧ t.outMem = s.outMem ∧
      ∀ off ∈ [0x08, 0x0C, 0x10, 0x14, 0x18, 0x20], regValue off t = regValue off s

/-! ## The transform of grids with leftover rows and columns (42_transform.md) -/

/-- R145 to R151: HTRANS of five words in a row or a column, which has a leftover row or column at each of the levels
0, 1 and 2 and a corner at the levels 0 and 1; and of a 3×3 grid, which has all four kinds of block at level 0 and a
full block at level 1. The constants of each level are written out. -/
def Obligations.HtransOfOddGrids : Prop :=
  (∀ (s : State) (v : Nat → Int) (h0 h1 h : Int), s.err = .none → s.coef.wf = true →
    (s.rows = 1 ∧ s.cols = 5 ∨ s.rows = 5 ∧ s.cols = 1) → 5 ≤ s.params.coefWords →
    (∀ p, p < 5 → coefInt s.coef p = v p ∧ (v p).natAbs ≤ 134217726) →
    h0 = sumRounded 2 ((v 1 + v 0) * 2) → h1 = sumRounded 2 ((v 3 + v 2) * 2) → h = sumRounded 4 (h1 + h0) →
    ∃ c, exec .htrans s = .next (finished 0x30#8 { s with coef := c }) ∧
      coefInt c 0 = sumRounded 8 (v 4 * 8 + h) ∧ coefInt c 1 = diffRounded 4 (v 4 * 8 - h) ∧
      coefInt c 2 = diffRounded 2 (h1 - h0) ∧ coefInt c 3 = (v 1 - v 0) * 2 ∧
      coefInt c 4 = (v 3 - v 2) * 2 ∧ ∀ a, 5 ≤ a → c.read a = s.coef.read a) ∧
  ∀ (s : State) (v : Nat → Int) (A B C D : Int), s.err = .none → s.coef.wf = true →
    s.rows = 3 → s.cols = 3 → 9 ≤ s.params.coefWords →
    (∀ p, p < 9 → coefInt s.coef p = v p ∧ (v p).natAbs ≤ 268435454) →
    A = sumRounded 2 (v 4 + v 3 + v 1 + v 0) → B = sumRounded 2 ((v 5 + v 2) * 2) →
    C = sumRounded 2 ((v 7 + v 6) * 2) → D = v 8 * 4 →
    ∃ c, exec .htrans s = .next (finished 0x30#8 { s with coef := c }) ∧
      coefInt c 0 = sumRounded 4 ((D + C + B + A) / 2) ∧ coefInt c 1 = diffRounded 2 ((D - C + B - A) / 2) ∧
      coefInt c 2 = diffRounded 1 (v 4 - v 3 + v 1 - v 0) ∧
      coefInt c 3 = diffRounded 2 ((D + C - B - A) / 2) ∧ coefInt c 4 = (D - C - B + A) / 2 ∧
      coefInt c 5 = (v 7 - v 6) * 2 ∧ coefInt c 6 = diffRounded 1 (v 4 + v 3 - v 1 - v 0) ∧
      coefInt c 7 = (v 5 - v 2) * 2 ∧ coefInt c 8 = v 4 - v 3 - v 1 + v 0 ∧
      ∀ a, 9 ≤ a → c.read a = s.coef.read a

/-- R152 to R159: HINV of five words in a row or a column, with a leftover row or column at each of the levels 2, 1 and
0 and a corner at the levels 1 and 0; and of a 3×3 grid, with a full block at level 1 and all four kinds of block at
level 0. The constants of each level are written out. -/
def Obligations.HinvOfOddGrids : Prop :=
  (∀ (s : State) (v : Nat → Int) (x0 x1 y0 y1 z0 z1 z2 z3 : Int), s.err = .none → s.coef.wf = true →
    (s.rows = 1 ∧ s.cols = 5 ∨ s.rows = 5 ∧ s.cols = 1) → 5 ≤ s.params.coefWords →
    (∀ p, p < 5 → coefInt s.coef p = v p ∧ (v p).natAbs ≤ 536870911) →
    (x0, x1) = inverseTwo 4 2 (reRounded 8 (v 0)) (v 1) → (y0, y1) = inverseTwo 2 2 x0 (v 2) →
    (z0, z1) = inverseTwo 1 4 y0 (v 3) → (z2, z3) = inverseTwo 1 4 y1 (v 4) →
    ∃ c, exec .hinv s = .next (finished 0x31#8 { s with coef := c }) ∧
      coefInt c 0 = z0 ∧ coefInt c 1 = z1 ∧ coefInt c 2 = z2 ∧ coefInt c 3 = z3 ∧
      coefInt c 4 = x1 / 2 / 4 ∧ ∀ a, 5 ≤ a → c.read a = s.coef.read a) ∧
  ∀ (s : State) (v : Nat → Int) (x0 x1 x2 x3 z0 z1 z2 z3 z4 z5 z6 z7 : Int),
    s.err = .none → s.coef.wf = true → s.rows = 3 → s.cols = 3 → 9 ≤ s.params.coefWords →
    (∀ p, p < 9 → coefInt s.coef p = v p ∧ (v p).natAbs ≤ 536870911) →
    (x0, x1, x2, x3) = inverseFour 2 2 (reRounded 4 (v 0)) (v 3) (v 1) (reRounded 1 (v 4)) →
    (z0, z1, z3, z4) = inverseFour 1 4 x0 (v 6) (v 2) (v 8) →
    (z2, z5) = inverseTwo 1 4 x1 (v 7) → (z6, z7) = inverseTwo 1 4 x2 (v 5) →
    ∃ c, exec .hinv s = .next (finished 0x31#8 { s with coef := c }) ∧
      coefInt c 0 = z0 ∧ coefInt c 1 = z1 ∧ coefInt c 2 = z2 ∧ coefInt c 3 = z3 ∧ coefInt c 4 = z4 ∧
      coefInt c 5 = z5 ∧ coefInt c 6 = z6 ∧ coefInt c 7 = z7 ∧ coefInt c 8 = x3 / 4 ∧
      ∀ a, 9 ≤ a → c.read a = s.coef.read a

/-- Derived from R152 to R159: HINV completes on every grid whose words have magnitude at most 700000000, with the
words of the inverse transform and no word outside the grid changed. -/
def Obligations.HinvCompletesWithinBound : Prop :=
  ∀ s : State, s.err = .none → gridFits s → s.coef.wf = true →
    (∀ a, a < gridRows s * gridCols s → (coefInt s.coef a).natAbs ≤ 700000000) →
    ∃ c, inverseTransform (gridRows s) (gridCols s) s.coef = .ok c ∧
      exec .hinv s = .next (finished 0x31#8 { s with coef := c }) ∧
      ∀ a, gridRows s * gridCols s ≤ a → c.read a = s.coef.read a
end

