-- ==== Sys2Proof/Laws/Loops.lean ====
section
/-! SUPPORT. What a sequence of steps that may raise an error can do, and the loop rules. -/

namespace Sys2Proof.Machine

variable {α β σ : Type}

/-- A sequence answers exactly when both its parts do. -/
theorem bind_ok {x : Except ErrCode α} {f : α → Except ErrCode β} {b : β} :
    x >>= f = .ok b ↔ ∃ a, x = .ok a ∧ f a = .ok b := by
  cases x with
  | error e =>
    constructor
    · intro h
      cases h
    · rintro ⟨a, h, -⟩
      cases h
  | ok a =>
    constructor
    · intro h
      exact ⟨a, rfl, h⟩
    · rintro ⟨a', h, h'⟩
      cases h
      exact h'

/-- A sequence raises what its first failing part raises. -/
theorem bind_error {x : Except ErrCode α} {f : α → Except ErrCode β} {e : ErrCode} :
    x >>= f = .error e ↔ x = .error e ∨ ∃ a, x = .ok a ∧ f a = .error e := by
  cases x with
  | error e' =>
    constructor
    · intro h
      cases h
      exact .inl rfl
    · rintro (h | ⟨a, h, -⟩)
      · cases h
        rfl
      · cases h
  | ok a =>
    constructor
    · intro h
      exact .inr ⟨a, rfl, h⟩
    · rintro (h | ⟨a', h, h'⟩)
      · cases h
      · cases h
        exact h'

@[simp] theorem ok_bind (a : α) (f : α → Except ErrCode β) : (Except.ok a >>= f) = f a := rfl

@[simp] theorem error_bind (e : ErrCode) (f : α → Except ErrCode β) :
    ((Except.error e : Except ErrCode α) >>= f) = .error e := rfl

/-- The ascending loop completes when each pass does, carrying what holds before pass i. -/
theorem loopUp_completes {P : Nat → σ → Prop} {n : Nat} {f : Nat → σ → Except ErrCode σ} {x : σ}
    (hx : P 0 x) (hf : ∀ i y, i < n → P i y → ∃ z, f i y = .ok z ∧ P (i + 1) z) :
    ∃ z, loopUp n f x = .ok z ∧ P n z := by
  induction n with
  | zero => exact ⟨x, rfl, hx⟩
  | succ n ih =>
    obtain ⟨y, hy, hP⟩ := ih fun i y hi => hf i y (by omega)
    obtain ⟨z, hz, hPz⟩ := hf n y (by omega) hP
    exact ⟨z, by simp [loopUp, hy, hz], hPz⟩

/-- What each pass keeps when it answers, the ascending loop keeps. -/
theorem loopUp_keeps {P : σ → Prop} {n : Nat} {f : Nat → σ → Except ErrCode σ} {x z : σ}
    (hf : ∀ i y y', i < n → P y → f i y = .ok y' → P y') (hx : P x) (h : loopUp n f x = .ok z) :
    P z := by
  induction n generalizing z with
  | zero =>
    cases h
    exact hx
  | succ n ih =>
    obtain ⟨y, hy, hz⟩ := bind_ok.1 h
    exact hf n y z (by omega) (ih (fun i y y' hi => hf i y y' (by omega)) hy) hz

/-- An error of the ascending loop is an error of some pass. -/
theorem loopUp_error {n : Nat} {f : Nat → σ → Except ErrCode σ} {x : σ} {e : ErrCode}
    (h : loopUp n f x = .error e) : ∃ i y, i < n ∧ f i y = .error e := by
  induction n with
  | zero => cases h
  | succ n ih =>
    rcases bind_error.1 h with h | ⟨y, -, h⟩
    · obtain ⟨i, y, hi, hy⟩ := ih h
      exact ⟨i, y, by omega, hy⟩
    · exact ⟨n, y, by omega, h⟩

/-- The descending loop completes when each pass does, carrying what holds with i passes to come. -/
theorem loopDown_completes {P : Nat → σ → Prop} {n : Nat} {f : Nat → σ → Except ErrCode σ} {x : σ}
    (hx : P n x) (hf : ∀ i y, i < n → P (i + 1) y → ∃ z, f i y = .ok z ∧ P i z) :
    ∃ z, loopDown n f x = .ok z ∧ P 0 z := by
  induction n generalizing x with
  | zero => exact ⟨x, rfl, hx⟩
  | succ n ih =>
    obtain ⟨y, hy, hP⟩ := hf n x (by omega) hx
    obtain ⟨z, hz, hPz⟩ := ih hP fun i y hi => hf i y (by omega)
    exact ⟨z, by simp [loopDown, hy, hz], hPz⟩

/-- What each pass keeps when it answers, the descending loop keeps. -/
theorem loopDown_keeps {P : σ → Prop} {n : Nat} {f : Nat → σ → Except ErrCode σ} {x z : σ}
    (hf : ∀ i y y', i < n → P y → f i y = .ok y' → P y') (hx : P x) (h : loopDown n f x = .ok z) :
    P z := by
  induction n generalizing x with
  | zero =>
    cases h
    exact hx
  | succ n ih =>
    obtain ⟨y, hy, hz⟩ := bind_ok.1 h
    exact ih (fun i y y' hi => hf i y y' (by omega)) (hf n x y (by omega) hx hy) hz

/-- An error of the descending loop is an error of some pass. -/
theorem loopDown_error {n : Nat} {f : Nat → σ → Except ErrCode σ} {x : σ} {e : ErrCode}
    (h : loopDown n f x = .error e) : ∃ i y, i < n ∧ f i y = .error e := by
  induction n generalizing x with
  | zero => cases h
  | succ n ih =>
    rcases bind_error.1 h with h | ⟨y, -, h⟩
    · exact ⟨n, x, by omega, h⟩
    · obtain ⟨i, y, hi, hy⟩ := ih h
      exact ⟨i, y, by omega, hy⟩

/-- What each pass over a quadrant's cell keeps, the pass over the quadrant keeps. -/
theorem overQuadrant_keeps {P : σ → Prop} {d : Quadrant} {C : Nat}
    {f : Nat → σ → Except ErrCode σ} {x z : σ}
    (hf : ∀ i j y y', i < d.height → j < d.width → P y → f (d.cell C i j) y = .ok y' → P y')
    (hx : P x) (h : overQuadrant d C f x = .ok z) : P z :=
  loopUp_keeps (fun i _ _ hi hy h =>
    loopUp_keeps (fun j y y' hj hy h => hf i j y y' hi hj hy h) hy h) hx h

/-- A cell of a quadrant of an R×C grid lies in the grid (R162, R10). -/
theorem cell_lt {R C i j : Nat} (hi : i < R) (hj : j < C) : i * C + j < R * C := by
  calc i * C + j < i * C + C := by omega
    _ = (i + 1) * C := by rw [Nat.add_mul, Nat.one_mul]
    _ ≤ R * C := Nat.mul_le_mul_right C hi

end Sys2Proof.Machine
end

