-- ==== Sys2Proof/Laws/State.lean ====
section
/-! SUPPORT. One lemma per field for each named update of the state, so that no proof unfolds a record update. -/

namespace Sys2Proof.Machine

/-! ## `accept` -/

@[simp] theorem accept_params (op : BitVec 8) (s : State) : (accept op s).params = s.params := rfl

@[simp] theorem accept_busy (op : BitVec 8) (s : State) : (accept op s).busy = true := rfl

@[simp] theorem accept_done (op : BitVec 8) (s : State) : (accept op s).done = s.done := rfl

@[simp] theorem accept_err (op : BitVec 8) (s : State) : (accept op s).err = s.err := rfl

@[simp] theorem accept_lastOp (op : BitVec 8) (s : State) : (accept op s).lastOp = op := rfl

@[simp] theorem accept_flagW (op : BitVec 8) (s : State) : (accept op s).flagW = s.flagW := rfl

@[simp] theorem accept_ie (op : BitVec 8) (s : State) : (accept op s).ie = s.ie := rfl

@[simp] theorem accept_rows (op : BitVec 8) (s : State) : (accept op s).rows = s.rows := rfl

@[simp] theorem accept_cols (op : BitVec 8) (s : State) : (accept op s).cols = s.cols := rfl

@[simp] theorem accept_scale (op : BitVec 8) (s : State) : (accept op s).scale = s.scale := rfl

@[simp] theorem accept_nbp0 (op : BitVec 8) (s : State) : (accept op s).nbp0 = s.nbp0 := rfl

@[simp] theorem accept_nbp1 (op : BitVec 8) (s : State) : (accept op s).nbp1 = s.nbp1 := rfl

@[simp] theorem accept_nbp2 (op : BitVec 8) (s : State) : (accept op s).nbp2 = s.nbp2 := rfl

@[simp] theorem accept_nbp3 (op : BitVec 8) (s : State) : (accept op s).nbp3 = s.nbp3 := rfl

@[simp] theorem accept_arg (op : BitVec 8) (s : State) : (accept op s).arg = s.arg := rfl

@[simp] theorem accept_result (op : BitVec 8) (s : State) : (accept op s).result = s.result := rfl

@[simp] theorem accept_inLen (op : BitVec 8) (s : State) : (accept op s).inLen = s.inLen := rfl

@[simp] theorem accept_rd (op : BitVec 8) (s : State) : (accept op s).rd = s.rd := rfl

@[simp] theorem accept_wr (op : BitVec 8) (s : State) : (accept op s).wr = s.wr := rfl

@[simp] theorem accept_ricek (op : BitVec 8) (s : State) : (accept op s).ricek = s.ricek := rfl

@[simp] theorem accept_coef (op : BitVec 8) (s : State) : (accept op s).coef = s.coef := rfl

@[simp] theorem accept_inMem (op : BitVec 8) (s : State) : (accept op s).inMem = s.inMem := rfl

@[simp] theorem accept_outMem (op : BitVec 8) (s : State) : (accept op s).outMem = s.outMem := rfl

@[simp] theorem accept_host (op : BitVec 8) (s : State) : (accept op s).host = s.host := rfl

@[simp] theorem accept_hostData (op : BitVec 8) (s : State) : (accept op s).hostData = s.hostData := rfl

@[simp] theorem accept_draws (op : BitVec 8) (s : State) : (accept op s).draws = s.draws := rfl

/-! ## `complete` -/

@[simp] theorem complete_params (e : ErrCode) (s : State) : (complete e s).params = s.params := rfl

@[simp] theorem complete_busy (e : ErrCode) (s : State) : (complete e s).busy = false := rfl

@[simp] theorem complete_done (e : ErrCode) (s : State) : (complete e s).done = true := rfl

@[simp] theorem complete_err (e : ErrCode) (s : State) : (complete e s).err =
      if e = .none then s.err else e := rfl

@[simp] theorem complete_lastOp (e : ErrCode) (s : State) : (complete e s).lastOp = s.lastOp := rfl

@[simp] theorem complete_flagW (e : ErrCode) (s : State) : (complete e s).flagW = s.flagW := rfl

@[simp] theorem complete_ie (e : ErrCode) (s : State) : (complete e s).ie = s.ie := rfl

@[simp] theorem complete_rows (e : ErrCode) (s : State) : (complete e s).rows = s.rows := rfl

@[simp] theorem complete_cols (e : ErrCode) (s : State) : (complete e s).cols = s.cols := rfl

@[simp] theorem complete_scale (e : ErrCode) (s : State) : (complete e s).scale = s.scale := rfl

@[simp] theorem complete_nbp0 (e : ErrCode) (s : State) : (complete e s).nbp0 = s.nbp0 := rfl

@[simp] theorem complete_nbp1 (e : ErrCode) (s : State) : (complete e s).nbp1 = s.nbp1 := rfl

@[simp] theorem complete_nbp2 (e : ErrCode) (s : State) : (complete e s).nbp2 = s.nbp2 := rfl

@[simp] theorem complete_nbp3 (e : ErrCode) (s : State) : (complete e s).nbp3 = s.nbp3 := rfl

@[simp] theorem complete_arg (e : ErrCode) (s : State) : (complete e s).arg = s.arg := rfl

@[simp] theorem complete_result (e : ErrCode) (s : State) : (complete e s).result = s.result := rfl

@[simp] theorem complete_inLen (e : ErrCode) (s : State) : (complete e s).inLen = s.inLen := rfl

@[simp] theorem complete_rd (e : ErrCode) (s : State) : (complete e s).rd = s.rd := rfl

@[simp] theorem complete_wr (e : ErrCode) (s : State) : (complete e s).wr = s.wr := rfl

@[simp] theorem complete_ricek (e : ErrCode) (s : State) : (complete e s).ricek = s.ricek := rfl

@[simp] theorem complete_coef (e : ErrCode) (s : State) : (complete e s).coef = s.coef := rfl

@[simp] theorem complete_inMem (e : ErrCode) (s : State) : (complete e s).inMem = s.inMem := rfl

@[simp] theorem complete_outMem (e : ErrCode) (s : State) : (complete e s).outMem = s.outMem := rfl

@[simp] theorem complete_host (e : ErrCode) (s : State) : (complete e s).host = s.host := rfl

@[simp] theorem complete_hostData (e : ErrCode) (s : State) : (complete e s).hostData = s.hostData := rfl

@[simp] theorem complete_draws (e : ErrCode) (s : State) : (complete e s).draws = s.draws := rfl

/-! ## `softReset` -/

@[simp] theorem softReset_params (s : State) : (softReset s).params = s.params := rfl

@[simp] theorem softReset_busy (s : State) : (softReset s).busy = s.busy := rfl

@[simp] theorem softReset_done (s : State) : (softReset s).done = s.done := rfl

@[simp] theorem softReset_err (s : State) : (softReset s).err = .none := rfl

@[simp] theorem softReset_lastOp (s : State) : (softReset s).lastOp = s.lastOp := rfl

@[simp] theorem softReset_flagW (s : State) : (softReset s).flagW = s.flagW := rfl

@[simp] theorem softReset_ie (s : State) : (softReset s).ie = s.ie := rfl

@[simp] theorem softReset_rows (s : State) : (softReset s).rows = s.rows := rfl

@[simp] theorem softReset_cols (s : State) : (softReset s).cols = s.cols := rfl

@[simp] theorem softReset_scale (s : State) : (softReset s).scale = s.scale := rfl

@[simp] theorem softReset_nbp0 (s : State) : (softReset s).nbp0 = s.nbp0 := rfl

@[simp] theorem softReset_nbp1 (s : State) : (softReset s).nbp1 = s.nbp1 := rfl

@[simp] theorem softReset_nbp2 (s : State) : (softReset s).nbp2 = s.nbp2 := rfl

@[simp] theorem softReset_nbp3 (s : State) : (softReset s).nbp3 = s.nbp3 := rfl

@[simp] theorem softReset_arg (s : State) : (softReset s).arg = s.arg := rfl

@[simp] theorem softReset_result (s : State) : (softReset s).result = 0 := rfl

@[simp] theorem softReset_inLen (s : State) : (softReset s).inLen = s.inLen := rfl

@[simp] theorem softReset_rd (s : State) : (softReset s).rd = ⟨0, 0, 0⟩ := rfl

@[simp] theorem softReset_wr (s : State) : (softReset s).wr = ⟨0, 0, 0⟩ := rfl

@[simp] theorem softReset_ricek (s : State) : (softReset s).ricek = 0 := rfl

@[simp] theorem softReset_coef (s : State) : (softReset s).coef = s.coef := rfl

@[simp] theorem softReset_inMem (s : State) : (softReset s).inMem = s.inMem := rfl

@[simp] theorem softReset_outMem (s : State) : (softReset s).outMem = s.outMem := rfl

@[simp] theorem softReset_host (s : State) : (softReset s).host = s.host := rfl

@[simp] theorem softReset_hostData (s : State) : (softReset s).hostData = s.hostData := rfl

@[simp] theorem softReset_draws (s : State) : (softReset s).draws = s.draws := rfl

/-! ## `setSink` -/

@[simp] theorem setSink_params (k : Sink) (s : State) : (setSink s k).params = s.params := rfl

@[simp] theorem setSink_busy (k : Sink) (s : State) : (setSink s k).busy = s.busy := rfl

@[simp] theorem setSink_done (k : Sink) (s : State) : (setSink s k).done = s.done := rfl

@[simp] theorem setSink_err (k : Sink) (s : State) : (setSink s k).err = s.err := rfl

@[simp] theorem setSink_lastOp (k : Sink) (s : State) : (setSink s k).lastOp = s.lastOp := rfl

@[simp] theorem setSink_flagW (k : Sink) (s : State) : (setSink s k).flagW = s.flagW := rfl

@[simp] theorem setSink_ie (k : Sink) (s : State) : (setSink s k).ie = s.ie := rfl

@[simp] theorem setSink_rows (k : Sink) (s : State) : (setSink s k).rows = s.rows := rfl

@[simp] theorem setSink_cols (k : Sink) (s : State) : (setSink s k).cols = s.cols := rfl

@[simp] theorem setSink_scale (k : Sink) (s : State) : (setSink s k).scale = s.scale := rfl

@[simp] theorem setSink_nbp0 (k : Sink) (s : State) : (setSink s k).nbp0 = s.nbp0 := rfl

@[simp] theorem setSink_nbp1 (k : Sink) (s : State) : (setSink s k).nbp1 = s.nbp1 := rfl

@[simp] theorem setSink_nbp2 (k : Sink) (s : State) : (setSink s k).nbp2 = s.nbp2 := rfl

@[simp] theorem setSink_nbp3 (k : Sink) (s : State) : (setSink s k).nbp3 = s.nbp3 := rfl

@[simp] theorem setSink_arg (k : Sink) (s : State) : (setSink s k).arg = s.arg := rfl

@[simp] theorem setSink_result (k : Sink) (s : State) : (setSink s k).result = s.result := rfl

@[simp] theorem setSink_inLen (k : Sink) (s : State) : (setSink s k).inLen = s.inLen := rfl

@[simp] theorem setSink_rd (k : Sink) (s : State) : (setSink s k).rd = s.rd := rfl

@[simp] theorem setSink_wr (k : Sink) (s : State) : (setSink s k).wr = k.wr := rfl

@[simp] theorem setSink_ricek (k : Sink) (s : State) : (setSink s k).ricek = s.ricek := rfl

@[simp] theorem setSink_coef (k : Sink) (s : State) : (setSink s k).coef = s.coef := rfl

@[simp] theorem setSink_inMem (k : Sink) (s : State) : (setSink s k).inMem = s.inMem := rfl

@[simp] theorem setSink_outMem (k : Sink) (s : State) : (setSink s k).outMem = k.mem := rfl

@[simp] theorem setSink_host (k : Sink) (s : State) : (setSink s k).host = s.host := rfl

@[simp] theorem setSink_hostData (k : Sink) (s : State) : (setSink s k).hostData = s.hostData := rfl

@[simp] theorem setSink_draws (k : Sink) (s : State) : (setSink s k).draws = s.draws := rfl

/-! ## `writeStatus` -/

@[simp] theorem writeStatus_params (v : Word) (s : State) : (writeStatus v s).params = s.params := rfl

@[simp] theorem writeStatus_busy (v : Word) (s : State) : (writeStatus v s).busy = s.busy := rfl

@[simp] theorem writeStatus_done (v : Word) (s : State) : (writeStatus v s).done = (s.done && !v.getLsbD 1) := rfl

@[simp] theorem writeStatus_err (v : Word) (s : State) : (writeStatus v s).err = s.err := rfl

@[simp] theorem writeStatus_lastOp (v : Word) (s : State) : (writeStatus v s).lastOp = s.lastOp := rfl

@[simp] theorem writeStatus_flagW (v : Word) (s : State) : (writeStatus v s).flagW = s.flagW := rfl

@[simp] theorem writeStatus_ie (v : Word) (s : State) : (writeStatus v s).ie = s.ie := rfl

@[simp] theorem writeStatus_rows (v : Word) (s : State) : (writeStatus v s).rows = s.rows := rfl

@[simp] theorem writeStatus_cols (v : Word) (s : State) : (writeStatus v s).cols = s.cols := rfl

@[simp] theorem writeStatus_scale (v : Word) (s : State) : (writeStatus v s).scale = s.scale := rfl

@[simp] theorem writeStatus_nbp0 (v : Word) (s : State) : (writeStatus v s).nbp0 = s.nbp0 := rfl

@[simp] theorem writeStatus_nbp1 (v : Word) (s : State) : (writeStatus v s).nbp1 = s.nbp1 := rfl

@[simp] theorem writeStatus_nbp2 (v : Word) (s : State) : (writeStatus v s).nbp2 = s.nbp2 := rfl

@[simp] theorem writeStatus_nbp3 (v : Word) (s : State) : (writeStatus v s).nbp3 = s.nbp3 := rfl

@[simp] theorem writeStatus_arg (v : Word) (s : State) : (writeStatus v s).arg = s.arg := rfl

@[simp] theorem writeStatus_result (v : Word) (s : State) : (writeStatus v s).result = s.result := rfl

@[simp] theorem writeStatus_inLen (v : Word) (s : State) : (writeStatus v s).inLen = s.inLen := rfl

@[simp] theorem writeStatus_rd (v : Word) (s : State) : (writeStatus v s).rd = s.rd := rfl

@[simp] theorem writeStatus_wr (v : Word) (s : State) : (writeStatus v s).wr = s.wr := rfl

@[simp] theorem writeStatus_ricek (v : Word) (s : State) : (writeStatus v s).ricek = s.ricek := rfl

@[simp] theorem writeStatus_coef (v : Word) (s : State) : (writeStatus v s).coef = s.coef := rfl

@[simp] theorem writeStatus_inMem (v : Word) (s : State) : (writeStatus v s).inMem = s.inMem := rfl

@[simp] theorem writeStatus_outMem (v : Word) (s : State) : (writeStatus v s).outMem = s.outMem := rfl

@[simp] theorem writeStatus_host (v : Word) (s : State) : (writeStatus v s).host = s.host := rfl

@[simp] theorem writeStatus_hostData (v : Word) (s : State) : (writeStatus v s).hostData = s.hostData := rfl

@[simp] theorem writeStatus_draws (v : Word) (s : State) : (writeStatus v s).draws = s.draws := rfl

/-! ## `spoil` -/

@[simp] theorem spoil_params (t : Touches) (s : State) : (spoil t s).params = s.params := rfl

@[simp] theorem spoil_busy (t : Touches) (s : State) : (spoil t s).busy = s.busy := rfl

@[simp] theorem spoil_done (t : Touches) (s : State) : (spoil t s).done = s.done := rfl

@[simp] theorem spoil_err (t : Touches) (s : State) : (spoil t s).err = s.err := rfl

@[simp] theorem spoil_lastOp (t : Touches) (s : State) : (spoil t s).lastOp = s.lastOp := rfl

@[simp] theorem spoil_flagW (t : Touches) (s : State) : (spoil t s).flagW = s.flagW := rfl

@[simp] theorem spoil_ie (t : Touches) (s : State) : (spoil t s).ie = s.ie := rfl

@[simp] theorem spoil_rows (t : Touches) (s : State) : (spoil t s).rows = s.rows := rfl

@[simp] theorem spoil_cols (t : Touches) (s : State) : (spoil t s).cols = s.cols := rfl

@[simp] theorem spoil_scale (t : Touches) (s : State) : (spoil t s).scale = s.scale := rfl

@[simp] theorem spoil_nbp0 (t : Touches) (s : State) : (spoil t s).nbp0 = s.nbp0 := rfl

@[simp] theorem spoil_nbp1 (t : Touches) (s : State) : (spoil t s).nbp1 = s.nbp1 := rfl

@[simp] theorem spoil_nbp2 (t : Touches) (s : State) : (spoil t s).nbp2 = s.nbp2 := rfl

@[simp] theorem spoil_nbp3 (t : Touches) (s : State) : (spoil t s).nbp3 = s.nbp3 := rfl

@[simp] theorem spoil_arg (t : Touches) (s : State) : (spoil t s).arg = s.arg := rfl

@[simp] theorem spoil_result (t : Touches) (s : State) : (spoil t s).result =
      Config.freeResult s.draws := rfl

@[simp] theorem spoil_inLen (t : Touches) (s : State) : (spoil t s).inLen = s.inLen := rfl

@[simp] theorem spoil_ricek (t : Touches) (s : State) : (spoil t s).ricek =
      if t.ricek then Config.freeRicek s.draws else s.ricek := rfl

@[simp] theorem spoil_coef (t : Touches) (s : State) : (spoil t s).coef =
      if t.grid then
        fillRange 0 (gridRows s * gridCols s) (Config.freeCoef s.draws) s.coef
      else s.coef := rfl

@[simp] theorem spoil_inMem (t : Touches) (s : State) : (spoil t s).inMem = s.inMem := rfl

@[simp] theorem spoil_outMem (t : Touches) (s : State) : (spoil t s).outMem =
      if t.writer then
        fillRange s.wr.pos.toNat s.params.outBytes (Config.freeOutByte s.draws) s.outMem
      else s.outMem := rfl

@[simp] theorem spoil_host (t : Touches) (s : State) : (spoil t s).host = s.host := rfl

@[simp] theorem spoil_hostData (t : Touches) (s : State) : (spoil t s).hostData = s.hostData := rfl

@[simp] theorem spoil_draws (t : Touches) (s : State) : (spoil t s).draws = s.draws + 1 := rfl

end Sys2Proof.Machine
end

