-- ==== Sys2Proof/Laws/Commands.lean ====
section
/-! SUPPORT. What submitting a command can do, said once (R220, R221, R223, R225). -/

namespace Sys2Proof.Machine

/-- The four ways a submitted command ends: ignored, refused by a check, completed, or ended by an error. -/
theorem submit_cases {op : BitVec 8} {t : Touches} {check : State → Option ErrCode}
    {body : State → Except ErrCode State} {s s' : State}
    (h : submit op t check body s = .next s') :
    (s.err ≠ .none ∧ s' = s) ∨
    (s.err = .none ∧ ∃ e, check (accept op s) = some e ∧ s' = complete e (accept op s)) ∨
    (s.err = .none ∧ check (accept op s) = none ∧
      ∃ b, body (accept op s) = .ok b ∧ s' = complete .none b) ∨
    (s.err = .none ∧ check (accept op s) = none ∧
      ∃ e, body (accept op s) = .error e ∧ s' = complete e (spoil t (accept op s))) := by
  unfold submit at h
  split at h
  · rename_i he
    cases h
    exact .inl ⟨he, rfl⟩
  · rename_i he
    have he : s.err = .none := Decidable.not_not.1 he
    cases h
    unfold runCommand
    split
    · rename_i e hc
      exact .inr (.inl ⟨he, e, hc, rfl⟩)
    · rename_i hc
      split
      · rename_i b hb
        exact .inr (.inr (.inl ⟨he, hc, b, hb, rfl⟩))
      · rename_i e hb
        exact .inr (.inr (.inr ⟨he, hc, e, hb, rfl⟩))

/-- Submitting never stops the machine (R253). -/
theorem submit_next (op : BitVec 8) (t : Touches) (check : State → Option ErrCode)
    (body : State → Except ErrCode State) (s : State) :
    ∃ s', submit op t check body s = .next s' := by
  unfold submit
  split
  · exact ⟨_, rfl⟩
  · exact ⟨_, rfl⟩

/-- While ERR is not 0 a command other than SRST is ignored (R220). -/
theorem submit_ignored {op : BitVec 8} {t : Touches} {check : State → Option ErrCode}
    {body : State → Except ErrCode State} {s : State} (h : s.err ≠ .none) :
    submit op t check body s = .next s := by
  unfold submit
  rw [if_pos h]

/-- A command whose check passes and whose pseudocode answers completes (R220, R221). -/
theorem submit_completes {op : BitVec 8} {t : Touches} {check : State → Option ErrCode}
    {body : State → Except ErrCode State} {s b : State} (h : s.err = .none)
    (hc : check (accept op s) = none) (hb : body (accept op s) = .ok b) :
    submit op t check body s = .next (complete .none b) := by
  unfold submit runCommand
  rw [if_neg (by simp [h]), hc, hb]

/-- A command whose check fails ends with that error and no other effect (R223, R225). -/
theorem submit_checked {op : BitVec 8} {t : Touches} {check : State → Option ErrCode}
    {body : State → Except ErrCode State} {s : State} {e : ErrCode} (h : s.err = .none)
    (hc : check (accept op s) = some e) :
    submit op t check body s = .next (complete e (accept op s)) := by
  unfold submit runCommand
  rw [if_neg (by simp [h]), hc]

/-- A command whose pseudocode raises ends with that error, what it can write unspecified (R223). -/
theorem submit_raises {op : BitVec 8} {t : Touches} {check : State → Option ErrCode}
    {body : State → Except ErrCode State} {s : State} {e : ErrCode} (h : s.err = .none)
    (hc : check (accept op s) = none) (hb : body (accept op s) = .error e) :
    submit op t check body s = .next (complete e (spoil t (accept op s))) := by
  unfold submit runCommand
  rw [if_neg (by simp [h]), hc, hb]

/-- What an error leaves alone in the reader when the command does not read the stream. -/
theorem spoil_rd_other {t : Touches} (h : t.reader = false) (s : State) : (spoil t s).rd = s.rd := by
  simp [spoil, h]

/-- What an error leaves alone in the writer when the command does not write the stream. -/
theorem spoil_wr_other {t : Touches} (h : t.writer = false) (s : State) : (spoil t s).wr = s.wr := by
  simp [spoil, h]

/-- The grid check passes exactly on a grid that fits (R74). -/
theorem gridCheck_none {s : State} :
    gridCheck s = none ↔
      gridRows s ≠ 0 ∧ gridCols s ≠ 0 ∧ gridRows s * gridCols s ≤ s.params.coefWords := by
  unfold gridCheck
  split
  · rename_i h
    constructor
    · intro h'
      cases h'
    · rintro ⟨h1, h2, h3⟩
      omega
  · rename_i h
    constructor
    · intro _
      omega
    · intro _
      rfl

/-- The grid check raises nothing but SIZE (R74). -/
theorem gridCheck_some {s : State} {e : ErrCode} :
    gridCheck s = some e ↔
      e = .size ∧ (gridRows s = 0 ∨ gridCols s = 0 ∨
        s.params.coefWords < gridRows s * gridCols s) := by
  unfold gridCheck
  split
  · rename_i h
    constructor
    · intro h'
      cases h'
      exact ⟨rfl, h⟩
    · rintro ⟨rfl, -⟩
      rfl
  · rename_i h
    constructor
    · intro h'
      cases h'
    · rintro ⟨-, h'⟩
      exact absurd h' h

end Sys2Proof.Machine
end

