-- ==== Sys2Proof/Laws/Memory.lean ====
section
/-! SUPPORT. The laws of memory: a read after a write, the canonical form kept by every operation, and equality
of memories that read the same. -/

namespace Sys2Proof.Machine

variable {w : Nat}

theorem Memory.risesFrom_cons (lo a : Nat) (v : BitVec w) (m : Memory w) :
    Memory.risesFrom lo ((a, v) :: m) = true ↔
      lo ≤ a ∧ v ≠ 0#w ∧ Memory.risesFrom (a + 1) m = true := by
  simp [Memory.risesFrom, and_assoc]

theorem Memory.risesFrom_le {lo lo' : Nat} (h : lo' ≤ lo) {m : Memory w}
    (hm : Memory.risesFrom lo m = true) : Memory.risesFrom lo' m = true := by
  cases m with
  | nil => rfl
  | cons c m =>
    rw [Memory.risesFrom_cons] at hm ⊢
    exact ⟨by omega, hm.2⟩

/-- Below the first listed index every cell reads 0. -/
theorem Memory.read_below {lo a : Nat} (h : a < lo) {m : Memory w}
    (hm : Memory.risesFrom lo m = true) : m.read a = 0#w := by
  induction m generalizing lo with
  | nil => rfl
  | cons c m ih =>
    rw [Memory.risesFrom_cons] at hm
    have hne : a ≠ c.1 := by omega
    simp only [Memory.read, if_neg hne]
    exact ih (by omega) hm.2.2

/-- A write keeps the canonical form. -/
theorem Memory.write_risesFrom {lo a : Nat} (ha : lo ≤ a) (v : BitVec w) {m : Memory w}
    (hm : Memory.risesFrom lo m = true) : Memory.risesFrom lo (m.write a v) = true := by
  induction m generalizing lo with
  | nil =>
    by_cases hv : v = 0#w
    · simp [Memory.write, hv, Memory.risesFrom]
    · simp [Memory.write, hv, Memory.risesFrom, ha]
  | cons c m ih =>
    obtain ⟨b, u⟩ := c
    have hc := (Memory.risesFrom_cons _ _ _ _).1 hm
    obtain ⟨h1, h2, h3⟩ := hc
    simp only [Memory.write]
    split
    · split
      · exact hm
      · rename_i hv
        exact (Memory.risesFrom_cons _ _ _ _).2
          ⟨ha, hv, (Memory.risesFrom_cons _ _ _ _).2 ⟨by omega, h2, h3⟩⟩
    · split
      · split
        · exact Memory.risesFrom_le (by omega) h3
        · rename_i hab hv
          exact (Memory.risesFrom_cons _ _ _ _).2 ⟨ha, hv, by rw [hab]; exact h3⟩
      · exact (Memory.risesFrom_cons _ _ _ _).2 ⟨h1, h2, ih (by omega) h3⟩

theorem Memory.write_wf (a : Nat) (v : BitVec w) {m : Memory w} (hm : m.wf = true) :
    (m.write a v).wf = true :=
  Memory.write_risesFrom (Nat.zero_le a) v hm

/-- A write leaves every other cell alone. -/
theorem Memory.read_write_other (m : Memory w) {a b : Nat} (h : b ≠ a) (v : BitVec w) :
    (m.write a v).read b = m.read b := by
  induction m with
  | nil =>
    by_cases hv : v = 0#w
    · simp [Memory.write, hv]
    · simp [Memory.write, hv, Memory.read, h]
  | cons c m ih =>
    obtain ⟨d, u⟩ := c
    simp only [Memory.write]
    split
    · split
      · rfl
      · simp [Memory.read, h]
    · split
      · rename_i hd
        have hbd : b ≠ d := by omega
        split
        · simp [Memory.read, hbd]
        · simp [Memory.read, h, hbd]
      · simp only [Memory.read, ih]

theorem Memory.read_write_same_of_rises {lo a : Nat} (v : BitVec w) {m : Memory w}
    (hm : Memory.risesFrom lo m = true) : (m.write a v).read a = v := by
  induction m generalizing lo with
  | nil =>
    by_cases hv : v = 0#w
    · simp [Memory.write, hv, Memory.read]
    · simp [Memory.write, hv, Memory.read]
  | cons c m ih =>
    obtain ⟨d, u⟩ := c
    obtain ⟨h1, h2, h3⟩ := (Memory.risesFrom_cons _ _ _ _).1 hm
    simp only [Memory.write]
    split
    · rename_i had
      split
      · rename_i hv
        rw [Memory.read, if_neg (by omega), hv]
        exact Memory.read_below (by omega) h3
      · simp [Memory.read]
    · split
      · rename_i had
        split
        · rename_i hv
          rw [hv]
          exact Memory.read_below (by omega) h3
        · simp [Memory.read]
      · rename_i hne
        rw [Memory.read, if_neg hne]
        exact ih h3

/-- A read after a write to the same cell gives the value written. -/
theorem Memory.read_write_same {m : Memory w} (hm : m.wf = true) (a : Nat) (v : BitVec w) :
    (m.write a v).read a = v :=
  Memory.read_write_same_of_rises v hm

theorem Memory.read_write {m : Memory w} (hm : m.wf = true) (a b : Nat) (v : BitVec w) :
    (m.write a v).read b = if b = a then v else m.read b := by
  split
  · rename_i h
    rw [h, Memory.read_write_same hm]
  · rename_i h
    exact Memory.read_write_other m h v

/-- A write inside a memory of n cells keeps every listed index inside it. -/
theorem Memory.write_below {n a : Nat} (ha : a < n) (v : BitVec w) {m : Memory w}
    (hm : m.below n = true) : (m.write a v).below n = true := by
  induction m with
  | nil =>
    by_cases hv : v = 0#w
    · simp [Memory.write, hv, Memory.below]
    · simp [Memory.write, hv, Memory.below, ha]
  | cons c m ih =>
    obtain ⟨d, u⟩ := c
    simp only [Memory.below, List.all_cons, Bool.and_eq_true, decide_eq_true_eq] at hm ih ⊢
    simp only [Memory.write]
    split
    · split
      · simpa using hm
      · simpa [ha] using hm
    · split
      · split
        · exact hm.2
        · simpa [ha] using hm.2
      · simp only [List.all_cons, Bool.and_eq_true, decide_eq_true_eq]
        exact ⟨hm.1, ih hm.2⟩

/-- Memories in canonical form that read the same are equal. -/
theorem Memory.ext_of_rises {lo : Nat} {m m' : Memory w} (hm : Memory.risesFrom lo m = true)
    (hm' : Memory.risesFrom lo m' = true) (h : ∀ a, m.read a = m'.read a) : m = m' := by
  induction m generalizing lo m' with
  | nil =>
    cases m' with
    | nil => rfl
    | cons c m' =>
      obtain ⟨d, u⟩ := c
      have hc := (Memory.risesFrom_cons _ _ _ _).1 hm'
      have := h d
      simp only [Memory.read, if_pos] at this
      exact absurd this.symm hc.2.1
  | cons c m ih =>
    obtain ⟨d, u⟩ := c
    have hc := (Memory.risesFrom_cons _ _ _ _).1 hm
    cases m' with
    | nil =>
      have := h d
      simp only [Memory.read, if_pos] at this
      exact absurd this hc.2.1
    | cons c' m' =>
      obtain ⟨d', u'⟩ := c'
      have hc' := (Memory.risesFrom_cons _ _ _ _).1 hm'
      have hdd : d = d' := by
        rcases Nat.lt_trichotomy d d' with hlt | heq | hgt
        · have := h d
          rw [Memory.read, if_pos rfl, Memory.read, if_neg (by omega),
            Memory.read_below (by omega) hc'.2.2] at this
          exact absurd this hc.2.1
        · exact heq
        · have := h d'
          rw [Memory.read, if_neg (by omega), Memory.read_below (by omega) hc.2.2, Memory.read,
            if_pos rfl] at this
          exact absurd this.symm hc'.2.1
      subst hdd
      have huu : u = u' := by
        have := h d
        simpa [Memory.read] using this
      subst huu
      rw [ih hc.2.2 hc'.2.2]
      intro a
      by_cases had : a = d
      · rw [Memory.read_below (by omega) hc.2.2, Memory.read_below (by omega) hc'.2.2]
      · have := h a
        simpa [Memory.read, had] using this

theorem Memory.ext {m m' : Memory w} (hm : m.wf = true) (hm' : m'.wf = true)
    (h : ∀ a, m.read a = m'.read a) : m = m' :=
  Memory.ext_of_rises hm hm' h

/-! ## Filling a range -/

/-- A property kept by each pass is kept by the loop. -/
theorem foldUp_keeps {σ : Type} {P : σ → Prop} {n : Nat} {f : Nat → σ → σ} {x : σ}
    (hf : ∀ i y, i < n → P y → P (f i y)) (hx : P x) : P (foldUp n f x) := by
  induction n with
  | zero => exact hx
  | succ n ih => exact hf n _ (Nat.lt_succ_self n) (ih fun i y hi => hf i y (by omega))

theorem fillRange_wf (lo hi : Nat) (v : Nat → BitVec w) {m : Memory w} (hm : m.wf = true) :
    (fillRange lo hi v m).wf = true :=
  foldUp_keeps (P := fun m : Memory w => m.wf = true) (fun _ _ _ h => Memory.write_wf _ _ h) hm

theorem fillRange_below {n : Nat} (lo hi : Nat) (hhi : hi ≤ n) (v : Nat → BitVec w) {m : Memory w}
    (hm : m.below n = true) : (fillRange lo hi v m).below n = true :=
  foldUp_keeps (P := fun m : Memory w => m.below n = true)
    (fun _ _ _ h => Memory.write_below (by omega) _ h) hm

/-- Filling changes no cell outside the range. -/
theorem fillRange_read_other (lo hi : Nat) (v : Nat → BitVec w) (m : Memory w) {a : Nat}
    (ha : a < lo ∨ hi ≤ a) : (fillRange lo hi v m).read a = m.read a :=
  foldUp_keeps (P := fun m' : Memory w => m'.read a = m.read a)
    (fun i y _ h => by rw [Memory.read_write_other _ (by omega), h]) rfl

end Sys2Proof.Machine
end

