-- ==== Sys2Proof/Laws/PerInstr.lean ====
section
/-! SUPPORT. Statements for all instructions, one lemma per constructor. Family `Encoding`: where the fields of a
command word stand (30_encoding.md R70). -/

namespace Sys2Proof.Laws.Encoding

/-- OP stands in bits 7:0 of the command word, N in 12:8, Q in 14:13, and the reserved bits are 0 (R70). -/
def Statement (i : Instr) : Prop :=
  fieldOp (encode i) = i.opcode ∧ fieldN (encode i) = i.count ∧ fieldQ (encode i) = i.quadrant ∧
    fieldRsv (encode i) = 0

/-- The fields of a packed word are what was packed. -/
theorem fields_packWord (rsv : BitVec 17) (q : BitVec 2) (n : BitVec 5) (op : BitVec 8) :
    fieldOp (packWord rsv q n op) = op ∧ fieldN (packWord rsv q n op) = n ∧
      fieldQ (packWord rsv q n op) = q ∧ fieldRsv (packWord rsv q n op) = rsv := by
  have ho := op.isLt
  have hn := n.isLt
  have hq := q.isLt
  have hr := rsv.isLt
  have hw : (packWord rsv q n op).toNat =
      rsv.toNat * 2 ^ 15 + q.toNat * 2 ^ 13 + n.toNat * 2 ^ 8 + op.toNat := by
    simp only [packWord, BitVec.toNat_append]
    rw [← Nat.shiftLeft_add_eq_or_of_lt hq, ← Nat.shiftLeft_add_eq_or_of_lt hn,
      ← Nat.shiftLeft_add_eq_or_of_lt ho]
    simp only [Nat.shiftLeft_eq]
    ring
  refine ⟨?_, ?_, ?_, ?_⟩ <;> apply BitVec.eq_of_toNat_eq <;>
    simp only [fieldOp, fieldN, fieldQ, fieldRsv, BitVec.extractLsb'_toNat, hw,
      Nat.shiftRight_eq_div_pow] <;>
    omega

theorem of_encode (i : Instr) : Statement i := by
  obtain ⟨h1, h2, h3, h4⟩ := fields_packWord 0 i.quadrant i.count i.opcode
  exact ⟨h1, h2, h3, h4⟩

theorem nop : Statement .nop := of_encode _

theorem srst : Statement .srst := of_encode _

theorem clr : Statement .clr := of_encode _

theorem rdu8 : Statement .rdu8 := of_encode _

theorem rdu16 : Statement .rdu16 := of_encode _

theorem rdu32 : Statement .rdu32 := of_encode _

theorem wru8 : Statement .wru8 := of_encode _

theorem wru16 : Statement .wru16 := of_encode _

theorem wru32 : Statement .wru32 := of_encode _

theorem getbit : Statement .getbit := of_encode _

theorem getbits (n : BitVec 5) : Statement (.getbits n) := of_encode _

theorem bralign : Statement .bralign := of_encode _

theorem putbit : Statement .putbit := of_encode _

theorem putbits (n : BitVec 5) : Statement (.putbits n) := of_encode _

theorem bwflush : Statement .bwflush := of_encode _

theorem htrans : Statement .htrans := of_encode _

theorem hinv : Statement .hinv := of_encode _

theorem digitize : Statement .digitize := of_encode _

theorem undigitize : Statement .undigitize := of_encode _

theorem huffsym : Statement .huffsym := of_encode _

theorem qtdec (q : BitVec 2) : Statement (.qtdec q) := of_encode _

theorem term : Statement .term := of_encode _

theorem signs : Statement .signs := of_encode _

theorem riceval (k : BitVec 5) : Statement (.riceval k) := of_encode _

theorem ricedec (q : BitVec 2) : Statement (.ricedec q) := of_encode _

end Sys2Proof.Laws.Encoding
end

