-- ==== Sys2Proof/Laws/Reset.lean ====
section
/-! SUPPORT. One lemma per field for the reset input (R250, R251). -/

namespace Sys2Proof.Machine

/-! ## `hardReset` -/

@[simp] theorem hardReset_params (s : State) : (hardReset s).params = s.params := rfl

@[simp] theorem hardReset_busy (s : State) : (hardReset s).busy = State.reset.busy := rfl

@[simp] theorem hardReset_done (s : State) : (hardReset s).done = State.reset.done := rfl

@[simp] theorem hardReset_err (s : State) : (hardReset s).err = State.reset.err := rfl

@[simp] theorem hardReset_lastOp (s : State) : (hardReset s).lastOp = State.reset.lastOp := rfl

@[simp] theorem hardReset_flagW (s : State) : (hardReset s).flagW = State.reset.flagW := rfl

@[simp] theorem hardReset_ie (s : State) : (hardReset s).ie = State.reset.ie := rfl

@[simp] theorem hardReset_rows (s : State) : (hardReset s).rows = State.reset.rows := rfl

@[simp] theorem hardReset_cols (s : State) : (hardReset s).cols = State.reset.cols := rfl

@[simp] theorem hardReset_scale (s : State) : (hardReset s).scale = State.reset.scale := rfl

@[simp] theorem hardReset_nbp0 (s : State) : (hardReset s).nbp0 = State.reset.nbp0 := rfl

@[simp] theorem hardReset_nbp1 (s : State) : (hardReset s).nbp1 = State.reset.nbp1 := rfl

@[simp] theorem hardReset_nbp2 (s : State) : (hardReset s).nbp2 = State.reset.nbp2 := rfl

@[simp] theorem hardReset_nbp3 (s : State) : (hardReset s).nbp3 = State.reset.nbp3 := rfl

@[simp] theorem hardReset_arg (s : State) : (hardReset s).arg = State.reset.arg := rfl

@[simp] theorem hardReset_result (s : State) : (hardReset s).result = State.reset.result := rfl

@[simp] theorem hardReset_inLen (s : State) : (hardReset s).inLen = State.reset.inLen := rfl

@[simp] theorem hardReset_rd (s : State) : (hardReset s).rd = State.reset.rd := rfl

@[simp] theorem hardReset_wr (s : State) : (hardReset s).wr = State.reset.wr := rfl

@[simp] theorem hardReset_ricek (s : State) : (hardReset s).ricek = State.reset.ricek := rfl

@[simp] theorem hardReset_coef (s : State) : (hardReset s).coef = s.coef := rfl

@[simp] theorem hardReset_inMem (s : State) : (hardReset s).inMem = s.inMem := rfl

@[simp] theorem hardReset_outMem (s : State) : (hardReset s).outMem = s.outMem := rfl

@[simp] theorem hardReset_host (s : State) : (hardReset s).host = s.host := rfl

@[simp] theorem hardReset_hostData (s : State) : (hardReset s).hostData = s.hostData := rfl

@[simp] theorem hardReset_draws (s : State) : (hardReset s).draws = s.draws := rfl

end Sys2Proof.Machine
end

