-- ==== Sys2Proof/Laws/Streams.lean ====
section
/-! SUPPORT. What the reader's and the writer's operations answer, said once (R110 to R115). -/

namespace Sys2Proof.Machine

/-- `ReadByte` answers exactly when a byte is left, and what (R110). -/
theorem readByte_ok {src : Source} {r : BitReader} {p : Byte × BitReader} :
    readByte src r = .ok p ↔
      r.pos.toNat < src.len.toNat ∧ p = (src.mem.read r.pos.toNat, { r with pos := r.pos + 1 }) := by
  unfold readByte
  split
  · rename_i h
    rw [BitVec.le_def] at h
    constructor
    · intro h'
      cases h'
    · rintro ⟨h', -⟩
      omega
  · rename_i h
    rw [BitVec.le_def] at h
    constructor
    · intro h'
      cases h'
      exact ⟨by omega, rfl⟩
    · rintro ⟨-, rfl⟩
      rfl

/-- `ReadByte` raises TRUNCATED and nothing else (R110). -/
theorem readByte_error {src : Source} {r : BitReader} {e : ErrCode} :
    readByte src r = .error e ↔ src.len.toNat ≤ r.pos.toNat ∧ e = .truncated := by
  unfold readByte
  split
  · rename_i h
    rw [BitVec.le_def] at h
    constructor
    · intro h'
      cases h'
      exact ⟨h, rfl⟩
    · rintro ⟨-, rfl⟩
      rfl
  · rename_i h
    rw [BitVec.le_def] at h
    constructor
    · intro h'
      cases h'
    · rintro ⟨h', -⟩
      omega

theorem pos_succ_toNat {src : Source} {r : BitReader} (h : r.pos.toNat < src.len.toNat) :
    (r.pos + 1).toNat = r.pos.toNat + 1 := by
  have := src.len.isLt
  rw [BitVec.toNat_add]
  simp
  omega

/-- The reader's count of bits left, one bit on. -/
theorem bitsLeft_after_one {src : Source} {r : BitReader} (hc : r.cnt.toNat ≤ 7)
    (h : 0 < bitsLeft src r) :
    bitsLeft src (readerAfter src r 1) = bitsLeft src r - 1 ∧ (readerAfter src r 1).cnt.toNat ≤ 7 := by
  unfold bitsLeft at h
  by_cases h0 : r.cnt.toNat = 0
  · have hp : r.pos.toNat < src.len.toNat := by omega
    have hpos := pos_succ_toNat hp
    have hr : readerAfter src r 1 =
        { buf := src.mem.read r.pos.toNat, cnt := 7, pos := r.pos + 1 } := by
      simp [readerAfter, h0, bytesFor]
    rw [hr]
    simp only [bitsLeft, hpos, h0]
    refine ⟨?_, by decide⟩
    change 7 + _ = _
    omega
  · have hr : readerAfter src r 1 = { r with cnt := BitVec.ofNat 4 (r.cnt.toNat - 1) } := by
      simp [readerAfter, show 1 ≤ r.cnt.toNat by omega]
    have ht : (BitVec.ofNat 4 (r.cnt.toNat - 1)).toNat = r.cnt.toNat - 1 := by
      rw [BitVec.toNat_ofNat]
      omega
    rw [hr]
    simp only [bitsLeft, ht]
    omega

/-- `GetBit` with a bit left takes the stream's next one (R112). -/
theorem getBit_of_left {src : Source} {r : BitReader} (hc : r.cnt.toNat ≤ 7)
    (h : 0 < bitsLeft src r) :
    getBit src r = .ok (streamBit src r 0, readerAfter src r 1) := by
  unfold bitsLeft at h
  unfold getBit refill
  by_cases h0 : r.cnt.toNat = 0
  · have hp : r.pos.toNat < src.len.toNat := by omega
    have hz : r.cnt = 0 := BitVec.eq_of_toNat_eq (by simpa using h0)
    rw [if_pos hz, (readByte_ok (p := (src.mem.read r.pos.toNat, { r with pos := r.pos + 1 }))).2 ⟨hp, rfl⟩]
    simp [readerAfter, streamBit, h0, bytesFor]
  · have hz : r.cnt ≠ 0 := fun hh => h0 (by rw [hh]; rfl)
    have ht : (r.cnt - 1).toNat = r.cnt.toNat - 1 := by
      have := r.cnt.isLt
      rw [BitVec.toNat_sub]
      simp
      omega
    have hcnt : r.cnt - 1 = BitVec.ofNat 4 (r.cnt.toNat - 1) := by
      apply BitVec.eq_of_toNat_eq
      rw [ht, BitVec.toNat_ofNat]
      omega
    rw [if_neg hz]
    simp only [ok_bind, ht]
    simp [readerAfter, streamBit, show 1 ≤ r.cnt.toNat by omega, show 0 < r.cnt.toNat by omega]
    exact hcnt

/-- `GetBit` with no bit left raises TRUNCATED (R112). -/
theorem getBit_of_none {src : Source} {r : BitReader} (h : bitsLeft src r = 0) :
    getBit src r = .error .truncated := by
  unfold bitsLeft at h
  have hz : r.cnt = 0 := BitVec.eq_of_toNat_eq (by simp; omega)
  unfold getBit refill
  rw [if_pos hz, readByte_error.2 ⟨by omega, rfl⟩]
  rfl

/-- `GetBit` raises nothing but TRUNCATED (R112). -/
theorem getBit_error {src : Source} {r : BitReader} {e : ErrCode} (h : getBit src r = .error e) :
    e = .truncated := by
  unfold getBit refill at h
  split at h
  · rcases bind_error.1 h with h | ⟨a, -, h⟩
    · rcases bind_error.1 h with h | ⟨a, -, h⟩
      · exact (readByte_error.1 h).2
      · cases h
    · cases h
  · cases h

/-- The stream seen by the reader one bit on. -/
theorem streamBit_after_one {src : Source} {r : BitReader} (hc : r.cnt.toNat ≤ 7)
    (h : 0 < bitsLeft src r) (t : Nat) :
    streamBit src (readerAfter src r 1) t = streamBit src r (t + 1) := by
  unfold bitsLeft at h
  by_cases h0 : r.cnt.toNat = 0
  · have hp : r.pos.toNat < src.len.toNat := by omega
    have hpos := pos_succ_toNat hp
    have hr : readerAfter src r 1 =
        { buf := src.mem.read r.pos.toNat, cnt := 7, pos := r.pos + 1 } := by
      simp [readerAfter, h0, bytesFor]
    rw [hr]
    unfold streamBit
    simp only [hpos, h0, show (7 : BitVec 4).toNat = 7 from rfl]
    by_cases ht : t < 7
    · rw [if_pos ht, if_neg (by omega), show (t + 1 - 0) / 8 = 0 by omega,
        show (t + 1 - 0) % 8 = t + 1 by omega, Nat.add_zero]
      congr 1
      omega
    · rw [if_neg ht, if_neg (by omega), show r.pos.toNat + 1 + (t - 7) / 8 = r.pos.toNat + (t + 1 - 0) / 8 by omega,
        show (t - 7) % 8 = (t + 1 - 0) % 8 by omega]
  · have hr : readerAfter src r 1 = { r with cnt := BitVec.ofNat 4 (r.cnt.toNat - 1) } := by
      simp [readerAfter, show 1 ≤ r.cnt.toNat by omega]
    have ht : (BitVec.ofNat 4 (r.cnt.toNat - 1)).toNat = r.cnt.toNat - 1 := by
      rw [BitVec.toNat_ofNat]
      omega
    rw [hr]
    unfold streamBit
    simp only [ht]
    by_cases hlt : t < r.cnt.toNat - 1
    · rw [if_pos hlt, if_pos (by omega)]
      congr 1
      omega
    · rw [if_neg hlt, if_neg (by omega), show t - (r.cnt.toNat - 1) = t + 1 - r.cnt.toNat by omega]

/-- The reader n bits on from one bit on is the reader n + 1 bits on. -/
theorem readerAfter_after_one {src : Source} {r : BitReader} (hc : r.cnt.toNat ≤ 7) {n : Nat}
    (h : n + 1 ≤ bitsLeft src r) :
    readerAfter src (readerAfter src r 1) n = readerAfter src r (n + 1) := by
  unfold bitsLeft at h
  by_cases h0 : r.cnt.toNat = 0
  · have hp : r.pos.toNat < src.len.toNat := by omega
    have hpos := pos_succ_toNat hp
    have hr : readerAfter src r 1 =
        { buf := src.mem.read r.pos.toNat, cnt := 7, pos := r.pos + 1 } := by
      simp [readerAfter, h0, bytesFor]
    rw [hr]
    unfold readerAfter bytesFor
    simp only [hpos, h0, show (7 : BitVec 4).toNat = 7 from rfl]
    rw [if_neg (show ¬ n + 1 ≤ 0 by omega)]
    by_cases hn : n ≤ 7
    · rw [if_pos hn, show (n + 1 - 0 + 7) / 8 = 1 by omega]
      simp only [Nat.add_sub_cancel, BitReader.mk.injEq, true_and]
      refine ⟨?_, rfl⟩
      congr 1
      omega
    · rw [if_neg hn, show (n + 1 - 0 + 7) / 8 = (n - 7 + 7) / 8 + 1 by omega]
      simp only [BitReader.mk.injEq]
      refine ⟨?_, ?_, ?_⟩
      · congr 1
        omega
      · congr 1
        omega
      · rw [BitVec.ofNat_add, BitVec.add_assoc, BitVec.add_comm (1 : BitVec 32)]
        rfl
  · have hr : readerAfter src r 1 = { r with cnt := BitVec.ofNat 4 (r.cnt.toNat - 1) } := by
      simp [readerAfter, show 1 ≤ r.cnt.toNat by omega]
    have ht : (BitVec.ofNat 4 (r.cnt.toNat - 1)).toNat = r.cnt.toNat - 1 := by
      rw [BitVec.toNat_ofNat]
      omega
    rw [hr]
    unfold readerAfter bytesFor
    simp only [ht]
    by_cases hn : n ≤ r.cnt.toNat - 1
    · rw [if_pos hn, if_pos (by omega), show r.cnt.toNat - 1 - n = r.cnt.toNat - (n + 1) by omega]
    · rw [if_neg hn, if_neg (by omega),
        show n - (r.cnt.toNat - 1) = n + 1 - r.cnt.toNat by omega]
      simp only [BitReader.mk.injEq, true_and, and_true]
      congr 1
      omega

theorem streamValue_after_one {src : Source} {r : BitReader} (hc : r.cnt.toNat ≤ 7)
    (h : 0 < bitsLeft src r) (t n : Nat) :
    streamValue src (readerAfter src r 1) t n = streamValue src r (t + 1) n := by
  induction n with
  | zero => rfl
  | succ n ih => simp only [streamValue, ih, streamBit_after_one hc h, show t + 1 + n = t + n + 1 by omega]

/-- The value of n + 1 bits, its first bit taken out. -/
theorem streamValue_succ_first (src : Source) (r : BitReader) (t n : Nat) :
    streamValue src r t (n + 1) =
      (streamBit src r t).toNat * 2 ^ n + streamValue src r (t + 1) n := by
  induction n with
  | zero => simp [streamValue]
  | succ n ih =>
    rw [streamValue, ih, streamValue, show t + 1 + n = t + (n + 1) by omega, Nat.pow_succ]
    ring

/-- `GetBits` with n bits left takes the stream's next n (R113). -/
theorem getBitsFrom_of_left {src : Source} (n v : Nat) {r : BitReader} (hc : r.cnt.toNat ≤ 7)
    (h : n ≤ bitsLeft src r) :
    getBitsFrom src n v r = .ok (v * 2 ^ n + streamValue src r 0 n, readerAfter src r n) := by
  induction n generalizing v r with
  | zero =>
    have : (BitVec.ofNat 4 r.cnt.toNat) = r.cnt := BitVec.eq_of_toNat_eq (by simp)
    simp [getBitsFrom, streamValue, readerAfter, this]
  | succ n ih =>
    have h1 := bitsLeft_after_one hc (show 0 < bitsLeft src r by omega)
    rw [getBitsFrom, getBit_of_left hc (by omega)]
    simp only [ok_bind]
    rw [ih _ h1.2 (by omega), readerAfter_after_one hc h, streamValue_after_one hc (by omega),
      streamValue_succ_first]
    congr 2
    rw [Nat.pow_succ]
    ring

/-- `GetBits` with n bits left takes the stream's next n (R113). -/
theorem getBits_of_left {src : Source} {n : Nat} {r : BitReader} (hc : r.cnt.toNat ≤ 7)
    (h : n ≤ bitsLeft src r) :
    getBits src n r = .ok (streamValue src r 0 n, readerAfter src r n) := by
  rw [getBits, getBitsFrom_of_left n 0 hc h, Nat.zero_mul, Nat.zero_add]

/-- `GetBits` with fewer than n bits left raises TRUNCATED (R113). -/
theorem getBitsFrom_of_short {src : Source} (n v : Nat) {r : BitReader} (hc : r.cnt.toNat ≤ 7)
    (h : bitsLeft src r < n) : getBitsFrom src n v r = .error .truncated := by
  induction n generalizing v r with
  | zero => omega
  | succ n ih =>
    rw [getBitsFrom]
    by_cases h0 : bitsLeft src r = 0
    · rw [getBit_of_none h0]
      rfl
    · have h1 := bitsLeft_after_one hc (show 0 < bitsLeft src r by omega)
      rw [getBit_of_left hc (by omega)]
      exact ih _ h1.2 (by
        dsimp only
        omega)

/-- The reader n bits on from m bits on is the reader m + n bits on; the count stays 0 to 7 and n fewer are left. -/
theorem readerAfter_spec {src : Source} (m : Nat) {r : BitReader} (hc : r.cnt.toNat ≤ 7)
    (h : m ≤ bitsLeft src r) :
    (readerAfter src r m).cnt.toNat ≤ 7 ∧
      bitsLeft src (readerAfter src r m) = bitsLeft src r - m ∧
      (∀ t, streamBit src (readerAfter src r m) t = streamBit src r (m + t)) ∧
      ∀ n, m + n ≤ bitsLeft src r →
        readerAfter src (readerAfter src r m) n = readerAfter src r (m + n) := by
  induction m generalizing r with
  | zero =>
    have hr : readerAfter src r 0 = r := by
      have : (BitVec.ofNat 4 r.cnt.toNat) = r.cnt := BitVec.eq_of_toNat_eq (by simp)
      simp [readerAfter, this]
    rw [hr]
    exact ⟨hc, by omega, fun t => by rw [Nat.zero_add], fun n _ => by rw [Nat.zero_add]⟩
  | succ m ih =>
    have h1 := bitsLeft_after_one hc (show 0 < bitsLeft src r by omega)
    have hi := ih h1.2 (by omega)
    rw [readerAfter_after_one hc h] at hi
    refine ⟨hi.1, by omega, fun t => ?_, fun n hn => ?_⟩
    · rw [hi.2.2.1, streamBit_after_one hc (by omega), show m + t + 1 = m + 1 + t by omega]
    · rw [hi.2.2.2 n (by omega), readerAfter_after_one hc (by omega),
        show m + n + 1 = m + 1 + n by omega]

/-! ## The writer -/

/-- `EmitByte` answers exactly when OUT has room, and what (R111). -/
theorem emitByte_ok {room : Nat} {b : Byte} {k k' : Sink} :
    emitByte room b k = .ok k' ↔
      k.wr.pos.toNat < room ∧
        k' = { wr := { k.wr with pos := k.wr.pos + 1 }, mem := k.mem.write k.wr.pos.toNat b } := by
  unfold emitByte
  split
  · constructor
    · intro h
      cases h
    · rintro ⟨h, -⟩
      omega
  · constructor
    · intro h
      cases h
      exact ⟨by omega, rfl⟩
    · rintro ⟨-, rfl⟩
      rfl

/-- `EmitByte` raises OUTFULL and nothing else (R111). -/
theorem emitByte_error {room : Nat} {b : Byte} {k : Sink} {e : ErrCode} :
    emitByte room b k = .error e ↔ room ≤ k.wr.pos.toNat ∧ e = .outFull := by
  unfold emitByte
  split
  · constructor
    · intro h
      cases h
      exact ⟨by assumption, rfl⟩
    · rintro ⟨-, rfl⟩
      rfl
  · constructor
    · intro h
      cases h
    · rintro ⟨h, -⟩
      omega

/-- What `PutBit` answers: a bit buffered, or a byte emitted and the buffer empty (R114). -/
theorem putBit_ok {room : Nat} {b : Bool} {k k' : Sink} (h : putBit room b k = .ok k') :
    (k.wr.cnt + 1 ≠ 8 ∧
      k' = { k with
        wr := { k.wr with
          buf := k.wr.buf <<< 1 ||| (BitVec.ofBool b).zeroExtend 8
          cnt := k.wr.cnt + 1 } }) ∨
    (k.wr.cnt + 1 = 8 ∧ k.wr.pos.toNat < room ∧
      k' =
        { wr := ⟨0, 0, k.wr.pos + 1⟩
          mem := k.mem.write k.wr.pos.toNat
            (k.wr.buf <<< 1 ||| (BitVec.ofBool b).zeroExtend 8) }) := by
  unfold putBit at h
  simp only at h
  split at h
  · rename_i hc
    obtain ⟨k1, h1, h2⟩ := bind_ok.1 h
    obtain ⟨hp, rfl⟩ := emitByte_ok.1 h1
    cases h2
    exact .inr ⟨hc, hp, rfl⟩
  · rename_i hc
    cases h
    exact .inl ⟨hc, rfl⟩

/-- `PutBit` raises nothing but OUTFULL (R114). -/
theorem putBit_error {room : Nat} {b : Bool} {k : Sink} {e : ErrCode}
    (h : putBit room b k = .error e) : e = .outFull := by
  unfold putBit at h
  simp only at h
  split at h
  · rcases bind_error.1 h with h | ⟨a, -, h⟩
    · exact (emitByte_error.1 h).2
    · cases h
  · cases h

/-! ## Coefficient words -/

/-- `Store32` answers exactly when the value fits 32 bits, and what (R9). -/
theorem store_ok {a : Nat} {v : Int} {c c' : Memory 32} :
    store a v c = .ok c' ↔
      -2147483648 ≤ v ∧ v ≤ 2147483647 ∧ c' = c.write a (BitVec.ofInt 32 v) := by
  unfold store
  split
  · constructor
    · intro h
      cases h
    · rintro ⟨h, h', -⟩
      omega
  · constructor
    · intro h
      cases h
      exact ⟨by omega, by omega, rfl⟩
    · rintro ⟨-, -, rfl⟩
      rfl

/-- `Store32` raises RANGE and nothing else (R9). -/
theorem store_error {a : Nat} {v : Int} {c : Memory 32} {e : ErrCode} :
    store a v c = .error e ↔ (v < -2147483648 ∨ 2147483647 < v) ∧ e = .range := by
  unfold store
  split
  · constructor
    · intro h
      cases h
      exact ⟨by assumption, rfl⟩
    · rintro ⟨-, rfl⟩
      rfl
  · constructor
    · intro h
      cases h
    · rintro ⟨h, -⟩
      omega

/-- A word that fits reads back as the integer stored (R9, R38). -/
theorem toInt_ofInt_of_fits {v : Int} (h : -2147483648 ≤ v) (h' : v ≤ 2147483647) :
    (BitVec.ofInt 32 v).toInt = v := by
  rw [BitVec.toInt_ofInt]
  simp only [Int.bmod]
  omega

end Sys2Proof.Machine
end

