-- ==== Sys2Proof/Tests/Slice0.lean ====
section
/-! SUPPORT. Tests of the model: ill-formed terms refused, a word of every command written out from R70 and R72, one
step of each command with the values of 95_test_vectors.md, and for each statement with hypotheses a concrete case
that meets them. -/

namespace Sys2Proof.Machine.Tests

set_option Elab.async false

/-! ## Small states -/

/-- The bytes at index `a` on, put into a memory. -/
def load (a : Nat) : List Byte → Memory 8 → Memory 8
  | [], m => m
  | b :: bs, m => load (a + 1) bs (m.write a b)

/-- The words at index `a` on, put into a memory. -/
def loadWords (a : Nat) : List Int → Memory 32 → Memory 32
  | [], m => m
  | v :: vs, m => loadWords (a + 1) vs (m.write a (BitVec.ofInt 32 v))

/-- Reset with these bytes in IN, IN_LEN their number. -/
def input (bs : List Byte) : State :=
  { State.reset with inMem := load 0 bs [], inLen := BitVec.ofNat 32 bs.length }

/-- `input` with a partial byte in the reader. -/
def partly (buf : Byte) (cnt : BitVec 4) (bs : List Byte) : State :=
  { input bs with rd := ⟨buf, cnt, 0⟩ }

/-- Reset with this writer and ARG. -/
def writer (buf : Byte) (cnt : BitVec 4) (pos arg : Word) : State :=
  { State.reset with wr := ⟨buf, cnt, pos⟩, arg := arg }

/-- `input` with a grid. -/
def grid (r c : Half) (ws : List Int) (bs : List Byte) : State :=
  { input bs with rows := r, cols := c, coef := loadWords 0 ws [] }

/-- The outcome is a next state with this property. -/
def ends (f : State → Bool) : Host.Outcome State Fault Refusal → Bool
  | .next t => f t
  | .fault _ => false
  | .refused _ => false

/-- The first `n` words of COEF. -/
def words (n : Nat) (s : State) : List Int := (List.range n).map (coefInt s.coef)

/-! ## Well-formedness (R72, R73) -/

theorem test_getbits_24_wellFormed : (Instr.getbits 24).wellFormed = true := by decide

theorem test_getbits_25_refused : (Instr.getbits 25).wellFormed = false := by decide

theorem test_putbits_25_refused : (Instr.putbits 25).wellFormed = false := by decide

theorem test_riceval_16_refused : (Instr.riceval 16).wellFormed = false := by decide

/-! ## Decoding: each word is RSV (17 bits), Q (2), N (5), OP (8), written out (R70, R72) -/

theorem test_decode_control :
    decode 0b00000000000000000000000000000000#32 = .ok .nop ∧
    decode 0b00000000000000000000000000000001#32 = .ok .srst ∧
    decode 0b00000000000000000000000000000010#32 = .ok .clr := by decide

theorem test_decode_bytes :
    decode 0b00000000000000000000000000010000#32 = .ok .rdu8 ∧
    decode 0b00000000000000000000000000010001#32 = .ok .rdu16 ∧
    decode 0b00000000000000000000000000010010#32 = .ok .rdu32 ∧
    decode 0b00000000000000000000000000010100#32 = .ok .wru8 ∧
    decode 0b00000000000000000000000000010101#32 = .ok .wru16 ∧
    decode 0b00000000000000000000000000010110#32 = .ok .wru32 := by decide

theorem test_decode_bits :
    decode 0b00000000000000000000000000100000#32 = .ok .getbit ∧
    decode 0b00000000000000000001100000100001#32 = .ok (.getbits 24) ∧
    decode 0b00000000000000000000000000100010#32 = .ok .bralign ∧
    decode 0b00000000000000000000000000100100#32 = .ok .putbit ∧
    decode 0b00000000000000000000011100100101#32 = .ok (.putbits 7) ∧
    decode 0b00000000000000000000000000100110#32 = .ok .bwflush := by decide

theorem test_decode_transform :
    decode 0b00000000000000000000000000110000#32 = .ok .htrans ∧
    decode 0b00000000000000000000000000110001#32 = .ok .hinv ∧
    decode 0b00000000000000000000000000110010#32 = .ok .digitize ∧
    decode 0b00000000000000000000000000110011#32 = .ok .undigitize := by decide

theorem test_decode_quadtree :
    decode 0b00000000000000000000000001000000#32 = .ok .huffsym ∧
    decode 0b00000000000000000110000001000001#32 = .ok (.qtdec 3) ∧
    decode 0b00000000000000000000000001000010#32 = .ok .term ∧
    decode 0b00000000000000000000000001000011#32 = .ok .signs := by decide

theorem test_decode_rice :
    decode 0b00000000000000000000111101010000#32 = .ok (.riceval 15) ∧
    decode 0b00000000000000000010000001010001#32 = .ok (.ricedec 1) := by decide

/-- The illegal words of 95_test_vectors.md section 2.3. -/
theorem test_decode_illegal :
    decode 0x00000003#32 = .error .unassignedOpcode ∧ decode 0x00000013#32 = .error .unassignedOpcode ∧
    decode 0x000000FF#32 = .error .unassignedOpcode ∧ decode 0x00008000#32 = .error .reservedNotZero ∧
    decode 0x80000012#32 = .error .reservedNotZero ∧ decode 0x00002000#32 = .error .quadrantNotZero ∧
    decode 0x00000101#32 = .error .countNotZero ∧ decode 0x00001921#32 = .error .countTooLarge ∧
    decode 0x00001050#32 = .error .countTooLarge ∧ decode 0x00000141#32 = .error .countNotZero ∧
    decode 0x00002040#32 = .error .quadrantNotZero ∧ decode 0x00008041#32 = .error .reservedNotZero := by
  decide

theorem test_encode_spec_words :
    encode (.getbits 5) = 0x00000521#32 ∧ encode (.qtdec 2) = 0x00004041#32 ∧
    encode (.riceval 3) = 0x00000350#32 := by decide

theorem test_fetch_word_runs :
    decodeTableWord 32 0x42 = some .term ∧
    ends (fun t => decide (statusWord t = 0x00000002#32)) (step (State.reset.withFetchWord 32 0)) = true := by
  decide

/-! ## One step of each command (95_test_vectors.md) -/

theorem test_nop : ends (fun t => decide (statusWord t = 0x00000002#32)) (exec .nop State.reset) = true := by
  decide

theorem test_srst_clears_error :
    ends (fun t => decide (statusWord t = 0x00000102#32) && decide (t.rd = ⟨0, 0, 0⟩) && decide (t.result = 0))
      (exec .srst { State.reset with err := .truncated, result := 7, rd := ⟨1, 3, 5⟩ }) = true := by decide

theorem test_clr_2x3 :
    ends (fun t => decide (words 7 t = [0, 0, 0, 0, 0, 0, 7]) && decide (statusWord t = 0x00000202#32))
      (exec .clr (grid 2 3 [1, 2, 3, 4, 5, 6, 7] [])) = true := by decide +kernel

theorem test_rdu8 :
    ends (fun t => decide (t.result = 0xA7) && decide (t.rd.pos = 1)) (exec .rdu8 (input [0xA7])) = true := by
  decide

theorem test_rdu8_seq :
    ends (fun t => decide (statusWord t = 0x00001072#32) && decide (t.rd = ⟨0xB5, 7, 0⟩))
      (exec .rdu8 (partly 0xB5 7 [0x3C])) = true := by decide

theorem test_rdu16 :
    ends (fun t => decide (t.result = 0x0102)) (exec .rdu16 (input [0x01, 0x02])) = true := by decide

theorem test_rdu16_truncated :
    ends (fun t => decide (statusWord t = 0x00001112#32)) (exec .rdu16 (input [0x12])) = true := by decide

theorem test_rdu32 :
    ends (fun t => decide (t.result.toInt = -42)) (exec .rdu32 (input [0xFF, 0xFF, 0xFF, 0xD6])) = true := by
  decide

theorem test_wru8 :
    ends (fun t => decide (t.outMem = [(0, 0x34)]) && decide (t.wr.pos = 1)) (exec .wru8 (writer 0 0 0 0x1234))
      = true := by decide

theorem test_wru16 :
    ends (fun t => decide (t.outMem = [(0, 0x01), (1, 0x02)])) (exec .wru16 (writer 0 0 0 0x0102)) = true := by
  decide

theorem test_wru32 :
    ends (fun t => decide (t.outMem = [(0, 0xFF), (1, 0xFF), (2, 0xFF), (3, 0xD6)]))
      (exec .wru32 (writer 0 0 0 0xFFFFFFD6)) = true := by decide

theorem test_wru8_outfull :
    ends (fun t => decide (statusWord t = 0x00001432#32)) (exec .wru8 (writer 0 0 1048576 0)) = true := by
  decide

theorem test_getbit :
    ends (fun t => decide (t.result = 1) && decide (t.rd = ⟨0xB5, 7, 1⟩)) (exec .getbit (input [0xB5])) = true := by
  decide

theorem test_getbits_across_bytes :
    ends (fun t => decide (t.result = 0x54) && decide (t.rd = ⟨0x3C, 6, 1⟩))
      (exec (.getbits 7) (partly 0xB5 5 [0x3C])) = true := by decide

theorem test_getbits_24 :
    ends (fun t => decide (t.result = 0xB53C00) && decide (t.rd = ⟨0, 0, 3⟩))
      (exec (.getbits 24) (input [0xB5, 0x3C, 0x00])) = true := by decide

theorem test_bralign :
    ends (fun t => decide (t.rd = ⟨0, 0, 0⟩)) (exec .bralign (partly 0xB5 6 [0x3C])) = true := by decide

theorem test_putbit_completes_byte :
    ends (fun t => decide (t.outMem = [(0, 0xB5)]) && decide (t.wr = ⟨0, 0, 1⟩))
      (exec .putbit (writer 0x5A 7 0 1)) = true := by decide

theorem test_putbits_ignores_high_bits :
    ends (fun t => decide (t.outMem = []) && decide (t.wr = ⟨5, 3, 0⟩))
      (exec (.putbits 3) (writer 0 0 0 0xFFFFFFFD)) = true := by decide

theorem test_putbits_fills_byte :
    ends (fun t => decide (t.outMem = [(0, 0xBF)]) && decide (t.wr = ⟨0, 0, 1⟩))
      (exec (.putbits 5) (writer 5 3 0 0x1F)) = true := by decide

theorem test_bwflush :
    ends (fun t => decide (t.outMem = [(0, 0xA0)]) && decide (t.wr = ⟨0, 0, 1⟩)) (exec .bwflush (writer 5 3 0 0))
      = true := by decide

theorem test_htrans_2x3 :
    ends (fun t => decide (words 6 t = [8, -24, -6, 2, -24, 21])) (exec .htrans (grid 2 3 [10, -3, 4, 0, 8, -8] []))
      = true := by decide +kernel

theorem test_htrans_range :
    ends (fun t => decide (statusWord t = 0x00003052#32))
      (exec .htrans (grid 2 2 [536870912, 536870912, 536870912, 536870912] [])) = true := by decide +kernel

theorem test_hinv_3x4 :
    ends (fun t => decide (words 12 t = [9, 5, 6, 6, 5, 5, 6, 7, 4, 4, 5, 1]))
      (exec .hinv (grid 3 4 [40, -4, -4, 2, -12, -2, 0, -8, -4, 2, 4, 1] [])) = true := by decide +kernel

theorem test_hinv_lossy :
    ends (fun t => decide (words 4 t = [2, 2, 4, 4])) (exec .hinv (grid 2 2 [12, 0, 4, 0] [])) = true := by
  decide +kernel

theorem test_digitize_scale_4 :
    ends (fun t => decide (words 3 t = [1, -1, 2]))
      (exec .digitize { grid 1 3 [6, -6, 7] [] with scale := 4 }) = true := by decide +kernel

theorem test_undigitize_scale_4 :
    ends (fun t => decide (words 3 t = [4, -4, 8]))
      (exec .undigitize { grid 1 3 [1, -1, 2] [] with scale := 4 }) = true := by decide +kernel

theorem test_undigitize_range :
    ends (fun t => decide (statusWord t = 0x00003352#32))
      (exec .undigitize { grid 1 1 [70000] [] with scale := 40000 }) = true := by decide +kernel

theorem test_huffsym_doc_default :
    ends (fun t => decide (t.result = 1) && decide (t.rd = ⟨0xF8, 2, 1⟩)) (exec .huffsym (input [0xF8])) = true := by
  decide +kernel

theorem test_huffsym_hcompress :
    ends (fun t => decide (t.result = 0) && decide (t.rd = ⟨0xF8, 2, 1⟩))
      (exec .huffsym { input [0xF8] with params := ⟨1, 1, 1, .hcompress⟩ }) = true := by decide +kernel

theorem test_qtdec_two_levels :
    ends (fun t => decide (t.coef = [(0, 1), (9, 1), (26, 1)]) && decide (t.rd = ⟨0xF0, 2, 2⟩))
      (exec (.qtdec 0) { grid 8 8 [] [0xF0, 0xF0] with nbp0 := 1 }) = true := by decide +kernel

theorem test_qtdec_direct_plane :
    ends (fun t => decide (t.coef = [(0, 1)]) && decide (t.rd = ⟨0x08, 0, 1⟩))
      (exec (.qtdec 0) { grid 2 2 [] [0x08] with nbp0 := 1, flagW := true }) = true := by decide +kernel

theorem test_term_bad :
    ends (fun t => decide (statusWord t = 0x00004222#32)) (exec .term (partly 0x0F 4 [])) = true := by
  decide +kernel

theorem test_term_good :
    ends (fun t => decide (statusWord t = 0x00004202#32) && decide (t.rd.cnt = 4)) (exec .term (input [0x0F])) = true := by
  decide +kernel

theorem test_signs_3x2 :
    ends (fun t => decide (words 6 t = [-1, 2, -3, 4, 5, 6]) && decide (t.rd.cnt = 2))
      (exec .signs (grid 3 2 [1, 2, 3, 4, 5, 6] [0xC0])) = true := by decide +kernel

theorem test_signs_range :
    ends (fun t => decide (statusWord t = 0x00004352#32)) (exec .signs (grid 1 1 [-2147483648] [0x80])) = true := by
  decide +kernel

theorem test_riceval_2 :
    ends (fun t => decide (t.result = 0xFFFFFFFD) && decide (t.rd.cnt = 4)) (exec (.riceval 2) (input [0x60])) = true := by
  decide +kernel

theorem test_riceval_truncated :
    ends (fun t => decide (statusWord t = 0x00005012#32)) (exec (.riceval 0) (input [0x00])) = true := by
  decide +kernel

theorem test_ricedec_q0 :
    ends (fun t => decide (t.coef = [(0, 2)]) && decide (t.ricek = 1) && decide (t.rd.cnt = 1))
      (exec (.ricedec 0) (grid 2 2 [99] [0x16])) = true := by decide +kernel

theorem test_ricedec_empty_quadrant :
    ends (fun t => decide (t.coef = [(0, 99)]) && decide (t.ricek = 3) && decide (t.rd.cnt = 4))
      (exec (.ricedec 1) (grid 1 1 [99] [0x30])) = true := by decide +kernel

/-! ## Witnesses: for each statement with hypotheses, a concrete case that meets them all, at the edge of each
clause -/

/-- Reset with this error latched. -/
def latched (e : ErrCode) : State := { State.reset with err := e }

/-- The outcome is a next state that ended with this error. -/
def endsWith (e : ErrCode) : Host.Outcome State Fault Refusal → Bool := ends fun t => decide (t.err = e)

/-- Words with no entry of -2^31 never read it. -/
theorem coefInt_ne_min {c : Memory 32} (h : c.all (fun e => decide (e.2.toInt ≠ -2147483648)) = true) (a : Nat) :
    coefInt c a ≠ -2147483648 := by
  induction c with
  | nil => simp [coefInt, Memory.read]
  | cons e c ih =>
    simp only [List.all_cons, Bool.and_eq_true, decide_eq_true_eq] at h
    unfold coefInt Memory.read
    split
    · exact h.1
    · exact ih h.2

theorem witness_DecodeOfEncode :
    (Instr.putbits 24).wellFormed = true ∧ (Instr.riceval 15).wellFormed = true ∧
      (Instr.qtdec 3).wellFormed = true := by decide

theorem witness_EncodeOfDecode :
    decode 0x00001821#32 = .ok (.getbits 24) ∧ decode 0x00006051#32 = .ok (.ricedec 3) := by decide

/-- One word for each case of R73, at the least value of the field that breaks it. -/
theorem witness_IllegalWordsChangeStatusOnly :
    State.reset.err = .none ∧
      ∀ w ∈ [0x00000003, 0x00008000, 0x00000100, 0x00001921, 0x00001050, 0x00002040], breaksR73 w := by
  decide

theorem witness_StepRunsDecodedCommand :
    { State.reset with host := [cmdMove 0x00000042#32] }.busy = false ∧ decode 0x00000042#32 = .ok .term ∧
      State.reset.host = [] := by decide

theorem witness_LatchedErrorIgnoresCommands :
    { latched .seq with host := [cmdMove 0] }.busy = false ∧ (latched .seq).err ≠ .none ∧
      (0x00000101#32 : Word) ≠ 0x00000001#32 := by decide

theorem witness_EveryCommandCompletes :
    State.reset.err = .none ∧ (latched .format).err ≠ .none ∧ Instr.clr ≠ .srst := by decide

theorem witness_ErrorsAreThoseOfTheTable :
    Instr.term.wellFormed = true ∧ State.reset.err = .none ∧
      endsWith .truncated (exec .term State.reset) = true := by decide +kernel

theorem witness_GridCheckRaisesSizeFirst :
    isGridCommand (.ricedec 3) = true ∧ (grid 0 1 [] []).err = .none ∧ gridRows (grid 0 1 [] []) = 0 ∧
      gridCols (grid 1 0 [] []) = 0 ∧
      (grid 1025 1024 [] []).params.coefWords < gridRows (grid 1025 1024 [] []) * gridCols (grid 1025 1024 [] []) := by
  decide +kernel

theorem witness_ByteAccessNeedsEmptyBuffer :
    (partly 0xB5 7 [0x3C]).err = .none ∧ (partly 0xB5 7 [0x3C]).rd.cnt ≠ 0 ∧ (writer 1 1 0 0).err = .none ∧
      (writer 1 1 0 0).wr.cnt ≠ 0 ∧ (writer 1 7 0 0).wr.cnt.toNat ≤ 7 ∧
      endsWith .none (exec .bwflush (writer 1 7 0 0)) = true := by decide +kernel

theorem witness_PlaneCountAbove31RaisesFormat :
    let s := { grid 1 1 [] [] with nbp3 := 32 }
    s.err = .none ∧ gridFits s ∧ 31 < planeCount s 3 := by decide +kernel

theorem witness_EarlyErrorsChangeStatusOnly :
    (partly 0xB5 7 []).err = .none ∧ endsWith .size (exec .clr State.reset) = true ∧
      endsWith .seq (exec .rdu8 (partly 0xB5 7 [])) = true ∧
      endsWith .illegal (exec (.getbits 25) State.reset) = true := by decide +kernel

/-- A run that succeeds, one turned away before any effect, and one that ends with an error part way. -/
theorem witness_CommandFrame :
    paramsLegal State.reset.params = true ∧ endsWith .none (exec .wru8 (writer 0 0 5 7)) = true ∧
      writesResult .wru8 = false ∧ (mayWrite .wru8).reader = false ∧ (mayWrite .term).writer = false ∧
      (mayWrite .term).grid = false ∧ (mayWrite .signs).ricek = false ∧ 4 < (writer 0 0 5 7).wr.pos.toNat ∧
      endsWith .seq (exec .wru8 (writer 1 1 0 0)) = true ∧
      endsWith .range (exec .signs (grid 1 1 [-2147483648] [0x80])) = true := by decide +kernel

theorem witness_StreamPositionsOnlyGrow :
    paramsLegal (input [0xA7]).params = true ∧ Instr.rdu8 ≠ .srst ∧ (input [0xA7]).err = .none ∧
      endsWith .none (exec .rdu8 (input [0xA7])) = true := by decide +kernel

theorem witness_InterruptFollowsDoneAndEnable :
    State.reset.err = .none ∧ endsWith .none (exec .nop State.reset) = true ∧ (latched .size).err ≠ .none ∧
      Instr.nop ≠ .srst ∧ endsWith .size (exec .nop (latched .size)) = true ∧ State.reset.ie = false := by decide

/-- A sound state whose next step writes a byte. -/
def byteToCome : State := { writer 0x5A 7 0 1 with host := [cmdMove 0x00000024#32] }

theorem byteToCome_sound : byteToCome.Sound :=
  ⟨by decide, rfl, rfl, rfl, rfl, by decide, fun _ => by decide, fun _ => by decide, fun _ => by decide,
    fun _ => by decide, fun _ => by decide⟩

theorem witness_StepKeepsSound :
    byteToCome.Sound ∧ ends (fun t => decide (t.outMem = [(0, 0xB5)])) (step byteToCome) = true :=
  ⟨byteToCome_sound, by decide⟩

theorem witness_StepStaysInside : byteToCome.Sound ∧ byteToCome.Inside ∧ endsWith .none (step byteToCome) = true :=
  ⟨byteToCome_sound, ⟨rfl, rfl, rfl⟩, by decide⟩

theorem witness_ParametersNeverChange : endsWith .none (step byteToCome) = true := by decide

theorem witness_ClrZeroesTheGrid :
    (grid 2 3 [1, 2, 3, 4, 5, 6, 7] []).err = .none ∧ (grid 2 3 [1, 2, 3, 4, 5, 6, 7] []).coef.wf = true ∧
      gridFits (grid 2 3 [1, 2, 3, 4, 5, 6, 7] []) ∧ ¬ gridFits (grid 0 3 [1] []) := by decide +kernel

/-- The last two bytes of IN read exactly, then one byte too few. -/
theorem witness_ByteReadsAreBigEndian :
    (Instr.rdu16, 2, 0x00000011#32) ∈
      [(Instr.rdu8, 1, 0x00000010#32), (.rdu16, 2, 0x00000011#32), (.rdu32, 4, 0x00000012#32)] ∧
    (input [1, 2]).err = .none ∧ (partly 0xB5 1 [1, 2]).rd.cnt ≠ 0 ∧ (input [1, 2]).rd.cnt = 0 ∧
      (input [1, 2]).rd.pos.toNat + 2 = (input [1, 2]).inLen.toNat ∧ (input [1]).rd.cnt = 0 ∧
      (input [1]).inLen.toNat + 1 = (input [1]).rd.pos.toNat + 2 := by decide

/-- The last two bytes of OUT written exactly, then one byte too few. -/
theorem witness_ByteWritesAreBigEndian :
    (writer 0 0 1048574 0).err = .none ∧ paramsLegal (writer 0 0 1048574 0).params = true ∧
      (writer 0 0 1048574 0).outMem.wf = true ∧ (writer 1 1 0 0).wr.cnt ≠ 0 ∧ (writer 0 0 1048574 0).wr.cnt = 0 ∧
      (writer 0 0 1048574 0).wr.pos.toNat + 2 = (writer 0 0 1048574 0).params.outBytes ∧
      (writer 0 0 1048575 0).params.outBytes + 1 = (writer 0 0 1048575 0).wr.pos.toNat + 2 := by decide

/-- Eleven bits left: 11 read exactly, 12 one too many; GETBIT with none left; the counts 24 and 25. -/
theorem witness_BitReadsTakeTheNextBits :
    (partly 5 3 [1]).err = .none ∧ (partly 5 3 [1]).rd.cnt.toNat ≤ 7 ∧
      (11#5).toNat = bitsLeft (source (partly 5 3 [1])) (partly 5 3 [1]).rd ∧
      bitsLeft (source (partly 5 3 [1])) (partly 5 3 [1]).rd + 1 = (12#5).toNat ∧
      bitsLeft (source (input [])) (input []).rd < 1 ∧ (24#5).toNat ≤ 24 ∧ 24 < (25#5).toNat := by decide

theorem witness_BralignDropsThePartialByte :
    (partly 0xB5 6 [0x3C]).err = .none ∧ (partly 0xB5 6 [0x3C]).rd.cnt ≠ 0 := by decide

/-- A sound writer near the end of OUT. -/
def nearFull (pos : Word) : State := writer 5 3 pos 0x1F

theorem nearFull_sound (pos : Word) (h : pos.toNat ≤ 1048576) : (nearFull pos).Sound :=
  ⟨(by decide : paramsLegal State.reset.params = true), rfl, rfl, rfl, rfl, Nat.zero_le _,
    fun _ => Nat.zero_le _, fun _ => (by decide : (3#4).toNat ≤ 7), fun _ => Nat.zero_le _, fun _ => h,
    fun _ => (by decide : (5#8).toNat < 2 ^ (3#4).toNat)⟩

/-- Five bits fill OUT's last byte exactly; with OUT full they find no room; the counts 24 and 25. -/
theorem witness_BitWritesAppendTheLowBits :
    (nearFull 1048575).err = .none ∧ (nearFull 1048575).Sound ∧ (nearFull 1048576).Sound ∧
      (nearFull 1048575).wr.pos.toNat + writerBits (nearFull 1048575).wr 5 / 8 =
        (nearFull 1048575).params.outBytes ∧
      (nearFull 1048576).params.outBytes < (nearFull 1048576).wr.pos.toNat + writerBits (nearFull 1048576).wr 5 / 8 ∧
      (24#5).toNat ≤ 24 ∧ 24 < (25#5).toNat :=
  ⟨rfl, nearFull_sound _ (by decide), nearFull_sound _ (by decide), by decide, by decide, by decide, by decide⟩

theorem witness_BwflushPadsWithZeros :
    (nearFull 1048575).err = .none ∧ (nearFull 1048575).wr.cnt.toNat ≤ 7 ∧ (writer 0 0 0 0).wr.cnt = 0 ∧
      (nearFull 1048575).wr.cnt ≠ 0 ∧ (nearFull 1048575).wr.pos.toNat + 1 = (nearFull 1048575).params.outBytes ∧
      (nearFull 1048576).params.outBytes = (nearFull 1048576).wr.pos.toNat := by decide

/-- Groups of 3 and 7 bits and of none, into a buffer of two bytes. -/
theorem witness_ReaderMirrorsWriter :
    Memory.wf (w := 8) [] = true ∧
      ∃ k k', writeGroups 2 [(3, 5), (0, 9), (7, 0xFF)] ⟨⟨0, 0, 0⟩, []⟩ = .ok k ∧ flushWriter 2 k = .ok k' ∧
        k'.mem = [(0, 0xBF), (1, 0xC0)] :=
  ⟨rfl, ⟨⟨3, 2, 1⟩, [(0, 0xBF)]⟩, ⟨⟨0, 0, 2⟩, [(0, 0xBF), (1, 0xC0)]⟩, by decide, by decide, rfl⟩

/-- The largest samples the bound of R166 allows at L = 1. -/
theorem witness_HtransCompletesWithinBound :
    let s := grid 2 2 [536870911, -536870911, 536870911, 0] []
    s.err = .none ∧ gridFits s ∧ s.coef.wf = true ∧ ∀ a, a < gridRows s * gridCols s →
      ((coefInt s.coef a).natAbs : Int) * 2 ^ (levelCount (gridRows s) (gridCols s) + 1) +
        levelCount (gridRows s) (gridCols s) * 2 ^ levelCount (gridRows s) (gridCols s) ≤ 2147483647 := by
  decide +kernel

theorem witness_HtransTwoByTwo :
    let s := grid 2 2 [536870911, -3, 4, -536870911] []
    s.err = .none ∧ s.coef.wf = true ∧ s.rows = 2 ∧ s.cols = 2 ∧ 4 ≤ s.params.coefWords ∧
      coefInt s.coef 0 = 536870911 ∧ coefInt s.coef 1 = -3 ∧ coefInt s.coef 2 = 4 ∧
      coefInt s.coef 3 = -536870911 := by decide +kernel

/-- h0 = 12, hx = 2, hy = -4, lb0 = 1, hx' = 1, hy' = -3, lb1 = 2 * ((0 + 0 + 0) mod 2) = 0, h0' = 13. -/
theorem witness_HinvTwoByTwo :
    let s := grid 2 2 [12, -4, 2, 1] []
    s.err = .none ∧ s.coef.wf = true ∧ s.rows = 2 ∧ s.cols = 2 ∧ 4 ≤ s.params.coefWords ∧
      coefInt s.coef 0 = 12 ∧ coefInt s.coef 1 = -4 ∧ coefInt s.coef 2 = 2 ∧ coefInt s.coef 3 = 1 ∧
      (12 : Int) = (12 + if (0 : Int) ≤ 12 then 2 else 1) / 4 * 4 ∧
      (2 : Int) = (2 + if (0 : Int) ≤ 2 then 1 else 0) / 2 * 2 ∧
      (-4 : Int) = (-4 + if (0 : Int) ≤ -4 then 1 else 0) / 2 * 2 ∧ (1 : Int) = 1 % 2 ∧
      (1 : Int) = (if (0 : Int) ≤ 2 then 2 - 1 else 2 + 1) ∧ (-3 : Int) = (if (0 : Int) ≤ -4 then -4 - 1 else -4 + 1) ∧
      (0 : Int) = (1 / 2 % 2 + 1 / 2 % 2 + -3 / 2 % 2) % 2 * 2 ∧
      (13 : Int) = (if (0 : Int) ≤ 12 then 12 + 1 - 0 else 12 + if (1 : Int) = 0 then 0 else 1 - 0) := by
  decide +kernel

theorem witness_HinvRestoresWhatHtransMade :
    let s := grid 2 3 [10, -3, 4, 0, 8, -8] []
    s.err = .none ∧ gridFits s ∧ s.coef.wf = true ∧ endsWith .none (exec .htrans s) = true ∧
      gridFits { s with scale := 1 } ∧ { s with scale := 1 }.scale.toNat ≤ 1 := by decide +kernel

theorem witness_ZeroGridStaysZero :
    let s := grid 2 2 [0, 0, 0, 0, 7] []
    s.err = .none ∧ gridFits s ∧ s.coef.wf = true ∧ ∀ a, a < gridRows s * gridCols s → s.coef.read a = 0 := by
  decide +kernel

theorem witness_OneByOneGridIsUnchanged :
    (grid 1 1 [7] []).err = .none ∧ (grid 1 1 [7] []).rows = 1 ∧ (grid 1 1 [7] []).cols = 1 ∧
      1 ≤ (grid 1 1 [7] []).params.coefWords := by decide

theorem witness_SumWordIsAMultiple :
    let s := grid 2 3 [10, -3, 4, 0, 8, -8] []
    s.err = .none ∧ gridFits s ∧ s.coef.wf = true ∧ endsWith .none (exec .htrans s) = true ∧
      1 ≤ levelCount (gridRows s) (gridCols s) := by decide +kernel

theorem witness_DigitizeQuantizesEveryWord :
    let s := grid 1 3 [6, -6, 0] []
    s.err = .none ∧ gridFits s ∧ s.coef.wf = true ∧ { s with scale := 1 }.scale.toNat ≤ 1 ∧
      2 ≤ { s with scale := 2 }.scale.toNat ∧ ¬ gridFits (grid 1 0 [] []) := by decide +kernel

/-- With SCALE 2 the least and the greatest product that fit, and one that does not. -/
theorem witness_UndigitizeScalesEveryWord :
    let s := { grid 1 2 [-1073741824, 1073741823] [] with scale := 2 }
    let u := { grid 1 2 [0, 1073741824] [] with scale := 2 }
    s.err = .none ∧ gridFits s ∧ s.coef.wf = true ∧ 2 ≤ s.scale.toNat ∧ { s with scale := 1 }.scale.toNat ≤ 1 ∧
      (∀ a, a < gridRows s * gridCols s →
        -2147483648 ≤ coefInt s.coef a * s.scale.toNat ∧ coefInt s.coef a * s.scale.toNat ≤ 2147483647) ∧
      ¬ gridFits (grid 0 1 [] []) ∧ gridFits u ∧ u.coef.wf = true ∧ 1 < gridRows u * gridCols u ∧
      2147483647 < coefInt u.coef 1 * u.scale.toNat := by decide +kernel

theorem witness_QuadrantsPartitionTheGrid : (2 < 3 ∧ 2 < 3) ∧ quadrantRange 3 3 3 = ⟨2, 3, 2, 3⟩ := by decide

/-- A 3-bit, a 5-bit and a 6-bit code, in either named table. -/
theorem witness_HuffsymDecodesEachCode :
    (input [0xF8]).err = .none ∧ (input [0xF8]).rd.cnt.toNat ≤ 7 ∧
      streamHas (source (input [0xF8])) (input [0xF8]).rd (huffBits (huffCodes .docDefault) 1) ∧
      streamHas (source (input [0xF8])) (input [0xF8]).rd (huffBits (huffCodes .hcompress) 0) ∧
      streamHas (source (input [0xE8])) (input [0xE8]).rd (huffBits (huffCodes .docDefault) 11) ∧
      streamHas (source (input [0x00])) (input [0x00]).rd (huffBits (huffCodes .hcompress) 1) := by decide +kernel

theorem witness_NamedTablesNeverRaiseFormat :
    (input [0xF8]).err = .none ∧ (input [0xF8]).rd.cnt.toNat ≤ 7 ∧
      (input [0xF8]).params.huffTable = .docDefault ∧ endsWith .none (exec .huffsym (input [0xF8])) = true ∧
      (partly 0x3E 6 []).rd.cnt.toNat ≤ 7 ∧ 6 = bitsLeft (source (partly 0x3E 6 [])) (partly 0x3E 6 []).rd := by
  decide +kernel

/-- No planes; a quadrant of no rows; a quadrant of no columns. -/
theorem witness_QtdecOfNothingReadsNothing :
    let s := { grid 1 1 [9] [] with nbp1 := 31, nbp2 := 31 }
    s.err = .none ∧ gridFits s ∧ planeCount s 0 = 0 ∧ planeCount s 1 ≤ 31 ∧
      (quadrantRange (gridRows s) (gridCols s) 2).height = 0 ∧
      (quadrantRange (gridRows s) (gridCols s) 1).width = 0 := by decide +kernel

theorem witness_QtdecSetsPlaneBitsOnly :
    let s := { grid 3 3 [2] [0x80, 0x00] with nbp0 := 2 }
    s.err = .none ∧ gridFits s ∧ s.coef.wf = true ∧ s.flagW = false ∧ s.rd.cnt.toNat ≤ 7 ∧ planeCount s 0 ≤ 31 ∧
      s.params.huffTable = .docDefault ∧
      planeCount s 0 * (1 + 6 * planeCodes (quadrantRange (gridRows s) (gridCols s) 0).height
        (quadrantRange (gridRows s) (gridCols s) 0).width) ≤ bitsLeft (source s) s.rd := by decide +kernel

/-- A 2×2 quadrant, both flag widths and both forms, at the least and the greatest code; and a 4-bit flag of 1. -/
theorem witness_QtdecOfOneSmallPlane :
    let s := { grid 4 4 [2] [0x80] with nbp0 := 1 }
    let d : Quadrant := ⟨0, 2, 0, 2⟩
    s.err = .none ∧ gridFits s ∧ s.coef.wf = true ∧ s.rd.cnt.toNat ≤ 7 ∧ planeCount s 0 = 1 ∧
      s.params.huffTable = .docDefault ∧ quadrantRange (gridRows s) (gridCols s) 0 = d ∧ d.height = 2 ∧ d.width = 2 ∧
      streamHas (source s) s.rd (true :: huffBits (huffCodes .docDefault) 0) ∧
      streamHas (source (input [0x78])) ⟨0, 0, 0⟩ (false :: valueBits 15 4) ∧
      streamHas (source (input [0xFC])) ⟨0, 0, 0⟩ ([true, true, true, true] ++ huffBits (huffCodes .docDefault) 15) ∧
      streamHas (source (input [0x0F])) ⟨0, 0, 0⟩ ([false, false, false, false] ++ valueBits 15 4) ∧
      4 ≤ bitsLeft (source (input [0x10])) ⟨0, 0, 0⟩ ∧ streamValue (source (input [0x10])) ⟨0, 0, 0⟩ 0 4 = 1 := by
  decide +kernel

/-- Two planes of a 3×3 quadrant of the magnitudes (i + j) mod 4: both quadtree planes, 39 bits; and with the 4-bit
flag the higher one direct and the lower one a quadtree. -/
theorem witness_QtdecDecodesEncodedPlanes :
    let s := { grid 6 6 [] [0xFF, 0x75, 0xF7, 0xF4, 0x74] with nbp0 := 2 }
    let u := { grid 6 6 [] [0x01, 0xAC, 0x0F, 0xFD, 0x1D, 0x00] with nbp0 := 2, flagW := true }
    let d : Quadrant := ⟨0, 3, 0, 3⟩
    (s.err = .none ∧ gridFits s ∧ s.coef.wf = true ∧ s.rd.cnt.toNat ≤ 7 ∧ planeCount s 0 = 2 ∧
      s.params.huffTable = .docDefault ∧ quadrantRange (gridRows s) (gridCols s) 0 = d ∧ 1 ≤ d.height ∧
      1 ≤ d.width ∧
      streamHas (source s) s.rd
        (planesBits (huffCodes s.params.huffTable) s.flagW (fun _ => true) d.height d.width
          (fun i j => (i + j) % 4) 2) ∧
      streamHas (source u) u.rd
        (planesBits (huffCodes u.params.huffTable) u.flagW (fun p => decide (p = 0)) d.height d.width
          (fun i j => (i + j) % 4) 2)) ∧
    ∀ i j : Nat, (i + j) % 4 < 2 ^ 2 :=
  ⟨by decide +kernel, fun i j => Nat.mod_lt _ (by decide)⟩

/-- Four bits of zeros, four that are not, and only three. -/
theorem witness_TermChecksFourZeroBits :
    (partly 0 4 []).err = .none ∧ (partly 0 4 []).rd.cnt.toNat ≤ 7 ∧
      4 = bitsLeft (source (partly 0 4 [])) (partly 0 4 []).rd ∧
      streamValue (source (partly 0 4 [])) (partly 0 4 []).rd 0 4 = 0 ∧
      streamValue (source (partly 1 4 [])) (partly 1 4 []).rd 0 4 ≠ 0 ∧
      bitsLeft (source (partly 0 3 [])) (partly 0 3 []).rd + 1 = 4 := by decide +kernel

theorem witness_SignsFollowTheVisitOrder :
    let s := grid 3 2 [1, 0, 3, 4, -2147483647, 6] [0xC0]
    (s.err = .none ∧ gridFits s ∧ s.coef.wf = true ∧ s.rd.cnt.toNat ≤ 7 ∧
      ((signOrder (gridRows s) (gridCols s)).filter fun a => decide (coefInt s.coef a ≠ 0)).length ≤
        bitsLeft (source s) s.rd) ∧
    (∀ a, coefInt s.coef a ≠ -2147483648) ∧ (signOrder (gridRows s) (gridCols s))[1]? = some 2 :=
  ⟨by decide +kernel, coefInt_ne_min (by decide +kernel), by decide +kernel⟩

theorem witness_ZigZagAndUnZigAreInverse :
    (-2147483648 : Int) ≤ -2147483648 ∧ (-2147483648 : Int) ≤ 2147483647 ∧ zigZag (-2147483648) = 2 ^ 32 := by
  decide +kernel

/-- 16385 zero bytes. -/
def zeros : State := { input [] with inLen := 16385 }

/-- The code of 2^32 - 1 with k = 15: 2^17 - 1 zeros, a 1, and 15 ones. -/
def tooLarge : State := { zeros with inLen := 16386, inMem := [(16383, 0x01), (16384, 0xFF), (16385, 0xFE)] }

theorem zeros_streamHas : streamHas (source zeros) zeros.rd (List.replicate (2 ^ (32 - 15) + 1) false) := by
  refine ⟨?_, fun t _ => ?_⟩
  · rw [List.length_replicate]
    decide
  · rw [show zeros.rd = ⟨0, 0, 0⟩ from rfl, show source zeros = ⟨16385, []⟩ from rfl]
    simp only [streamBit, Memory.read, List.getD_eq_getElem?_getD, List.getElem?_replicate]
    split <;> split <;> simp

theorem tooLarge_streamHas : streamHas (source tooLarge) tooLarge.rd (riceBits 15 (2 ^ 32 - 1)) := by
  have hb : riceBits 15 (2 ^ 32 - 1) = List.replicate 131071 false ++ List.replicate 16 true := rfl
  rw [hb]
  have hl : (List.replicate 131071 false ++ List.replicate 16 true).length = 131087 := by
    rw [List.length_append, List.length_replicate, List.length_replicate]
  refine ⟨hl ▸ by decide, fun t ht => ?_⟩
  rw [hl] at ht
  rw [List.getD_eq_getElem?_getD, List.getElem?_append, List.length_replicate]
  split
  · rename_i h
    have hs : streamBit (source tooLarge) tooLarge.rd t =
        (Memory.read (source tooLarge).mem (t / 8)).getLsbD (7 - t % 8) := by
      simp [streamBit, tooLarge, zeros, input, State.reset]
    rw [hs, List.getElem?_replicate, if_pos h,
      show (source tooLarge).mem = [(16383, 0x01), (16384, 0xFF), (16385, 0xFE)] from rfl]
    simp only [Memory.read]
    split
    · have : 7 - t % 8 ≠ 0 := by omega
      simp [this]
    · rw [if_neg (by omega), if_neg (by omega)]
      simp
  · rename_i h
    have : ∀ j, j < 16 → streamBit (source tooLarge) tooLarge.rd (131071 + j) =
        (List.replicate 16 true)[j]?.getD false := by decide +kernel
    have := this (t - 131071) (by omega)
    rwa [show 131071 + (t - 131071) = t by omega] at this

/-- The code of a value that fits; one whose value, 2^31, does not; a run of zeros one above its bound; k = 16. -/
theorem witness_RicevalDecodesItsCode :
    ((input [0x60]).err = .none ∧ (input [0x60]).rd.cnt.toNat ≤ 7 ∧ (2#5).toNat ≤ 15 ∧
      streamHas (source (input [0x60])) (input [0x60]).rd (riceBits 2 6) ∧ -2147483648 ≤ unZig 6 ∧
      unZig 6 ≤ 2147483647) ∧
    (streamHas (source tooLarge) tooLarge.rd (riceBits (15#5).toNat (2 ^ 32 - 1)) ∧
      2147483647 < unZig (2 ^ 32 - 1)) ∧
    streamHas (source zeros) zeros.rd (List.replicate (2 ^ (32 - (15#5).toNat) + 1) false) ∧ 15 < (16#5).toNat :=
  ⟨by decide +kernel, ⟨tooLarge_streamHas, by decide⟩, zeros_streamHas, by decide⟩

/-- The only word of quadrant 0 of a 2×2 grid with k = 1; and an empty quadrant with k = 15. -/
theorem witness_RicedecDecodesAQuadrant :
    let s := grid 2 2 [99] [0x16]
    let u := grid 1 1 [99] [0xF0]
    s.err = .none ∧ gridFits s ∧ s.coef.wf = true ∧ s.rd.cnt.toNat ≤ 7 ∧
      quadrantCells (quadrantRange (gridRows s) (gridCols s) 0) (gridCols s) = [0] ∧ unZig 3 = 2 ∧
      streamHas (source s) s.rd (valueBits 1 4 ++ [3].flatMap (riceBits 1)) ∧ gridFits u ∧
      quadrantCells (quadrantRange (gridRows u) (gridCols u) 3) (gridCols u) = [] ∧
      streamHas (source u) u.rd (valueBits 15 4 ++ [].flatMap (riceBits 15)) := by decide +kernel

theorem witness_RegisterWritesReadBack :
    State.reset.busy = false ∧ 0xFC % 4 = 0 ∧ 0xFC < 0x100 ∧
      0xFC ∉ [0x00, 0x04, 0x08, 0x0C, 0x10, 0x14, 0x18, 0x20] := by decide

theorem witness_HostReadsHaveNoSideEffect :
    State.reset.busy = false ∧ 0xFC % 4 = 0 ∧ 0xFC < 0x100 ∧ 1048575 < State.reset.params.coefWords ∧
      1048575 < State.reset.params.inBytes ∧ 1048575 < State.reset.params.outBytes := by decide

theorem witness_HostMemoryWritesOneCell :
    (grid 1 1 [7] [1]).busy = false ∧ (grid 1 1 [7] [1]).coef.wf = true ∧ (grid 1 1 [7] [1]).inMem.wf = true ∧
      1048575 < (grid 1 1 [7] [1]).params.coefWords ∧ 1048575 < (grid 1 1 [7] [1]).params.inBytes := by decide

theorem witness_ProtocolViolationsAreRefused :
    { State.reset with busy := true }.busy = true ∧ cmdMove 0 ≠ .reset ∧ cmdMove 0 ≠ .resetDuringCommand ∧
      (∀ size, cmdMove 0 ≠ .regRead 0x04 size) ∧ State.reset.busy = false ∧ (2 ≠ 4 ∨ 0x04 % 4 ≠ 0) ∧
      (4 ≠ 4 ∨ 0x05 % 4 ≠ 0) ∧ State.reset.params.coefWords = 1048576 ∧ State.reset.params.inBytes = 1048576 ∧
      State.reset.params.outBytes = 1048576 :=
  ⟨rfl, by decide, by decide, fun _ => HostMove.noConfusion, rfl, by decide, by decide, rfl, rfl, rfl⟩

/-- The words of a list, by place. -/
def nth (l : List Int) (p : Nat) : Int := l.getD p 0

/-- Five words, one at the bound, in a row and in a column; and a 3×3 grid with one word at the bound. -/
theorem witness_HtransOfOddGrids :
    (let l := [134217726, -3, 5, 8, -2]
     let s := grid 1 5 l []
     s.err = .none ∧ s.coef.wf = true ∧ (s.rows = 1 ∧ s.cols = 5) ∧
      ((grid 5 1 l []).rows = 5 ∧ (grid 5 1 l []).cols = 1) ∧ 5 ≤ s.params.coefWords ∧
      (∀ p, p < 5 → coefInt s.coef p = nth l p ∧ (nth l p).natAbs ≤ 134217726) ∧
      (268435448 : Int) = sumRounded 2 ((nth l 1 + nth l 0) * 2) ∧ 28 = sumRounded 2 ((nth l 3 + nth l 2) * 2) ∧
      268435480 = sumRounded 4 (28 + 268435448)) ∧
    (let l := [268435454, -3, 5, 8, -2, 7, 0, -1, 4]
     let s := grid 3 3 l []
     s.err = .none ∧ s.coef.wf = true ∧ s.rows = 3 ∧ s.cols = 3 ∧ 9 ≤ s.params.coefWords ∧
      (∀ p, p < 9 → coefInt s.coef p = nth l p ∧ (nth l p).natAbs ≤ 268435454) ∧
      (268435456 : Int) = sumRounded 2 (nth l 4 + nth l 3 + nth l 1 + nth l 0) ∧
      24 = sumRounded 2 ((nth l 5 + nth l 2) * 2) ∧ -4 = sumRounded 2 ((nth l 7 + nth l 6) * 2) ∧
      16 = nth l 8 * 4) := by decide +kernel

theorem witness_HinvOfOddGrids :
    (let l := [536870911, -3, 5, 8, -2]
     let s := grid 1 5 l []
     s.err = .none ∧ s.coef.wf = true ∧ (s.rows = 1 ∧ s.cols = 5) ∧ 5 ≤ s.params.coefWords ∧
      (∀ p, p < 5 → coefInt s.coef p = nth l p ∧ (nth l p).natAbs ≤ 536870911) ∧
      (268435456, 268435456) = inverseTwo 4 2 (reRounded 8 (nth l 0)) (nth l 1) ∧
      (134217724, 134217728) = inverseTwo 2 2 268435456 (nth l 2) ∧
      (33554429, 33554433) = inverseTwo 1 4 134217724 (nth l 3) ∧
      (33554432, 33554431) = inverseTwo 1 4 134217728 (nth l 4)) ∧
    (let l := [536870911, -3, 5, 8, -2, 7, 0, -1, 4]
     let s := grid 3 3 l []
     s.err = .none ∧ s.coef.wf = true ∧ s.rows = 3 ∧ s.cols = 3 ∧ 9 ≤ s.params.coefWords ∧
      (∀ p, p < 9 → coefInt s.coef p = nth l p ∧ (nth l p).natAbs ≤ 536870911) ∧
      (268435452, 268435452, 268435460, 268435456) =
        inverseFour 2 2 (reRounded 4 (nth l 0)) (nth l 3) (nth l 1) (reRounded 1 (nth l 4)) ∧
      (67108862, 67108863, 67108860, 67108865) = inverseFour 1 4 268435452 (nth l 6) (nth l 2) (nth l 8) ∧
      (67108863, 67108862) = inverseTwo 1 4 268435452 (nth l 7) ∧
      (67108863, 67108867) = inverseTwo 1 4 268435460 (nth l 5)) := by decide +kernel

theorem witness_HinvCompletesWithinBound :
    let s := grid 2 3 [700000000, -700000000, 4, 0, 8, -8] []
    s.err = .none ∧ gridFits s ∧ s.coef.wf = true ∧
      ∀ a, a < gridRows s * gridCols s → (coefInt s.coef a).natAbs ≤ 700000000 := by decide +kernel

end Sys2Proof.Machine.Tests
end

section
/-! Proofs of the family `00_scope.md`. What a command only reads, every command keeps (R223, R30, R51); what a step
can do, said once (R237, R252, R257); and with these, that no step changes a parameter (R6). -/

namespace Sys2Proof.Machine

/-! ## What a command only reads -/

/-- `s` with every field that a command can write blanked: two states agree on it exactly when they have the same
parameters, host-written registers, input memory and host moves. -/
def State.commandInputs (s : State) : State :=
  { s with
    busy := false
    done := false
    err := .none
    lastOp := 0
    result := 0
    rd := ⟨0, 0, 0⟩
    wr := ⟨0, 0, 0⟩
    ricek := 0
    coef := []
    outMem := []
    draws := 0 }

@[simp] theorem commandInputs_params (s : State) : s.commandInputs.params = s.params := rfl

@[simp] theorem accept_commandInputs (op : BitVec 8) (s : State) :
    (accept op s).commandInputs = s.commandInputs := rfl

@[simp] theorem complete_commandInputs (e : ErrCode) (s : State) :
    (complete e s).commandInputs = s.commandInputs := rfl

@[simp] theorem softReset_commandInputs (s : State) : (softReset s).commandInputs = s.commandInputs := rfl

@[simp] theorem spoil_commandInputs (t : Touches) (s : State) :
    (spoil t s).commandInputs = s.commandInputs := rfl

/-! ## The pseudocode of a command -/

/-- Whenever the pseudocode `body` answers, the fields that a command only reads are as they were. -/
def KeepsInputs (body : State → Except ErrCode State) : Prop :=
  ∀ s s' : State, body s = .ok s' → s'.commandInputs = s.commandInputs

/-- Pseudocode that cannot fail and writes by `g`. -/
theorem keepsInputs_ok {g : State → State} (hg : ∀ s, (g s).commandInputs = s.commandInputs) :
    KeepsInputs fun s => .ok (g s) := by
  intro s s' h
  cases h
  exact hg s

/-- Pseudocode that first computes a value from the state: enough that the rest keeps the inputs for each value. -/
theorem keepsInputs_bind {α : Type} {x : State → Except ErrCode α} {f : State → α → Except ErrCode State}
    (hf : ∀ a, KeepsInputs fun s => f s a) : KeepsInputs fun s => x s >>= f s := by
  intro s s' h
  obtain ⟨a, -, ha⟩ := bind_ok.1 h
  exact hf a s s' ha

/-- Pseudocode that computes a value and then stores it by `g`, the shape of most commands. -/
theorem keepsInputs_store {α : Type} {x : State → Except ErrCode α} {g : State → α → State}
    (hg : ∀ a s, (g s a).commandInputs = s.commandInputs) : KeepsInputs fun s => x s >>= fun a => .ok (g s a) :=
  keepsInputs_bind fun a => keepsInputs_ok (hg a)

theorem readBytes_keepsInputs (n : Nat) : KeepsInputs (readBytes n) := keepsInputs_store fun _ _ => rfl

theorem readBits_keepsInputs (n : Nat) : KeepsInputs (readBits n) := keepsInputs_store fun _ _ => rfl

theorem writeBytes_keepsInputs (n : Nat) : KeepsInputs (writeBytes n) := keepsInputs_store fun _ _ => rfl

theorem writeBits_keepsInputs (n : Nat) : KeepsInputs (writeBits n) := keepsInputs_store fun _ _ => rfl

theorem onGrid_keepsInputs (f : State → Memory 32 → Except ErrCode (Memory 32)) : KeepsInputs (onGrid f) :=
  keepsInputs_store fun _ _ => rfl

theorem onStreamGrid_keepsInputs
    (f : State → BitReader × Memory 32 → Except ErrCode (BitReader × Memory 32)) :
    KeepsInputs (onStreamGrid f) :=
  keepsInputs_store fun _ _ => rfl

/-- The end of TERM's pseudocode: FORMAT unless the nybble it read is 0 (R182). -/
theorem termEnd_keepsInputs (p : Nat × BitReader) :
    KeepsInputs fun s => if p.1 ≠ 0 then .error .format else .ok { s with rd := p.2 } := by
  intro s s' h
  dsimp only at h
  split at h
  · cases h
  · cases h
    rfl

/-! ## Commands -/

/-- However a submitted command ends, it keeps its inputs if its pseudocode does. -/
theorem submit_commandInputs {op : BitVec 8} {t : Touches} {check : State → Option ErrCode}
    {body : State → Except ErrCode State} {s s' : State}
    (h : submit op t check body s = .next s') (hb : KeepsInputs body) : s'.commandInputs = s.commandInputs := by
  rcases submit_cases h with ⟨-, rfl⟩ | ⟨-, e, -, rfl⟩ | ⟨-, -, b, hok, rfl⟩ | ⟨-, -, e, -, rfl⟩
  · rfl
  · simp
  · simp [hb _ b hok]
  · simp

/-- The frame common to all commands: none writes a parameter, a host-written register, IN or the host's moves. -/
theorem exec_commandInputs :
    ∀ {i : Instr} {s t : State}, exec i s = .next t → t.commandInputs = s.commandInputs
  | .nop, _, _, h => submit_commandInputs h (keepsInputs_ok fun _ => rfl)
  | .srst, _, _, h => by
    cases h
    simp
  | .clr, _, _, h => submit_commandInputs h (keepsInputs_store fun _ _ => rfl)
  | .rdu8, _, _, h => submit_commandInputs h (readBytes_keepsInputs 1)
  | .rdu16, _, _, h => submit_commandInputs h (readBytes_keepsInputs 2)
  | .rdu32, _, _, h => submit_commandInputs h (readBytes_keepsInputs 4)
  | .wru8, _, _, h => submit_commandInputs h (writeBytes_keepsInputs 1)
  | .wru16, _, _, h => submit_commandInputs h (writeBytes_keepsInputs 2)
  | .wru32, _, _, h => submit_commandInputs h (writeBytes_keepsInputs 4)
  | .getbit, _, _, h => submit_commandInputs h (readBits_keepsInputs 1)
  | .getbits n, _, _, h => submit_commandInputs h (readBits_keepsInputs n.toNat)
  | .bralign, _, _, h => submit_commandInputs h (keepsInputs_ok fun _ => rfl)
  | .putbit, _, _, h => submit_commandInputs h (writeBits_keepsInputs 1)
  | .putbits n, _, _, h => submit_commandInputs h (writeBits_keepsInputs n.toNat)
  | .bwflush, _, _, h => submit_commandInputs h (keepsInputs_store fun _ _ => rfl)
  | .htrans, _, _, h => submit_commandInputs h (onGrid_keepsInputs _)
  | .hinv, _, _, h => submit_commandInputs h (onGrid_keepsInputs _)
  | .digitize, _, _, h => submit_commandInputs h (onGrid_keepsInputs _)
  | .undigitize, _, _, h => submit_commandInputs h (onGrid_keepsInputs _)
  | .huffsym, _, _, h => submit_commandInputs h (keepsInputs_store fun _ _ => rfl)
  | .qtdec _, _, _, h => submit_commandInputs h (onStreamGrid_keepsInputs _)
  | .term, _, _, h => submit_commandInputs h (keepsInputs_bind termEnd_keepsInputs)
  | .signs, _, _, h => submit_commandInputs h (onStreamGrid_keepsInputs _)
  | .riceval _, _, _, h => submit_commandInputs h (keepsInputs_store fun _ _ => rfl)
  | .ricedec _, _, _, h =>
    submit_commandInputs h (keepsInputs_bind fun _ => keepsInputs_store fun _ _ => rfl)

/-- A word written to CMD, legal, illegal or ignored, keeps what a command only reads (R73, R220). -/
theorem onCmdWrite_commandInputs {w : Word} {s t : State} (h : onCmdWrite w s = .next t) :
    t.commandInputs = s.commandInputs := by
  unfold onCmdWrite at h
  split at h
  · cases h
    rfl
  · split at h
    · exact exec_commandInputs h
    · cases h
      simp

/-! ## Steps -/

/-- What a step that answers has done: nothing, or the effect of the host's next move, which is no violation. -/
theorem step_cases {s t : State} (h : step s = .next t) :
    (s.host = [] ∧ t = s) ∨
    ∃ m rest, s.host = m :: rest ∧ violation m { s with host := rest } = none ∧
      hostEffect m { s with host := rest } = .next t := by
  unfold step at h
  split at h
  · rename_i hhost
    cases h
    exact .inl ⟨hhost, rfl⟩
  · rename_i m rest hhost
    unfold hostMove at h
    split at h
    · cases h
    · rename_i hv
      exact .inr ⟨m, rest, hhost, hv, h⟩

@[simp] theorem regWriteData_params (off : Nat) (v : Word) (s : State) :
    (regWriteData off v s).params = s.params := by
  simp only [regWriteData, apply_ite State.params, writeStatus_params, ite_self]

@[simp] theorem abandonCommand_params (s : State) : (abandonCommand s).params = s.params := rfl

theorem onCmdWrite_params {w : Word} {s t : State} (h : onCmdWrite w s = .next t) : t.params = s.params := by
  simpa using congrArg State.params (onCmdWrite_commandInputs h)

/-- Every move of the host keeps the parameters: a write to CMD runs a command, any other move writes one register,
memory cell or `hostData`, or resets. -/
theorem hostEffect_params {m : HostMove} {s t : State} (h : hostEffect m s = .next t) :
    t.params = s.params := by
  cases m with
  | regWrite off size v =>
    simp only [hostEffect] at h
    split at h
    · exact onCmdWrite_params h
    · cases h
      simp
  | outWrite i b => cases h
  | reset =>
    cases h
    simp
  | resetDuringCommand =>
    cases h
    simp
  | regRead off size | coefRead i size | coefWrite i size v | inRead i | inWrite i b | outRead i =>
    cases h
    rfl

/-- Settles O19: an idle step changes nothing, and every other step is the effect of a host move, which keeps the
parameters. -/
theorem parametersNeverChange : Obligations.ParametersNeverChange := by
  intro s t h
  rcases step_cases h with ⟨-, rfl⟩ | ⟨m, rest, -, -, heffect⟩
  · rfl
  · simpa using hostEffect_params heffect

end Sys2Proof.Machine
end

section
/-! Proofs of the family `10_state.md`. First what the operations, and then each command, can do to the reader, the
writer, COEF and OUT, and which errors can end them part way, said once (R9, R110 to R115, R223); with these, the frame
of every command and the soundness of every step. Then what the host reads and writes in the register window. -/

namespace Sys2Proof.Machine

/-! ## Writes within a range -/

variable {w : Nat} {lo hi : Nat} {m m' m'' : Memory w}

/-- The second memory is the first after some writes, each at an index from `lo` to `hi - 1`. -/
inductive Memory.WritesWithin {w : Nat} (lo hi : Nat) (m : Memory w) : Memory w → Prop
  | refl : WritesWithin lo hi m m
  | write {m' : Memory w} {a : Nat} (h : WritesWithin lo hi m m') (hlo : lo ≤ a) (hhi : a < hi) (v : BitVec w) :
    WritesWithin lo hi m (m'.write a v)

theorem Memory.WritesWithin.trans (h : WritesWithin lo hi m m') (h' : WritesWithin lo hi m' m'') :
    WritesWithin lo hi m m'' := by
  induction h' with
  | refl => exact h
  | write _ hlo hhi v ih => exact ih.write hlo hhi v

/-- Writes from a later index on are writes from an earlier one on. -/
theorem Memory.WritesWithin.mono_lo {lo' : Nat} (h : WritesWithin lo' hi m m') (hlo : lo ≤ lo') :
    WritesWithin lo hi m m' := by
  induction h with
  | refl => exact .refl
  | write _ hlo' hhi v ih => exact ih.write (by omega) hhi v

theorem Memory.WritesWithin.wf (h : WritesWithin lo hi m m') (hm : m.wf = true) : m'.wf = true := by
  induction h with
  | refl => exact hm
  | write _ _ _ v ih => exact Memory.write_wf _ v ih

theorem Memory.WritesWithin.read_other (h : WritesWithin lo hi m m') {a : Nat} (ha : a < lo ∨ hi ≤ a) :
    m'.read a = m.read a := by
  induction h with
  | refl => rfl
  | write _ hlo hhi v ih => rw [Memory.read_write_other _ (by omega), ih]

/-- A loop of passes that each write within the range writes within it. -/
theorem foldUp_writesWithin {n : Nat} {f : Nat → Memory w → Memory w}
    (hf : ∀ i (c : Memory w), i < n → c.WritesWithin lo hi (f i c)) : m.WritesWithin lo hi (foldUp n f m) :=
  foldUp_keeps (P := fun c => m.WritesWithin lo hi c) (fun i c hi h => h.trans (hf i c hi)) .refl

theorem fillRange_writesWithin (lo hi : Nat) (v : Nat → BitVec w) (m : Memory w) :
    m.WritesWithin lo hi (fillRange lo hi v m) :=
  foldUp_writesWithin fun i _ _ => .write .refl (by omega) (by omega) _

/-! ## Computations that answer within a property or raise a late error -/

/-- The errors raised part way through a command, the others being raised before any effect (R223). -/
def ErrCode.Late (e : ErrCode) : Prop := e ∈ [ErrCode.truncated, .format, .outFull, .range]

theorem ErrCode.Late.ne_early {e : ErrCode} (h : e.Late) :
    e ≠ .none ∧ e ≠ .size ∧ e ≠ .seq ∧ e ≠ .illegal := by
  revert h
  cases e <;> simp [ErrCode.Late]

variable {α β σ : Type} {P : α → Prop} {Q : β → Prop}

/-- Every answer of the computation has the property, and every error it raises is a late one. -/
def Yields (P : α → Prop) : Except ErrCode α → Prop
  | .ok a => P a
  | .error e => e.Late

theorem yields_iff {x : Except ErrCode α} :
    Yields P x ↔ (∀ a, x = .ok a → P a) ∧ ∀ e, x = .error e → e.Late := by
  cases x <;> simp [Yields]

theorem Yields.mono {P' : α → Prop} {x : Except ErrCode α} (h : Yields P x) (hP : ∀ a, P a → P' a) :
    Yields P' x := by
  cases x with
  | ok a => exact hP a h
  | error e => exact h

theorem Yields.bind {x : Except ErrCode α} {f : α → Except ErrCode β} (h : Yields P x)
    (hf : ∀ a, P a → Yields Q (f a)) : Yields Q (x >>= f) := by
  cases x with
  | ok a => exact hf a h
  | error e => exact h

theorem yields_loopUp {P : σ → Prop} {n : Nat} {f : Nat → σ → Except ErrCode σ} {x : σ} (hx : P x)
    (hf : ∀ i y, i < n → P y → Yields P (f i y)) : Yields P (loopUp n f x) := by
  induction n with
  | zero => exact hx
  | succ n ih => exact (ih fun i y hi => hf i y (by omega)).bind fun y hy => hf n y (by omega) hy

theorem yields_loopDown {P : σ → Prop} {n : Nat} {f : Nat → σ → Except ErrCode σ} {x : σ} (hx : P x)
    (hf : ∀ i y, i < n → P y → Yields P (f i y)) : Yields P (loopDown n f x) := by
  induction n generalizing x with
  | zero => exact hx
  | succ n ih => exact (hf n x (by omega) hx).bind fun y hy => ih hy fun i y hi => hf i y (by omega)

theorem yields_overQuadrant {P : σ → Prop} {d : Quadrant} {C : Nat} {f : Nat → σ → Except ErrCode σ} {x : σ}
    (hx : P x) (hf : ∀ i j y, i < d.height → j < d.width → P y → Yields P (f (d.cell C i j) y)) :
    Yields P (overQuadrant d C f x) :=
  yields_loopUp hx fun i _ hi hy => yields_loopUp hy fun j y hj hy => hf i j y hi hj hy

/-! ## The reader -/

variable {src : Source} {r r' r'' : BitReader}

/-- What a read does to the reader: its position does not go back, nor beyond the end of the input; and its count stays
one of 0 to 7. -/
structure BitReader.Advances (src : Source) (r r' : BitReader) : Prop where
  pos_le : r.pos.toNat ≤ r'.pos.toNat
  pos_bound : r'.pos.toNat ≤ max r.pos.toNat src.len.toNat
  cnt : r.cnt.toNat ≤ 7 → r'.cnt.toNat ≤ 7

theorem BitReader.Advances.refl (src : Source) (r : BitReader) : r.Advances src r :=
  ⟨le_refl _, le_max_left _ _, id⟩

theorem BitReader.Advances.trans (h : r.Advances src r') (h' : r'.Advances src r'') : r.Advances src r'' where
  pos_le := h.pos_le.trans h'.pos_le
  pos_bound := by
    have := h.pos_bound
    have := h'.pos_bound
    omega
  cnt := h'.cnt ∘ h.cnt

/-- The computation returns a value and the reader, which has advanced, or raises a late error. -/
def Reads (src : Source) (r : BitReader) (x : Except ErrCode (α × BitReader)) : Prop :=
  Yields (fun p => r.Advances src p.2) x

theorem reads_ok (a : α) : Reads src r (.ok (a, r)) := BitReader.Advances.refl src r

theorem reads_error {e : ErrCode} (h : e.Late) : Reads (α := α) src r (.error e) := h

/-- A read followed by a read from where it left off. -/
theorem Reads.bind {x : Except ErrCode (α × BitReader)} {f : α × BitReader → Except ErrCode (β × BitReader)}
    (h : Reads src r x) (hf : ∀ a r', Reads src r' (f (a, r'))) : Reads src r (x >>= f) :=
  Yields.bind h fun p hp => (hf p.1 p.2).mono fun _ hq => hp.trans hq

theorem readByte_reads : Reads src r (readByte src r) := by
  refine yields_iff.2 ⟨fun p h => ?_, fun e h => ?_⟩
  · obtain ⟨hlt, rfl⟩ := readByte_ok.1 h
    have hpos := pos_succ_toNat hlt
    exact ⟨by simp only [hpos]; omega, by simp only [hpos]; omega, id⟩
  · obtain ⟨-, rfl⟩ := readByte_error.1 h
    simp [ErrCode.Late]

/-- What `GetBit` leaves in the reader: a byte taken and 7 of its bits buffered, or one buffered bit fewer (R112). -/
theorem getBit_ok {p : Bool × BitReader} (h : getBit src r = .ok p) :
    (r.cnt = 0 ∧ r.pos.toNat < src.len.toNat ∧
      p.2 = { buf := src.mem.read r.pos.toNat, cnt := 7, pos := r.pos + 1 }) ∨
    (r.cnt ≠ 0 ∧ p.2 = { r with cnt := r.cnt - 1 }) := by
  obtain ⟨r', hr, hp⟩ := bind_ok.1 h
  cases hp
  unfold refill at hr
  split at hr
  · rename_i h0
    obtain ⟨q, hq, hr⟩ := bind_ok.1 hr
    obtain ⟨hlt, rfl⟩ := readByte_ok.1 hq
    cases hr
    exact .inl ⟨h0, hlt, by simp⟩
  · rename_i h0
    cases hr
    exact .inr ⟨h0, rfl⟩

theorem getBit_reads : Reads src r (getBit src r) := by
  refine yields_iff.2 ⟨fun p h => ?_, fun e h => ?_⟩
  · rcases getBit_ok h with ⟨-, hlt, hp⟩ | ⟨h0, hp⟩
    · have hpos := pos_succ_toNat hlt
      rw [hp]
      exact ⟨by simp only [hpos]; omega, by simp only [hpos]; omega, fun _ => le_refl 7⟩
    · rw [hp]
      refine ⟨le_refl _, le_max_left _ _, fun h7 => ?_⟩
      dsimp only
      bv_omega
  · rw [getBit_error h]
    simp [ErrCode.Late]

theorem getBitsFrom_reads (n v : Nat) : Reads src r (getBitsFrom src n v r) := by
  induction n generalizing v r with
  | zero => exact reads_ok v
  | succ n ih => exact getBit_reads.bind fun _ _ => ih _

theorem getBits_reads (n : Nat) : Reads src r (getBits src n r) := getBitsFrom_reads n 0

theorem readBytesFrom_reads (n v : Nat) : Reads src r (readBytesFrom src n v r) := by
  induction n generalizing v r with
  | zero => exact reads_ok v
  | succ n ih => exact readByte_reads.bind fun _ _ => ih _

theorem huffLoop_reads (codes : List HuffCode) (more l v : Nat) : Reads src r (huffLoop codes src more l v r) := by
  induction more generalizing l v r with
  | zero =>
    unfold huffLoop
    split
    · exact reads_ok _
    · exact reads_error (by simp [ErrCode.Late])
  | succ more ih =>
    unfold huffLoop
    split
    · exact reads_ok _
    · exact getBit_reads.bind fun _ _ => ih _ _

theorem huffDecode_reads (codes : List HuffCode) : Reads src r (huffDecode codes src r) :=
  (getBits_reads 3).bind fun _ _ => huffLoop_reads codes 3 3 _

theorem readPlaneFlag_reads (wide : Bool) : Reads src r (readPlaneFlag wide src r) := by
  cases wide with
  | false => exact getBit_reads
  | true =>
    refine (getBits_reads 4).bind fun v r' => ?_
    dsimp only
    split
    · exact reads_ok true
    · split
      · exact reads_ok false
      · exact reads_error (by simp [ErrCode.Late])

theorem readLevel_reads (codes : List HuffCode) (parent : CodeArray) (width idx : Nat) (acc : List Nat) :
    Reads src r (readLevel codes src parent width idx acc r) := by
  induction idx generalizing acc r with
  | zero => exact reads_ok acc
  | succ idx ih =>
    unfold readLevel
    split
    · exact (huffDecode_reads codes).bind fun _ _ => ih _
    · exact ih _

theorem expandLevels_reads (codes : List HuffCode) (nqx nqy todo : Nat) (parent : CodeArray) :
    Reads src r (expandLevels codes src nqx nqy todo parent r) := by
  induction todo generalizing parent r with
  | zero => exact reads_ok parent
  | succ todo ih => exact (readLevel_reads codes parent _ _ []).bind fun _ _ => ih _

theorem readNybbles_reads (n : Nat) : Reads src r (readNybbles src n r) := by
  induction n generalizing r with
  | zero => exact reads_ok []
  | succ n ih => exact (getBits_reads 4).bind fun _ _ => ih.bind fun _ _ => reads_ok _

theorem decodePlane_reads (codes : List HuffCode) (wide : Bool) (nqx nqy : Nat) :
    Reads src r (decodePlane codes wide src nqx nqy r) := by
  refine (readPlaneFlag_reads wide).bind fun quadtree r' => ?_
  dsimp only
  split
  · exact (huffDecode_reads codes).bind fun _ _ => expandLevels_reads codes nqx nqy _ _
  · exact (readNybbles_reads _).bind fun _ _ => reads_ok _

theorem riceRun_reads (room z : Nat) : Reads src r (riceRun src room z r) := by
  induction room generalizing z r with
  | zero =>
    refine getBit_reads.bind fun b r' => ?_
    dsimp only
    split
    · exact reads_ok z
    · exact reads_error (by simp [ErrCode.Late])
  | succ room ih =>
    refine getBit_reads.bind fun b r' => ?_
    dsimp only
    split
    · exact reads_ok z
    · exact ih _

theorem riceValue_reads (k : Nat) : Reads src r (riceValue src k r) := by
  refine (riceRun_reads _ 0).bind fun z r' => (getBits_reads k).bind fun low r'' => ?_
  dsimp only
  split
  · exact reads_error (by simp [ErrCode.Late])
  · exact reads_ok _

/-! ## The writer -/

variable {room : Nat} {k k' k'' : Sink}

/-- What a write does to the output stream: its position does not go back, nor beyond the end of OUT; the bytes it
stores lie from that position on; and its buffer holds no more bits than its count, which stays one of 0 to 7. -/
structure Sink.Advances (room : Nat) (k k' : Sink) : Prop where
  pos_le : k.wr.pos.toNat ≤ k'.wr.pos.toNat
  pos_bound : k'.wr.pos.toNat ≤ max k.wr.pos.toNat room
  mem : k.mem.WritesWithin k.wr.pos.toNat room k'.mem
  buffer : k.wr.cnt.toNat ≤ 7 ∧ k.wr.buf.toNat < 2 ^ k.wr.cnt.toNat →
    k'.wr.cnt.toNat ≤ 7 ∧ k'.wr.buf.toNat < 2 ^ k'.wr.cnt.toNat

theorem Sink.Advances.refl (room : Nat) (k : Sink) : k.Advances room k :=
  ⟨le_refl _, le_max_left _ _, .refl, id⟩

theorem Sink.Advances.trans (h : k.Advances room k') (h' : k'.Advances room k'') : k.Advances room k'' where
  pos_le := h.pos_le.trans h'.pos_le
  pos_bound := by
    have := h.pos_bound
    have := h'.pos_bound
    omega
  mem := h.mem.trans (h'.mem.mono_lo h.pos_le)
  buffer := h'.buffer ∘ h.buffer

/-- OUT_POS is a 32-bit register, so it can stand behind any byte of a legal OUT (R33). -/
theorem outPos_succ_toNat (hroom : room < 2 ^ 32) (h : k.wr.pos.toNat < room) :
    (k.wr.pos + 1).toNat = k.wr.pos.toNat + 1 := by
  rw [BitVec.toNat_add]
  simp
  omega

/-- The computation advances the output stream, if OUT is no larger than its position register can count, or raises a
late error. -/
def Writes (room : Nat) (k : Sink) (x : Except ErrCode Sink) : Prop :=
  Yields (fun k' => room < 2 ^ 32 → k.Advances room k') x

theorem writes_loopDown {n : Nat} {f : Nat → Sink → Except ErrCode Sink} (hf : ∀ i k, Writes room k (f i k)) :
    Writes room k (loopDown n f k) :=
  yields_loopDown (fun _ => .refl room k) fun i k' _ h =>
    (hf i k').mono fun _ h' hroom => (h hroom).trans (h' hroom)

theorem emitByte_writes (b : Byte) : Writes room k (emitByte room b k) := by
  refine yields_iff.2 ⟨fun k' h hroom => ?_, fun e h => ?_⟩
  · obtain ⟨hlt, rfl⟩ := emitByte_ok.1 h
    have hpos := outPos_succ_toNat hroom hlt
    exact ⟨by simp only [hpos]; omega, by simp only [hpos]; omega, .write .refl (le_refl _) hlt b, id⟩
  · obtain ⟨-, rfl⟩ := emitByte_error.1 h
    simp [ErrCode.Late]

/-- One more bit below a buffer of `cnt` bits gives a buffer of `cnt + 1` bits (R114). -/
theorem shiftedBuffer_lt {buf : Byte} {cnt : Nat} (hcnt : cnt < 7) (hbuf : buf.toNat < 2 ^ cnt) (b : Bool) :
    (buf <<< 1 ||| (BitVec.ofBool b).zeroExtend 8).toNat < 2 ^ (cnt + 1) := by
  have hpow : 2 ^ (cnt + 1) ≤ 2 ^ 7 := Nat.pow_le_pow_right (by omega) (by omega)
  rw [BitVec.toNat_or]
  refine Nat.or_lt_two_pow ?_ ?_
  · rw [BitVec.toNat_shiftLeft, Nat.shiftLeft_eq]
    omega
  · have hb : ((BitVec.ofBool b).zeroExtend 8).toNat ≤ 1 := by cases b <;> decide
    have := Nat.one_lt_two_pow (n := cnt + 1) (by omega)
    omega

theorem putBit_writes (b : Bool) : Writes room k (putBit room b k) := by
  refine yields_iff.2 ⟨fun k' h hroom => ?_, fun e h => ?_⟩
  · rcases putBit_ok h with ⟨h8, rfl⟩ | ⟨-, hlt, rfl⟩
    · refine ⟨le_refl _, le_max_left _ _, .refl, fun ⟨hcnt, hbuf⟩ => ?_⟩
      have hsucc : (k.wr.cnt + 1).toNat = k.wr.cnt.toNat + 1 := by bv_omega
      have hlt : k.wr.cnt.toNat < 7 := by bv_omega
      simp only [hsucc]
      exact ⟨by omega, shiftedBuffer_lt hlt hbuf b⟩
    · have hpos := outPos_succ_toNat hroom hlt
      exact ⟨by simp only [hpos]; omega, by simp only [hpos]; omega, .write .refl (le_refl _) hlt _,
        fun _ => ⟨Nat.zero_le 7, Nat.one_pos⟩⟩
  · rw [putBit_error h]
    simp [ErrCode.Late]

theorem putBits_writes (v : Word) (n : Nat) : Writes room k (putBits room v n k) :=
  writes_loopDown fun _ _ => putBit_writes _

theorem emitBytes_writes (v : Word) (n : Nat) : Writes room k (emitBytes room v n k) :=
  writes_loopDown fun _ _ => emitByte_writes _

theorem flushWriter_writes : Writes room k (flushWriter room k) := by
  unfold flushWriter
  split
  · exact fun _ => .refl room k
  · exact putBits_writes 0 _

end Sys2Proof.Machine

namespace Sys2Proof.Machine

/-! ## COEF -/

variable {n : Nat} {c c' : Memory 32}

/-- The computation writes only to the first `n` words of COEF, or raises a late error. -/
def WritesCoef (n : Nat) (c : Memory 32) (x : Except ErrCode (Memory 32)) : Prop := Yields (c.WritesWithin 0 n) x

theorem writesCoef_ok : WritesCoef n c (.ok c) := Memory.WritesWithin.refl

/-- Writes followed by writes to what they gave. -/
theorem WritesCoef.bind {x : Except ErrCode (Memory 32)} {f : Memory 32 → Except ErrCode (Memory 32)}
    (h : WritesCoef n c x) (hf : ∀ c', WritesCoef n c' (f c')) : WritesCoef n c (x >>= f) :=
  Yields.bind h fun c' hc => (hf c').mono fun _ h' => hc.trans h'

/-- Writes to what earlier writes gave. -/
theorem WritesCoef.after {x : Except ErrCode (Memory 32)} (hc : c.WritesWithin 0 n c') (h : WritesCoef n c' x) :
    WritesCoef n c x :=
  Yields.mono h fun _ h' => hc.trans h'

theorem writesCoef_loopUp {m : Nat} {f : Nat → Memory 32 → Except ErrCode (Memory 32)}
    (hf : ∀ i c, i < m → WritesCoef n c (f i c)) : WritesCoef n c (loopUp m f c) :=
  yields_loopUp .refl fun i c hi hc => (hf i c hi).mono fun _ => hc.trans

theorem writesCoef_loopDown {m : Nat} {f : Nat → Memory 32 → Except ErrCode (Memory 32)}
    (hf : ∀ i c, i < m → WritesCoef n c (f i c)) : WritesCoef n c (loopDown m f c) :=
  yields_loopDown .refl fun i c hi hc => (hf i c hi).mono fun _ => hc.trans

theorem store_writesCoef {a : Nat} (ha : a < n) (v : Int) : WritesCoef n c (store a v c) := by
  refine yields_iff.2 ⟨fun c' h => ?_, fun e h => ?_⟩
  · obtain ⟨-, -, rfl⟩ := store_ok.1 h
    exact .write .refl (Nat.zero_le a) ha _
  · obtain ⟨-, rfl⟩ := store_error.1 h
    simp [ErrCode.Late]

variable {R C rt ct : Nat}

/-- Level k's corner of the grid is a part of it (R141). -/
theorem ceilShift_le (n s : Nat) : ceilShift n s ≤ n := by
  unfold ceilShift
  have hpos : 0 < 2 ^ s := Nat.two_pow_pos s
  have hmul : n ≤ n * 2 ^ s := Nat.le_mul_of_pos_right n hpos
  rw [Nat.div_le_iff_le_mul hpos]
  omega

theorem permuteRows_writesWithin (hrt : rt ≤ R) (hct : ct ≤ C) (src : Nat → Nat) :
    c.WritesWithin 0 (R * C) (permuteRows C rt ct src c) :=
  foldUp_writesWithin fun _ _ hi => foldUp_writesWithin fun _ _ hj =>
    .write .refl (Nat.zero_le _) (cell_lt (hi.trans_le hrt) (hj.trans_le hct)) _

theorem permuteCols_writesWithin (hrt : rt ≤ R) (hct : ct ≤ C) (src : Nat → Nat) :
    c.WritesWithin 0 (R * C) (permuteCols C rt ct src c) :=
  foldUp_writesWithin fun _ _ hj => foldUp_writesWithin fun _ _ hi =>
    .write .refl (Nat.zero_le _) (cell_lt (hi.trans_le hrt) (hj.trans_le hct)) _

/-- The blocks of a level write to the grid only, when each block does so at every place it is put (R150, R158). -/
theorem overBlocks_writesCoef {block pair : Nat → Nat → Memory 32 → Except ErrCode (Memory 32)}
    {corner : Nat → Memory 32 → Except ErrCode (Memory 32)} (hrt : rt ≤ R) (hct : ct ≤ C)
    (hblock : ∀ i j c, i + 1 < R → j + 1 < C → WritesCoef (R * C) c (block i j c))
    (hpair : ∀ a b c, a < R * C → b < R * C → WritesCoef (R * C) c (pair a b c))
    (hcorner : ∀ a c, a < R * C → WritesCoef (R * C) c (corner a c)) :
    WritesCoef (R * C) c (overBlocks C rt ct block pair corner c) := by
  have hcell : ∀ {i j : Nat}, i < rt → j < ct → i * C + j < R * C := fun hi hj =>
    cell_lt (hi.trans_le hrt) (hj.trans_le hct)
  have hlast : ∀ c, WritesCoef (R * C) c
      (if rt % 2 = 1 ∧ ct % 2 = 1 then corner ((rt - 1) * C + (ct - 1)) c else .ok c) := by
    intro c
    split
    · exact hcorner _ c (hcell (by omega) (by omega))
    · exact writesCoef_ok
  refine WritesCoef.bind (writesCoef_loopUp fun ip c hip => ?rowPair) fun c => ?lastRow
  case rowPair =>
    refine (writesCoef_loopUp fun jp c hjp => hblock _ _ c (by omega) (by omega)).bind fun c => ?_
    split
    · exact hpair _ _ c (hcell (by omega) (by omega)) (hcell (by omega) (by omega))
    · exact writesCoef_ok
  case lastRow =>
    by_cases hodd : rt % 2 = 1
    · simp only [if_pos hodd]
      refine (writesCoef_loopUp fun jp c hjp => ?_).bind hlast
      exact hpair _ _ c (hcell (by omega) (by omega)) (hcell (by omega) (by omega))
    · simp only [if_neg hodd]
      exact hlast c

/-- Storing the four words of a full block, in the order of R146 and R154. -/
theorem blockStores_writesCoef {i j : Nat} (hi : i + 1 < R) (hj : j + 1 < C) (d z y x : Int) :
    WritesCoef (R * C) c (do
      let c ← store ((i + 1) * C + (j + 1)) d c
      let c ← store ((i + 1) * C + j) z c
      let c ← store (i * C + (j + 1)) y c
      store (i * C + j) x c) :=
  have hi' : i < R := by omega
  have hj' : j < C := by omega
  (store_writesCoef (cell_lt hi hj) d).bind fun _ => (store_writesCoef (cell_lt hi hj') z).bind fun _ =>
    (store_writesCoef (cell_lt hi' hj) y).bind fun _ => store_writesCoef (cell_lt hi' hj') x

theorem forwardBlock_writesCoef (k : Nat) {i j : Nat} (hi : i + 1 < R) (hj : j + 1 < C) :
    WritesCoef (R * C) c (forwardBlock C k i j c) :=
  blockStores_writesCoef hi hj _ _ _ _

theorem inverseBlock_writesCoef (k : Nat) {i j : Nat} (hi : i + 1 < R) (hj : j + 1 < C) :
    WritesCoef (R * C) c (inverseBlock C k i j c) :=
  blockStores_writesCoef hi hj _ _ _ _

/-- Storing the two words of a leftover pair, in the order of R147 and R155. -/
theorem pairStores_writesCoef {a b : Nat} (ha : a < n) (hb : b < n) (x y : Int) :
    WritesCoef n c (do
      let c ← store b y c
      store a x c) :=
  (store_writesCoef hb y).bind fun _ => store_writesCoef ha x

theorem forwardPair_writesCoef (k : Nat) {a b : Nat} (ha : a < n) (hb : b < n) :
    WritesCoef n c (forwardPair k a b c) :=
  pairStores_writesCoef ha hb _ _

theorem inversePair_writesCoef (k : Nat) {a b : Nat} (ha : a < n) (hb : b < n) :
    WritesCoef n c (inversePair k a b c) :=
  pairStores_writesCoef ha hb _ _

theorem forwardLevel_writesCoef (R C k : Nat) : WritesCoef (R * C) c (forwardLevel R C k c) := by
  have hrt := ceilShift_le R k
  have hct := ceilShift_le C k
  refine WritesCoef.bind (overBlocks_writesCoef hrt hct (fun _ _ _ => forwardBlock_writesCoef k)
    (fun _ _ _ => forwardPair_writesCoef k) fun _ _ ha => store_writesCoef ha _) fun c => ?_
  exact (permuteRows_writesWithin hrt hct _).trans (permuteCols_writesWithin hrt hct _)

theorem inverseLevel_writesCoef (R C k : Nat) : WritesCoef (R * C) c (inverseLevel R C k c) := by
  have hrt := ceilShift_le R k
  have hct := ceilShift_le C k
  refine .after ((permuteRows_writesWithin hrt hct (unshuffleSource (ceilShift C k))).trans
    (permuteCols_writesWithin hrt hct (unshuffleSource (ceilShift R k)))) ?_
  exact overBlocks_writesCoef hrt hct (fun _ _ _ => inverseBlock_writesCoef k)
    (fun _ _ _ => inversePair_writesCoef k) fun _ _ ha => store_writesCoef ha _

theorem forwardTransform_writesCoef (R C : Nat) : WritesCoef (R * C) c (forwardTransform R C c) :=
  writesCoef_loopUp fun k _ _ => forwardLevel_writesCoef R C k

/-- The pre-rounding writes word 0, which the grid has unless it is empty (R153). -/
theorem inverseTransform_writesCoef (hpos : 0 < R * C) : WritesCoef (R * C) c (inverseTransform R C c) := by
  unfold inverseTransform
  dsimp only
  split
  · exact writesCoef_ok
  · exact (store_writesCoef hpos _).bind fun _ => writesCoef_loopDown fun k _ _ => inverseLevel_writesCoef R C k

theorem digitizeGrid_writesCoef (s n : Nat) : WritesCoef n c (digitizeGrid s n c) := by
  unfold digitizeGrid
  split
  · exact writesCoef_ok
  · exact writesCoef_loopUp fun _ _ ha => store_writesCoef ha _

theorem undigitizeGrid_writesCoef (s n : Nat) : WritesCoef n c (undigitizeGrid s n c) := by
  unfold undigitizeGrid
  split
  · exact writesCoef_ok
  · exact writesCoef_loopUp fun _ _ ha => store_writesCoef ha _

/-! ## The reader and COEF together -/

variable {src : Source} {x : BitReader × Memory 32}

/-- The computation advances the reader and writes only to the first `n` words of COEF, or raises a late error. -/
def ReadsIntoCoef (src : Source) (n : Nat) (x : BitReader × Memory 32)
    (y : Except ErrCode (BitReader × Memory 32)) : Prop :=
  Yields (fun x' => x.1.Advances src x'.1 ∧ x.2.WritesWithin 0 n x'.2) y

theorem readsIntoCoef_ok : ReadsIntoCoef src n x (.ok x) := ⟨.refl src x.1, .refl⟩

/-- A read, then writes to COEF that depend on what was read. -/
theorem Reads.writesCoef {α : Type} {y : Except ErrCode (α × BitReader)}
    {f : α × BitReader → Except ErrCode (BitReader × Memory 32)} (h : Reads src x.1 y)
    (hf : ∀ a r, Yields (fun x' => x'.1 = r ∧ x.2.WritesWithin 0 n x'.2) (f (a, r))) :
    ReadsIntoCoef src n x (y >>= f) :=
  Yields.bind h fun p hp => (hf p.1 p.2).mono fun _ ⟨hr, hc⟩ => ⟨hr ▸ hp, hc⟩

/-- Any of the four quadrants of an R×C grid lies in it (R162). -/
theorem quadrantCell_lt (q : BitVec 2) {i j : Nat} (hi : i < (quadrantRange R C q).height)
    (hj : j < (quadrantRange R C q).width) : (quadrantRange R C q).cell C i j < R * C := by
  have hR := ceilShift_le R 1
  have hC := ceilShift_le C 1
  have hrow : (quadrantRange R C q).r1 ≤ R := by
    unfold quadrantRange
    split_ifs <;> simp [hR]
  have hcol : (quadrantRange R C q).c1 ≤ C := by
    unfold quadrantRange
    split_ifs <;> simp [hC]
  unfold Quadrant.height at hi
  unfold Quadrant.width at hj
  exact cell_lt (by omega) (by omega)

theorem readsIntoCoef_overQuadrant {f : Nat → BitReader × Memory 32 → Except ErrCode (BitReader × Memory 32)}
    (q : BitVec 2) (hf : ∀ a x, a < R * C → ReadsIntoCoef src (R * C) x (f a x)) :
    ReadsIntoCoef src (R * C) x (overQuadrant (quadrantRange R C q) C f x) :=
  yields_overQuadrant ⟨.refl src x.1, .refl⟩ fun _ _ y hi hj ⟨hr, hc⟩ =>
    (hf _ y (quadrantCell_lt q hi hj)).mono fun _ ⟨hr', hc'⟩ => ⟨hr.trans hr', hc.trans hc'⟩

theorem applyPlane_writesWithin (q : BitVec 2) (p : Nat) (g : CodeArray) :
    c.WritesWithin 0 (R * C) (applyPlane (quadrantRange R C q) C p g c) := by
  refine foldUp_writesWithin fun i c hi => foldUp_writesWithin fun j c hj => ?_
  split
  · exact .write .refl (Nat.zero_le _) (quadrantCell_lt q hi hj) _
  · exact .refl

theorem qtdecQuadrant_readsIntoCoef (codes : List HuffCode) (wide : Bool) (q : BitVec 2) (nbp : Nat) :
    ReadsIntoCoef src (R * C) x (qtdecQuadrant codes wide src (quadrantRange R C q) C nbp x) := by
  unfold qtdecQuadrant
  split
  · exact readsIntoCoef_ok
  · refine yields_loopDown ⟨.refl src x.1, .refl⟩ fun p _ _ ⟨hr, hc⟩ => ?_
    exact Yields.bind (decodePlane_reads codes wide _ _) fun g hg =>
      ⟨hr.trans hg, hc.trans (applyPlane_writesWithin q p g.1)⟩

theorem signCell_readsIntoCoef {a : Nat} (ha : a < n) : ReadsIntoCoef src n x (signCell src a x) := by
  unfold signCell
  split
  · exact readsIntoCoef_ok
  · refine getBit_reads.writesCoef fun b r => ?_
    dsimp only
    split
    · exact Yields.bind (store_writesCoef ha _) fun _ hc => ⟨rfl, hc⟩
    · exact ⟨rfl, .refl⟩

theorem applySigns_readsIntoCoef (R C : Nat) : ReadsIntoCoef src (R * C) x (applySigns src R C x) :=
  yields_loopUp ⟨.refl src x.1, .refl⟩ fun _ _ _ ⟨hr, hc⟩ =>
    (readsIntoCoef_overQuadrant _ fun _ _ ha => signCell_readsIntoCoef ha).mono
      fun _ ⟨hr', hc'⟩ => ⟨hr.trans hr', hc.trans hc'⟩

theorem riceCell_readsIntoCoef (k : Nat) {a : Nat} (ha : a < n) : ReadsIntoCoef src n x (riceCell src k a x) :=
  (riceValue_reads k).writesCoef fun _ _ => Yields.bind (store_writesCoef ha _) fun _ hc => ⟨rfl, hc⟩

end Sys2Proof.Machine

namespace Sys2Proof.Machine

/-! ## What the pseudocode of a command can do -/

variable {t : Touches} {res : Bool} {s s' b : State}

/-- What a command whose row of `mayWrite` is `t` leaves alone, on success and on error (R51, R223). -/
structure Frame (t : Touches) (s s' : State) : Prop where
  rd : t.reader = false → s'.rd = s.rd
  out : t.writer = false → sink s' = sink s
  coef : t.grid = false → s'.coef = s.coef
  ricek : t.ricek = false → s'.ricek = s.ricek
  coefWrites : s.coef.WritesWithin 0 (gridRows s * gridCols s) s'.coef
  outWrites : s.params.outBytes < 2 ^ 32 → s.outMem.WritesWithin s.wr.pos.toNat s.params.outBytes s'.outMem

/-- What the pseudocode of such a command has done when it answers, `res` saying whether it writes RESULT. -/
structure Effect (t : Touches) (res : Bool) (s s' : State) : Prop extends Frame t s s' where
  rdAdvances : s.rd.Advances (source s) s'.rd
  outAdvances : s.params.outBytes < 2 ^ 32 → (sink s).Advances s.params.outBytes (sink s')
  result : res = false → s'.result = s.result

theorem Frame.refl (t : Touches) (s : State) : Frame t s s :=
  ⟨fun _ => rfl, fun _ => rfl, fun _ => rfl, fun _ => rfl, .refl, fun _ => .refl⟩

theorem Effect.refl (t : Touches) (res : Bool) (s : State) : Effect t res s s :=
  ⟨.refl t s, .refl _ _, fun _ => .refl _ _, fun _ => rfl⟩

theorem Effect.setRd (h : Effect t res s b) (ht : t.reader = true) {r : BitReader}
    (hr : s.rd.Advances (source s) r) : Effect t res s { b with rd := r } :=
  { h with rd := by simp [ht], rdAdvances := hr }

theorem Effect.setResult (h : Effect t res s b) (hres : res = true) (v : Word) :
    Effect t res s { b with result := v } :=
  { h with result := by simp [hres] }

theorem Effect.setSink (h : Effect t res s b) (ht : t.writer = true) {k : Sink}
    (hk : s.params.outBytes < 2 ^ 32 → (sink s).Advances s.params.outBytes k) : Effect t res s (setSink b k) :=
  { h with out := by simp [ht], outAdvances := hk, outWrites := fun hroom => (hk hroom).mem }

theorem Effect.setCoef (h : Effect t res s b) (ht : t.grid = true) {c : Memory 32}
    (hc : s.coef.WritesWithin 0 (gridRows s * gridCols s) c) : Effect t res s { b with coef := c } :=
  { h with coef := by simp [ht], coefWrites := hc }

theorem Effect.setRicek (h : Effect t res s b) (ht : t.ricek = true) (v : BitVec 4) :
    Effect t res s { b with ricek := v } :=
  { h with ricek := by simp [ht] }

/-- Free values go only where the command may write (R223). -/
theorem spoil_frame (t : Touches) (s : State) : Frame t s (spoil t s) where
  rd ht := spoil_rd_other ht s
  out ht := by simp [sink, spoil_wr_other ht, ht]
  coef ht := by simp [ht]
  ricek ht := by simp [ht]
  coefWrites := by
    rw [spoil_coef]
    split
    · exact fillRange_writesWithin _ _ _ _
    · exact .refl
  outWrites _ := by
    rw [spoil_outMem]
    split
    · exact fillRange_writesWithin _ _ _ _
    · exact .refl

/-- Acceptance and completion touch STATUS only. -/
theorem Frame.complete_accept {op : BitVec 8} (h : Frame t (accept op s) b) (e : ErrCode) :
    Frame t s (complete e b) :=
  ⟨h.rd, h.out, h.coef, h.ricek, h.coefWrites, h.outWrites⟩

/-- Run on a state that passes the check, the pseudocode has such an effect or raises a late error. -/
def Runs (t : Touches) (res : Bool) (check : State → Option ErrCode) (body : State → Except ErrCode State) : Prop :=
  ∀ s : State, check s = none → Yields (Effect t res s) (body s)

variable {check : State → Option ErrCode}

theorem readBytes_runs (n : Nat) : Runs { reader := true } true check (readBytes n) := fun s _ =>
  Yields.bind (readBytesFrom_reads n 0) fun _ hr => ((Effect.refl _ _ s).setRd rfl hr).setResult rfl _

theorem readBits_runs (n : Nat) : Runs { reader := true } true check (readBits n) := fun s _ =>
  Yields.bind (getBits_reads n) fun _ hr => ((Effect.refl _ _ s).setRd rfl hr).setResult rfl _

theorem writeBytes_runs (n : Nat) : Runs { writer := true } false check (writeBytes n) := fun s _ =>
  Yields.bind (emitBytes_writes s.arg n) fun _ hk => (Effect.refl _ _ s).setSink rfl hk

theorem writeBits_runs (n : Nat) : Runs { writer := true } false check (writeBits n) := fun s _ =>
  Yields.bind (putBits_writes s.arg n) fun _ hk => (Effect.refl _ _ s).setSink rfl hk

/-- A grid that passes the check is not empty (R74). -/
theorem gridCells_pos (h : gridCheck s = none) : 0 < gridRows s * gridCols s := by
  obtain ⟨hR, hC, -⟩ := gridCheck_none.1 h
  exact Nat.mul_pos (Nat.pos_of_ne_zero hR) (Nat.pos_of_ne_zero hC)

theorem onGrid_runs {f : State → Memory 32 → Except ErrCode (Memory 32)}
    (hf : ∀ s, 0 < gridRows s * gridCols s → WritesCoef (gridRows s * gridCols s) s.coef (f s s.coef)) :
    Runs { grid := true } false gridCheck (onGrid f) := fun s hgrid =>
  Yields.bind (hf s (gridCells_pos hgrid)) fun _ hc => (Effect.refl _ _ s).setCoef rfl hc

theorem onStreamGrid_runs {f : State → BitReader × Memory 32 → Except ErrCode (BitReader × Memory 32)}
    (hf : ∀ s, ReadsIntoCoef (source s) (gridRows s * gridCols s) (s.rd, s.coef) (f s (s.rd, s.coef))) :
    Runs { reader := true, grid := true } false check (onStreamGrid f) := fun s _ =>
  Yields.bind (hf s) fun _ ⟨hr, hc⟩ => ((Effect.refl _ _ s).setRd rfl hr).setCoef rfl hc

/-! ## How a command ends -/

/-- The ways a command ends: ignored, refused by a check, completed, ended by an error of its pseudocode, or as SRST. -/
inductive Ending : Instr → State → State → Prop
  | ignored {i : Instr} {s : State} (hi : i ≠ .srst) (hs : s.err ≠ .none) : Ending i s s
  | refused {i : Instr} {s : State} (hs : s.err = .none) (e : ErrCode) :
    Ending i s (complete e (accept i.opcode s))
  | completed {i : Instr} {s b : State} (hs : s.err = .none)
    (hb : Effect (mayWrite i) (writesResult i) (accept i.opcode s) b) : Ending i s (complete .none b)
  | raised {i : Instr} {s : State} {e : ErrCode} (hs : s.err = .none) (he : e.Late) :
    Ending i s (complete e (spoil (mayWrite i) (accept i.opcode s)))
  | softReset {s : State} : Ending .srst s (complete .none (softReset (accept 0x01 s)))

theorem submit_ending {i : Instr} {body : State → Except ErrCode State} (hi : i ≠ .srst)
    (h : submit i.opcode (mayWrite i) check body s = .next s')
    (hbody : Runs (mayWrite i) (writesResult i) check body) : Ending i s s' := by
  rcases submit_cases h with ⟨hs, rfl⟩ | ⟨hs, e, -, rfl⟩ | ⟨hs, hc, b, hb, rfl⟩ | ⟨hs, hc, e, he, rfl⟩
  · exact .ignored hi hs
  · exact .refused hs e
  · exact .completed hs ((yields_iff.1 (hbody (accept i.opcode s) hc)).1 b hb)
  · exact .raised hs ((yields_iff.1 (hbody (accept i.opcode s) hc)).2 e he)

theorem exec_ending :
    ∀ {i : Instr} {s s' : State}, exec i s = .next s' → Ending i s s'
  | .nop, _, _, h => submit_ending nofun h fun s _ => Effect.refl _ _ s
  | .srst, _, _, h => by
    cases h
    exact .softReset
  | .clr, _, _, h => submit_ending nofun h <|
    onGrid_runs fun _ _ => writesCoef_loopUp fun _ _ ha => store_writesCoef ha 0
  | .rdu8, _, _, h => submit_ending nofun h (readBytes_runs 1)
  | .rdu16, _, _, h => submit_ending nofun h (readBytes_runs 2)
  | .rdu32, _, _, h => submit_ending nofun h (readBytes_runs 4)
  | .wru8, _, _, h => submit_ending nofun h (writeBytes_runs 1)
  | .wru16, _, _, h => submit_ending nofun h (writeBytes_runs 2)
  | .wru32, _, _, h => submit_ending nofun h (writeBytes_runs 4)
  | .getbit, _, _, h => submit_ending nofun h (readBits_runs 1)
  | .getbits n, _, _, h => submit_ending nofun h (readBits_runs n.toNat)
  | .bralign, _, _, h => submit_ending nofun h fun s _ =>
    (Effect.refl _ _ s).setRd rfl ⟨le_refl _, le_max_left _ _, fun _ => Nat.zero_le 7⟩
  | .putbit, _, _, h => submit_ending nofun h (writeBits_runs 1)
  | .putbits n, _, _, h => submit_ending nofun h (writeBits_runs n.toNat)
  | .bwflush, _, _, h => submit_ending nofun h fun s _ =>
    Yields.bind (flushWriter_writes) fun _ hk => (Effect.refl _ _ s).setSink rfl hk
  | .htrans, _, _, h => submit_ending nofun h <|
    onGrid_runs fun _ _ => forwardTransform_writesCoef _ _
  | .hinv, _, _, h => submit_ending nofun h <|
    onGrid_runs fun _ hpos => inverseTransform_writesCoef hpos
  | .digitize, _, _, h => submit_ending nofun h <|
    onGrid_runs fun _ _ => digitizeGrid_writesCoef _ _
  | .undigitize, _, _, h => submit_ending nofun h <|
    onGrid_runs fun _ _ => undigitizeGrid_writesCoef _ _
  | .huffsym, _, _, h => submit_ending nofun h fun s _ =>
    Yields.bind (huffDecode_reads _) fun _ hr => ((Effect.refl _ _ s).setRd rfl hr).setResult rfl _
  | .qtdec q, _, _, h => submit_ending nofun h <|
    onStreamGrid_runs fun _ => qtdecQuadrant_readsIntoCoef _ _ q _
  | .term, _, _, h => submit_ending nofun h fun s _ =>
    Yields.bind (getBits_reads 4) fun p hr => by
      split
      · simp [Yields, ErrCode.Late]
      · exact (Effect.refl _ _ s).setRd rfl hr
  | .signs, _, _, h => submit_ending nofun h <|
    onStreamGrid_runs fun _ => applySigns_readsIntoCoef _ _
  | .riceval k, _, _, h => submit_ending nofun h fun s _ =>
    Yields.bind (riceValue_reads k.toNat) fun _ hr => ((Effect.refl _ _ s).setRd rfl hr).setResult rfl _
  | .ricedec q, _, _, h => submit_ending nofun h fun s _ =>
    Yields.bind (getBits_reads 4) fun k hk =>
      Yields.bind (readsIntoCoef_overQuadrant q fun _ _ ha => riceCell_readsIntoCoef k.1 ha) fun _ ⟨hr, hc⟩ =>
        (((Effect.refl _ _ s).setRd rfl (hk.trans hr)).setCoef rfl hc).setRicek rfl _

end Sys2Proof.Machine

namespace Sys2Proof.Machine

variable {i : Instr} {s t : State}

/-- Every accepted command completes with DONE = 1 (R221). -/
theorem Ending.done (h : Ending i s t) (hs : s.err = .none ∨ i = .srst) : t.done = true := by
  cases h with
  | ignored hi hs' => exact (hs.elim hs' hi).elim
  | refused | completed | raised | softReset => rfl

/-- While ERR is not 0 a command other than SRST changes nothing (R220). -/
theorem Ending.eq_of_err (h : Ending i s t) (hs : s.err ≠ .none) (hi : i ≠ .srst) : t = s := by
  cases h with
  | ignored => rfl
  | refused hs' | completed hs' | raised hs' => exact absurd hs' hs
  | softReset => exact absurd rfl hi

theorem Ending.busy (h : Ending i s t) (hs : s.busy = false) : t.busy = false := by
  cases h with
  | ignored => exact hs
  | refused | completed | raised | softReset => rfl

theorem Ending.frame (h : Ending i s t) : Frame (mayWrite i) s t := by
  cases h with
  | ignored => exact .refl _ _
  | refused _ e => exact (Frame.refl _ _).complete_accept e
  | completed _ hb => exact hb.toFrame.complete_accept .none
  | raised _ _ => exact (spoil_frame _ _).complete_accept _
  | softReset => exact ⟨nofun, nofun, fun _ => rfl, nofun, .refl, fun _ => .refl⟩

/-- A command that does not write RESULT keeps it unless it ends with a late error (R31). -/
theorem Ending.result (h : Ending i s t) (hi : writesResult i = false)
    (ht : t.err = s.err ∨ t.err = .size ∨ t.err = .seq ∨ t.err = .illegal) : t.result = s.result := by
  cases h with
  | ignored | refused => rfl
  | completed _ hb => exact hb.result hi
  | @raised _ _ e hs he =>
    obtain ⟨hnone, hsize, hseq, hillegal⟩ := he.ne_early
    simp [hnone, hs, hsize, hseq, hillegal] at ht
  | softReset => cases hi

/-- A command other than SRST that ends with no error has advanced both streams, if only by nothing. -/
theorem Ending.advances (h : Ending i s t) (hi : i ≠ .srst) (ht : t.err = .none) :
    s.rd.Advances (source s) t.rd ∧
      (s.params.outBytes < 2 ^ 32 → (sink s).Advances s.params.outBytes (sink t)) := by
  cases h with
  | ignored | refused => exact ⟨.refl _ _, fun _ => .refl _ _⟩
  | completed _ hb => exact ⟨hb.rdAdvances, hb.outAdvances⟩
  | raised _ he =>
    have hnone := he.ne_early.1
    simp [hnone] at ht
  | softReset => exact absurd rfl hi

/-! ## The frame, the positions and the interrupt -/

theorem outBytes_lt_of_legal {p : Params} (h : paramsLegal p = true) : p.outBytes < 2 ^ 32 := by
  simp only [paramsLegal, Bool.and_eq_true, decide_eq_true_eq] at h
  exact h.1.2

/-- Settles O13: the inputs every command keeps, and the frame of the way it ended. -/
theorem commandFrame : Obligations.CommandFrame := by
  intro i s t hlegal h
  have hroom := outBytes_lt_of_legal hlegal
  have hend := exec_ending h
  have hframe := hend.frame
  refine ⟨?inputs, hend.result, hframe.rd, ?out, hframe.coef, hframe.ricek,
    fun a ha => hframe.coefWrites.read_other (.inr ha), fun p hp => (hframe.outWrites hroom).read_other (.inl hp)⟩
  case inputs => simpa [State.commandInputs] using exec_commandInputs h
  case out => simpa [sink] using hframe.out

/-- Settles O14: a command that ends with no error has advanced the reader and the writer. -/
theorem streamPositionsOnlyGrow : Obligations.StreamPositionsOnlyGrow := by
  intro i s t hlegal hi _ h ht
  obtain ⟨hrd, hout⟩ := (exec_ending h).advances hi ht
  exact ⟨hrd.pos_le, (hout (outBytes_lt_of_legal hlegal)).pos_le⟩

@[simp] theorem commandInputs_ie (s : State) : s.commandInputs.ie = s.ie := rfl

@[simp] theorem commandInputs_inLen (s : State) : s.commandInputs.inLen = s.inLen := rfl

@[simp] theorem commandInputs_inMem (s : State) : s.commandInputs.inMem = s.inMem := rfl

/-- Settles O15: a completion sets DONE and every command keeps IE, an ignored command keeps both, a write of 1 clears
DONE, and the rest is the definition of `irq`. -/
theorem interruptFollowsDoneAndEnable : Obligations.InterruptFollowsDoneAndEnable := by
  refine fun s => ⟨fun i t hs h => ?accepted, fun i t hs hi h => ?ignored, fun v => ?cleared, fun hie => ?masked⟩
  case accepted =>
    have hie : t.ie = s.ie := by simpa using congrArg State.ie (exec_commandInputs h)
    simp [irq, (exec_ending h).done hs, hie]
  case ignored => rw [(exec_ending h).eq_of_err hs hi]
  case cleared =>
    rw [irq, irq, writeStatus_done, writeStatus_ie]
    cases v.getLsbD 1 <;> simp
  case masked => simp [irq, hie]

/-! ## Soundness -/

/-- The part of `State.Sound` that is claimed only while ERR = 0: the bounds of both streams' registers. -/
structure State.StreamsSound (s : State) : Prop where
  brCnt : s.rd.cnt.toNat ≤ 7
  bwCnt : s.wr.cnt.toNat ≤ 7
  inPos : s.rd.pos.toNat ≤ s.params.inBytes
  outPos : s.wr.pos.toNat ≤ s.params.outBytes
  bwBuf : s.wr.buf.toNat < 2 ^ s.wr.cnt.toNat

theorem State.Sound.streams (h : s.Sound) (hs : s.err = .none) : s.StreamsSound :=
  ⟨h.brCnt hs, h.bwCnt hs, h.inPos hs, h.outPos hs, h.bwBuf hs⟩

/-- A state is sound when its other clauses hold and, while ERR = 0, its streams are sound. -/
theorem sound_of_streams (hlegal : paramsLegal s.params = true) (hbusy : s.busy = false) (hcoef : s.coef.wf = true)
    (hin : s.inMem.wf = true) (hout : s.outMem.wf = true) (hlen : s.inLen.toNat ≤ s.params.inBytes)
    (h : s.err = .none → s.StreamsSound) : s.Sound :=
  ⟨hlegal, hbusy, hcoef, hin, hout, hlen, fun hs => (h hs).brCnt, fun hs => (h hs).bwCnt, fun hs => (h hs).inPos,
    fun hs => (h hs).outPos, fun hs => (h hs).bwBuf⟩

/-- Advancing from sound streams, with an input that ends inside IN, leaves them sound. -/
theorem State.StreamsSound.advance (h : s.StreamsSound) (hlen : s.inLen.toNat ≤ s.params.inBytes)
    (hparams : t.params = s.params) (hrd : s.rd.Advances (source s) t.rd)
    (hout : (sink s).Advances s.params.outBytes (sink t)) : t.StreamsSound where
  brCnt := hrd.cnt h.brCnt
  bwCnt := (hout.buffer ⟨h.bwCnt, h.bwBuf⟩).1
  inPos := by
    rw [hparams]
    exact hrd.pos_bound.trans (max_le h.inPos hlen)
  outPos := by
    rw [hparams]
    exact hout.pos_bound.trans (max_le h.outPos (le_refl _))
  bwBuf := (hout.buffer ⟨h.bwCnt, h.bwBuf⟩).2

theorem streamsSound_of_cleared (hrd : s.rd = ⟨0, 0, 0⟩) (hwr : s.wr = ⟨0, 0, 0⟩) : s.StreamsSound := by
  constructor <;> simp [hrd, hwr]

theorem exec_params (h : exec i s = .next t) : t.params = s.params := by
  simpa using congrArg State.params (exec_commandInputs h)

theorem exec_streamsSound (h : exec i s = .next t) (hs : s.Sound) (ht : t.err = .none) : t.StreamsSound := by
  by_cases hi : i = .srst
  · subst hi
    cases h
    exact streamsSound_of_cleared rfl rfl
  · have hend := exec_ending h
    obtain ⟨hrd, hout⟩ := hend.advances hi ht
    have hserr : s.err = .none := by
      cases hend with
      | ignored => exact ht
      | refused hserr | completed hserr | raised hserr => exact hserr
      | softReset => exact absurd rfl hi
    exact (hs.streams hserr).advance hs.inLen (exec_params h) hrd
      (hout (outBytes_lt_of_legal hs.legal))

theorem exec_keepsSound (h : exec i s = .next t) (hs : s.Sound) : t.Sound := by
  have hparams := exec_params h
  have hinMem : t.inMem = s.inMem := by simpa using congrArg State.inMem (exec_commandInputs h)
  have hinLen : t.inLen = s.inLen := by simpa using congrArg State.inLen (exec_commandInputs h)
  have hend := exec_ending h
  have hcoef := hend.frame.coefWrites.wf hs.coefWf
  have hout := (hend.frame.outWrites (outBytes_lt_of_legal hs.legal)).wf hs.outWf
  exact sound_of_streams (hparams ▸ hs.legal) (hend.busy hs.idle) hcoef (hinMem ▸ hs.inWf) hout
    (by simpa [hparams, hinLen] using hs.inLen) (exec_streamsSound h hs)

theorem onCmdWrite_keepsSound {w : Word} (h : onCmdWrite w s = .next t) (hs : s.Sound) : t.Sound := by
  unfold onCmdWrite at h
  split at h
  · cases h
    exact hs
  · split at h
    · exact exec_keepsSound h hs
    · cases h
      exact { hs with idle := rfl, brCnt := nofun, bwCnt := nofun, inPos := nofun, outPos := nofun, bwBuf := nofun }

/-- IN_LEN never exceeds IN_BYTES, however large the word written (R29). -/
theorem inLenOf_le (v : Word) (p : Params) : (inLenOf v p).toNat ≤ p.inBytes := by
  unfold inLenOf
  rw [BitVec.toNat_ofNat]
  exact (Nat.mod_le _ _).trans (Nat.min_le_right _ _)

theorem regWriteData_keepsSound (off : Nat) (v : Word) (hs : s.Sound) : (regWriteData off v s).Sound := by
  by_cases hoff : off = 0x20
  · subst hoff
    exact { hs with inLen := inLenOf_le v s.params }
  · unfold regWriteData
    split_ifs <;> exact { hs with }

/-- A reset clears both streams' registers and IN_LEN, and leaves or refills the memories (R250, R251, U11). -/
theorem sound_of_reset (hs : s.Sound) (hparams : t.params = s.params) (hbusy : t.busy = false) (hlen : t.inLen = 0)
    (hrd : t.rd = ⟨0, 0, 0⟩) (hwr : t.wr = ⟨0, 0, 0⟩) (hcoef : t.coef.wf = true) (hin : t.inMem = s.inMem)
    (hout : t.outMem.wf = true) : t.Sound :=
  sound_of_streams (hparams ▸ hs.legal) hbusy hcoef (hin ▸ hs.inWf) hout (by simp [hlen])
    fun _ => streamsSound_of_cleared hrd hwr

theorem hostEffect_keepsSound {m : HostMove} (h : hostEffect m s = .next t) (hs : s.Sound) : t.Sound := by
  cases m with
  | regWrite off size v =>
    simp only [hostEffect] at h
    split at h
    · exact onCmdWrite_keepsSound h hs
    · cases h
      exact regWriteData_keepsSound off v hs
  | coefWrite i size v =>
    cases h
    exact { hs with coefWf := Memory.write_wf i v hs.coefWf }
  | inWrite i b =>
    cases h
    exact { hs with inWf := Memory.write_wf i b hs.inWf }
  | outWrite i b => cases h
  | reset =>
    cases h
    exact sound_of_reset hs rfl rfl rfl rfl rfl hs.coefWf rfl hs.outWf
  | resetDuringCommand =>
    cases h
    exact sound_of_reset hs rfl rfl rfl rfl rfl (fillRange_wf _ _ _ hs.coefWf) rfl (fillRange_wf _ _ _ hs.outWf)
  | regRead off size | coefRead i size | inRead i | outRead i =>
    cases h
    exact { hs with }

/-- Settles O16: an idle step keeps the state, and every other step is the effect of a host move, which keeps it sound:
a command by the way it ends, any other move because it writes one cell or register, or resets. -/
theorem stepKeepsSound : Obligations.StepKeepsSound := by
  intro s t hs h
  rcases step_cases h with ⟨-, rfl⟩ | ⟨m, rest, -, -, heffect⟩
  · exact hs
  · exact hostEffect_keepsSound heffect { hs with }

end Sys2Proof.Machine

namespace Sys2Proof.Machine

variable {s : State} {off : Nat}

/-! ## What the host reads in the register window -/

/-- The offsets of the window that hold a register which can be read; the others are CMD and the reserved ones (R22). -/
def readableOffsets : List Nat :=
  [0x04, 0x08, 0x0C, 0x10, 0x14, 0x18, 0x1C, 0x20, 0x24, 0x28, 0x2C, 0x30, 0x34, 0x38]

theorem regValue_of_not_readable (h : off ∉ readableOffsets) (s : State) : regValue off s = 0 := by
  simp only [readableOffsets, List.mem_cons, List.not_mem_nil, or_false, not_or] at h
  simp [regValue, h]

/-- Settles O51: every readable register but ID has the reset value 0, and no other offset reads anything else. -/
theorem resetRegistersReadZero : Obligations.ResetRegistersReadZero := by
  intro off
  have hreadable : ∀ off ∈ readableOffsets,
      regValue off State.reset = if off = 0x34 then 0x48544445#32 else 0 := by decide
  by_cases hoff : off ∈ readableOffsets
  · exact hreadable off hoff
  · have hid : off ≠ 0x34 := fun h => hoff (by simp [h, readableOffsets])
    rw [regValue_of_not_readable hoff, if_neg hid]

theorem regValue_status (s : State) : regValue 0x04 s =
    0#16 ++ s.lastOp ++ s.err.code ++ 0#2 ++ BitVec.ofBool s.done ++ BitVec.ofBool s.busy := rfl

theorem regValue_cfg (s : State) : regValue 0x08 s = 0#30 ++ BitVec.ofBool s.ie ++ BitVec.ofBool s.flagW := rfl

theorem regValue_dim (s : State) : regValue 0x0C s = s.rows ++ s.cols := rfl

theorem regValue_scale (s : State) : regValue 0x10 s = 0#16 ++ s.scale := rfl

theorem regValue_nbp (s : State) : regValue 0x14 s = s.nbp3 ++ s.nbp2 ++ s.nbp1 ++ s.nbp0 := rfl

theorem regValue_brState (s : State) : regValue 0x2C s = 0#20 ++ s.rd.cnt ++ s.rd.buf := rfl

theorem regValue_bwState (s : State) : regValue 0x30 s = 0#20 ++ s.wr.cnt ++ s.wr.buf := rfl

theorem regValue_ricek (s : State) : regValue 0x38 s = 0#28 ++ s.ricek := rfl

/-- Settles O52: each register is its fields side by side, so a field read out of it is the field put in. -/
theorem statusFields : Obligations.StatusFields := by
  refine ⟨by decide, fun s => ⟨?status, ?cfg, ?dim, ?scale, ?nbp, ⟨rfl, rfl, rfl, rfl, rfl⟩, ?brState, ?bwState,
    rfl, ?ricek, rfl, ?reserved⟩⟩
  case reserved =>
    intro off hoff
    refine regValue_of_not_readable (fun h => ?_) s
    simp only [readableOffsets, List.mem_cons, List.not_mem_nil, or_false] at h
    omega
  all_goals
    simp (disch := decide) only [regValue_status, regValue_cfg, regValue_dim, regValue_scale, regValue_nbp,
      regValue_brState, regValue_bwState, regValue_ricek, BitVec.extractLsb'_append_eq_of_le,
      BitVec.extractLsb'_append_eq_of_add_le, BitVec.getLsbD_append]
    simp

/-! ## The host's accesses -/

theorem busyViolation_of_idle (hs : s.busy = false) (m : HostMove) : busyViolation m s = none := by
  simp [busyViolation, hs]

theorem regViolation_of_aligned (halign : off % 4 = 0) (hwindow : off < 0x100) : regViolation off 4 = none := by
  simp [regViolation, halign, hwindow]

theorem coefViolation_of_inside {i : Nat} {p : Params} (hi : i < p.coefWords) : coefViolation i 4 p = none := by
  simp [coefViolation, hi]

theorem byteViolation_of_inside {i n : Nat} (hi : i < n) : byteViolation i n = none := by
  simp [byteViolation, hi]

theorem hostMove_of_allowed {m : HostMove} (h : violation m s = none) : hostMove m s = hostEffect m s := by
  simp [hostMove, h]

/-- Settles O54: each of these reads is allowed, and its effect is on `hostData` alone. -/
theorem hostReadsHaveNoSideEffect : Obligations.HostReadsHaveNoSideEffect := by
  refine fun s hs => ⟨fun off halign hwindow => hostMove_of_allowed ?_, fun i hi => hostMove_of_allowed ?_,
    fun i hi => hostMove_of_allowed ?_, fun i hi => hostMove_of_allowed ?_⟩
  · simp [violation, busyViolation_of_idle hs, regViolation_of_aligned halign hwindow]
  · simp [violation, busyViolation_of_idle hs, coefViolation_of_inside hi]
  · simp [violation, busyViolation_of_idle hs, byteViolation_of_inside hi]
  · simp [violation, busyViolation_of_idle hs, byteViolation_of_inside hi]

/-- An allowed host write to a register other than CMD writes that register. -/
theorem hostMove_regWrite (hs : s.busy = false) (halign : off % 4 = 0) (hwindow : off < 0x100) (hcmd : off ≠ 0)
    (v : Word) : hostMove (.regWrite off 4 v) s = .next (regWriteData off v s) := by
  have hallowed : violation (.regWrite off 4 v) s = none := by
    simp [violation, busyViolation_of_idle hs, regViolation_of_aligned halign hwindow]
  rw [hostMove_of_allowed hallowed, hostEffect, if_neg hcmd]

/-- The offsets of the registers that keep what the host writes (R25 to R30). -/
abbrev writableOffsets : List Nat := [0x08, 0x0C, 0x10, 0x14, 0x18, 0x20]

@[simp] theorem regWriteData_coef (off : Nat) (v : Word) (s : State) : (regWriteData off v s).coef = s.coef := by
  simp only [regWriteData, apply_ite State.coef, writeStatus_coef, ite_self]

@[simp] theorem regWriteData_inMem (off : Nat) (v : Word) (s : State) : (regWriteData off v s).inMem = s.inMem := by
  simp only [regWriteData, apply_ite State.inMem, writeStatus_inMem, ite_self]

@[simp] theorem regWriteData_outMem (off : Nat) (v : Word) (s : State) :
    (regWriteData off v s).outMem = s.outMem := by
  simp only [regWriteData, apply_ite State.outMem, writeStatus_outMem, ite_self]

/-- The low half of a word above zeros is the word with its high half masked out. -/
theorem zero_append_lowHalf (v : Word) : 0#16 ++ v.extractLsb' 0 16 = v &&& 0xFFFF#32 := by
  apply BitVec.eq_of_toNat_eq
  rw [BitVec.toNat_append, BitVec.toNat_and]
  simpa using (Nat.and_two_pow_sub_one_eq_mod v.toNat 16).symm

/-- CFG keeps the two lowest bits of a word: the word with the others masked out. -/
theorem zero_append_lowBits (v : Word) :
    0#30 ++ BitVec.ofBool (v.getLsbD 1) ++ BitVec.ofBool (v.getLsbD 0) = v &&& 3#32 := by
  apply BitVec.eq_of_getLsbD_eq
  intro i hi
  rw [BitVec.getLsbD_append, BitVec.getLsbD_append]
  match i with
  | 0 => simp
  | 1 => simp
  | i + 2 => simp [BitVec.getLsbD_ofNat, Nat.testBit_succ]

/-- The four bytes of a word side by side are the word. -/
theorem bytes_append (v : Word) :
    v.extractLsb' 24 8 ++ v.extractLsb' 16 8 ++ v.extractLsb' 8 8 ++ v.extractLsb' 0 8 = v := by
  have h32 : v.extractLsb' 24 8 ++ v.extractLsb' 16 8 = v.extractLsb' 16 16 :=
    BitVec.extractLsb'_append_extractLsb'_eq_extractLsb' rfl
  have h321 : v.extractLsb' 16 16 ++ v.extractLsb' 8 8 = v.extractLsb' 8 24 :=
    BitVec.extractLsb'_append_extractLsb'_eq_extractLsb' rfl
  rw [h32, h321]
  exact BitVec.extractLsb'_append_extractLsb'

/-- The fields of a written register, side by side again: the word, without the bits the register lacks. -/
theorem regValue_regWriteData_same (hoff : off ∈ writableOffsets) (v : Word) (s : State) :
    regValue off (regWriteData off v s) =
      if off = 0x08 then v &&& 3#32 else if off = 0x10 then v &&& 0xFFFF#32
        else if off = 0x20 then BitVec.ofNat 32 (min v.toNat s.params.inBytes) else v := by
  fin_cases hoff
  · exact zero_append_lowBits v
  · exact BitVec.extractLsb'_append_extractLsb'
  · exact zero_append_lowHalf v
  · exact bytes_append v
  · rfl
  · rfl

/-- A written field is read at its own register's offset only. -/
theorem regValue_regWriteData_other {off' : Nat} (hoff : off ∈ writableOffsets) (hne : off' ≠ off) (v : Word)
    (s : State) : regValue off' (regWriteData off v s) = regValue off' s := by
  fin_cases hoff <;> simp [regValue, regWriteData, statusWord, hne]

theorem regWriteData_readOnly (hoff : off ∉ 0x04 :: writableOffsets) (v : Word) (s : State) :
    regWriteData off v s = s := by
  simp only [List.mem_cons, List.not_mem_nil, or_false, not_or] at hoff
  simp [regWriteData, hoff]

/-- Settles O53: each of these writes is allowed and is `regWriteData` of its offset, which the register read back at
that offset shows and no other register does. -/
theorem registerWritesReadBack : Obligations.RegisterWritesReadBack := by
  intro s v hs
  refine ⟨⟨?_, ?_, ?_, ?_, ?_, ?_⟩, fun off hoff => ?readBack, fun off halign hwindow hoff => ?readOnly, ?_⟩
  case readBack =>
    obtain ⟨halign, hwindow, hcmd⟩ : off % 4 = 0 ∧ off < 0x100 ∧ off ≠ 0 := by
      revert off
      decide
    exact ⟨regWriteData off v s, hostMove_regWrite hs halign hwindow hcmd v, regValue_regWriteData_same hoff v s,
      fun _ hne => regValue_regWriteData_other hoff hne v s, by simp⟩
  case readOnly =>
    have hcmd := List.ne_of_not_mem_cons hoff
    rw [hostMove_regWrite hs halign hwindow hcmd, regWriteData_readOnly (List.not_mem_of_not_mem_cons hoff)]
  all_goals exact hostMove_regWrite hs (by decide) (by decide) (by decide) v

end Sys2Proof.Machine
end

section
/-! Proofs of the family `20_memory.md`. Every command and every host move writes inside the memories (R50, R59); the
byte-level commands wait for empty buffers, which BRALIGN and BWFLUSH give (R55); a host write to a memory changes one
cell (R50, R256). -/

namespace Sys2Proof.Machine

variable {i : Instr} {s t : State}

/-! ## Commands turned away by their check -/

/-- A command turned away by its check changes STATUS only (R223, R224). -/
theorem complete_accept_eq_failed {e : ErrCode} (he : e ≠ .none) (op : BitVec 8) (s : State) :
    complete e (accept op s) = failed op e s := by
  simp [complete, accept, failed, he]

/-- A command whose check answers an error ends as `failed`. -/
theorem submit_failed {op : BitVec 8} {touches : Touches} {check : State → Option ErrCode}
    {body : State → Except ErrCode State} {e : ErrCode} (hs : s.err = .none) (he : e ≠ .none)
    (hcheck : check (accept op s) = some e) : submit op touches check body s = .next (failed op e s) := by
  rw [submit_checked hs hcheck, complete_accept_eq_failed he]

/-! ## Writes inside the memories -/

/-- Writes to indices a memory of `n` cells has keep every listed index inside it. -/
theorem Memory.WritesWithin.staysBelow {w lo hi n : Nat} {m m' : Memory w} (h : m.WritesWithin lo hi m')
    (hhi : hi ≤ n) (hm : m.below n = true) : m'.below n = true := by
  induction h with
  | refl => exact hm
  | write _ _ ha v ih => exact Memory.write_below (by omega) v ih

theorem mayWrite_grid (i : Instr) : (mayWrite i).grid = isGridCommand i := by
  cases i <;> rfl

/-- QTDEC checks its plane count after the grid (R225). -/
theorem planeCheck_of_gridCheck_some (hgrid : gridCheck s = some .size) (q : BitVec 2) :
    planeCheck q s = some .size := by
  simp [planeCheck, hgrid]

/-- A grid command on a grid that fails the check raises SIZE and has no other effect (R74). -/
theorem exec_of_gridCheck_some (hi : isGridCommand i = true) (hs : s.err = .none)
    (hgrid : gridCheck s = some .size) : exec i s = .next (failed i.opcode .size s) := by
  cases i with
  | clr | htrans | hinv | digitize | undigitize | signs | ricedec q => exact submit_failed hs nofun hgrid
  | qtdec q => exact submit_failed hs nofun (planeCheck_of_gridCheck_some (s := accept 0x41 s) hgrid q)
  | nop | srst | rdu8 | rdu16 | rdu32 | wru8 | wru16 | wru32 | getbit | getbits n | bralign | putbit | putbits n
  | bwflush | huffsym | term | riceval k => cases hi

/-- On a grid that fails the check no command writes COEF (R74). -/
theorem exec_coef_of_gridCheck_some (hgrid : gridCheck s = some .size) (h : exec i s = .next t) :
    t.coef = s.coef := by
  by_cases hi : isGridCommand i = true
  · by_cases hs : s.err = .none
    · rw [exec_of_gridCheck_some hi hs hgrid] at h
      cases h
      rfl
    · rw [(exec_ending h).eq_of_err hs (by rintro rfl; cases hi)]
  · exact (exec_ending h).frame.coef (by simpa [mayWrite_grid] using hi)

/-- A command stores nothing outside COEF: it writes the grid only, which fits when the check passes. -/
theorem exec_coef_below (hcoef : s.coef.below s.params.coefWords = true) (h : exec i s = .next t) :
    t.coef.below s.params.coefWords = true := by
  cases hgrid : gridCheck s with
  | none => exact (exec_ending h).frame.coefWrites.staysBelow (gridCheck_none.1 hgrid).2.2 hcoef
  | some e =>
    obtain ⟨rfl, -⟩ := gridCheck_some.1 hgrid
    rwa [exec_coef_of_gridCheck_some hgrid h]

theorem inside_of_memories (hparams : t.params = s.params) (hcoef : t.coef.below s.params.coefWords = true)
    (hin : t.inMem.below s.params.inBytes = true) (hout : t.outMem.below s.params.outBytes = true) : t.Inside :=
  ⟨hparams ▸ hcoef, hparams ▸ hin, hparams ▸ hout⟩

theorem exec_staysInside (h : exec i s = .next t) (hlegal : paramsLegal s.params = true) (hs : s.Inside) :
    t.Inside := by
  have hinMem : t.inMem = s.inMem := by simpa using congrArg State.inMem (exec_commandInputs h)
  have hout := (exec_ending h).frame.outWrites (outBytes_lt_of_legal hlegal)
  exact inside_of_memories (exec_params h) (exec_coef_below hs.coef h) (hinMem ▸ hs.input)
    (hout.staysBelow (le_refl _) hs.output)

theorem onCmdWrite_staysInside {w : Word} (h : onCmdWrite w s = .next t) (hlegal : paramsLegal s.params = true)
    (hs : s.Inside) : t.Inside := by
  unfold onCmdWrite at h
  split at h
  · cases h
    exact hs
  · split at h
    · exact exec_staysInside h hlegal hs
    · cases h
      exact { hs with }

theorem regWriteData_staysInside (off : Nat) (v : Word) (hs : s.Inside) : (regWriteData off v s).Inside :=
  inside_of_memories (regWriteData_params off v s) (by simpa using hs.coef) (by simpa using hs.input)
    (by simpa using hs.output)

theorem coefWrite_index_lt {a size : Nat} {v : Word} (h : violation (.coefWrite a size v) s = none) :
    a < s.params.coefWords := by
  unfold violation coefViolation at h
  split at h
  · cases h
  · dsimp only at h
    split_ifs at h
    omega

theorem inWrite_index_lt {a : Nat} {b : Byte} (h : violation (.inWrite a b) s = none) : a < s.params.inBytes := by
  unfold violation byteViolation at h
  split at h
  · cases h
  · dsimp only at h
    split_ifs at h
    omega

/-- Every allowed move of the host stays inside the memories: a write to a memory because its index was checked, a
reset during a command because it refills no more than the memory. -/
theorem hostEffect_staysInside {m : HostMove} (hallowed : violation m s = none) (h : hostEffect m s = .next t)
    (hlegal : paramsLegal s.params = true) (hs : s.Inside) : t.Inside := by
  cases m with
  | regWrite off size v =>
    simp only [hostEffect] at h
    split at h
    · exact onCmdWrite_staysInside h hlegal hs
    · cases h
      exact regWriteData_staysInside off v hs
  | coefWrite a size v =>
    cases h
    exact { hs with coef := Memory.write_below (coefWrite_index_lt hallowed) v hs.coef }
  | inWrite a b =>
    cases h
    exact { hs with input := Memory.write_below (inWrite_index_lt hallowed) b hs.input }
  | outWrite a b => cases h
  | resetDuringCommand =>
    cases h
    exact inside_of_memories rfl (fillRange_below _ _ (le_refl _) _ hs.coef) hs.input
      (fillRange_below _ _ (le_refl _) _ hs.output)
  | reset | regRead off size | coefRead a size | inRead a | outRead a =>
    cases h
    exact { hs with }

/-- Settles O17: an idle step keeps the state, and every other step is the effect of an allowed host move, which stays
inside: a command because it writes OUT below OUT_BYTES and COEF only on a grid that fits, any other move because its
index was checked or it refills only the memory's own cells. -/
theorem stepStaysInside : Obligations.StepStaysInside := by
  intro s t hsound hs h
  rcases step_cases h with ⟨-, rfl⟩ | ⟨m, rest, -, hallowed, heffect⟩
  · exact hs
  · exact hostEffect_staysInside hallowed heffect hsound.legal { hs with }

/-! ## Buffered bits and byte access -/

theorem byteReadCheck_of_buffered (h : s.rd.cnt ≠ 0) : byteReadCheck s = some .seq := if_neg h

theorem byteWriteCheck_of_buffered (h : s.wr.cnt ≠ 0) : byteWriteCheck s = some .seq := if_neg h

/-- One more bit: the count goes up by one, from 7 to 0 (R114). -/
theorem putBit_cnt {room : Nat} {b : Bool} {k k' : Sink} (h : putBit room b k = .ok k') (hcnt : k.wr.cnt.toNat ≤ 7) :
    k'.wr.cnt.toNat = (k.wr.cnt.toNat + 1) % 8 := by
  rcases putBit_ok h with ⟨h8, rfl⟩ | ⟨h8, -, rfl⟩
  · dsimp only
    bv_omega
  · have h7 : k.wr.cnt.toNat = 7 := by bv_omega
    simp [h7]

/-- After n more bits the count is what is left over of them, 8 at a time (R114, R115). -/
theorem putBits_cnt {room n : Nat} {v : Word} {k k' : Sink} (h : putBits room v n k = .ok k')
    (hcnt : k.wr.cnt.toNat ≤ 7) : k'.wr.cnt.toNat = (k.wr.cnt.toNat + n) % 8 := by
  induction n generalizing k with
  | zero =>
    cases h
    omega
  | succ n ih =>
    obtain ⟨k₁, hbit, hrest⟩ := bind_ok.1 h
    have hcnt₁ := putBit_cnt hbit hcnt
    have := ih hrest (by omega)
    omega

/-- `finish()` fills the byte, so it leaves no bit buffered (R127). -/
theorem flushWriter_cnt {room : Nat} {k k' : Sink} (h : flushWriter room k = .ok k') (hcnt : k.wr.cnt.toNat ≤ 7) :
    k'.wr.cnt = 0 := by
  unfold flushWriter at h
  split at h
  · cases h
    assumption
  · have := putBits_cnt h hcnt
    apply BitVec.eq_of_toNat_eq
    rw [this, show k.wr.cnt.toNat + (8 - k.wr.cnt.toNat) = 8 by omega]
    rfl

/-- BWFLUSH that ends with no error has run `finish()` on the output stream (R127). -/
theorem exec_bwflush_ok (hs : s.err = .none) (h : exec .bwflush s = .next t) (ht : t.err = .none) :
    flushWriter s.params.outBytes (sink s) = .ok (sink t) := by
  rcases submit_cases h with ⟨hs', -⟩ | ⟨-, e, hcheck, -⟩ | ⟨-, -, b, hb, rfl⟩ | ⟨-, -, e, he, rfl⟩
  · exact absurd hs hs'
  · cases hcheck
  · obtain ⟨k, hk, hb⟩ := bind_ok.1 hb
    cases hb
    exact hk
  · rcases bind_error.1 he with he | ⟨k, -, hk⟩
    · have hlate := (yields_iff.1 flushWriter_writes).2 e he
      simp [hlate.ne_early.1] at ht
    · cases hk

/-- Settles O10: the buffer checks turn the byte-level commands away, BRALIGN clears the reader's count, and the zero
bits of BWFLUSH bring the writer's count to 8, that is, to 0. -/
theorem byteAccessNeedsEmptyBuffer : Obligations.ByteAccessNeedsEmptyBuffer := by
  refine fun s hs => ⟨fun i hi hcnt => ?reads, fun i hi hcnt => ?writes, ⟨_, submit_completes hs rfl rfl, rfl⟩,
    fun hcnt t h ht => flushWriter_cnt (exec_bwflush_ok hs h ht) hcnt⟩
  case reads =>
    have hcheck : ∀ op, byteReadCheck (accept op s) = some .seq := fun _ => byteReadCheck_of_buffered hcnt
    fin_cases hi <;> exact submit_failed hs (by decide) (hcheck _)
  case writes =>
    have hcheck : ∀ op, byteWriteCheck (accept op s) = some .seq := fun _ => byteWriteCheck_of_buffered hcnt
    fin_cases hi <;> exact submit_failed hs (by decide) (hcheck _)

/-! ## Host writes to a memory -/

/-- Settles O55: each of these writes is allowed, and it is a write of one cell of a memory in canonical form. -/
theorem hostMemoryWritesOneCell : Obligations.HostMemoryWritesOneCell := by
  refine fun s hs hcoef hin => ⟨fun i v hi => ⟨s.coef.write i v, hostMove_of_allowed ?_, fun a => ?_⟩,
    fun i b hi => ⟨s.inMem.write i b, hostMove_of_allowed ?_, fun a => ?_⟩⟩
  · simp [violation, busyViolation_of_idle hs, coefViolation_of_inside hi]
  · exact Memory.read_write hcoef i a v
  · simp [violation, busyViolation_of_idle hs, byteViolation_of_inside hi]
  · exact Memory.read_write hin i a b

end Sys2Proof.Machine
end

section
/-! Proofs of the family `30_encoding.md`. The decoder accepts exactly the fields of a well-formed command (R72), so it
and the encoder are inverse (R70); the words it refuses are those that break R73, and they change STATUS only (R224);
the grid check comes before any effect (R74). -/

namespace Sys2Proof.Machine

variable {i j : Instr} {s : State} {op : BitVec 8} {n : BitVec 5} {q : BitVec 2} {w : Word}

/-! ## What each row of the opcode map accepts and refuses (R72, R73) -/

theorem decodePlain_ok : decodePlain i n q = .ok j ↔ n = 0 ∧ q = 0 ∧ i = j := by
  unfold decodePlain
  split_ifs <;> simp_all

theorem decodeCounted_ok {limit : Nat} {mk : BitVec 5 → Instr} :
    decodeCounted limit mk n q = .ok i ↔ q = 0 ∧ n.toNat ≤ limit ∧ mk n = i := by
  unfold decodeCounted
  split_ifs <;> simp_all

theorem decodeQuadrant_ok {mk : BitVec 2 → Instr} : decodeQuadrant mk n q = .ok i ↔ n = 0 ∧ mk q = i := by
  unfold decodeQuadrant
  split_ifs <;> simp_all

theorem decodePlain_error : (∃ e, decodePlain i n q = .error e) ↔ n ≠ 0 ∨ q ≠ 0 := by
  unfold decodePlain
  split_ifs <;> simp_all

theorem decodeCounted_error {limit : Nat} {mk : BitVec 5 → Instr} :
    (∃ e, decodeCounted limit mk n q = .error e) ↔ limit < n.toNat ∨ q ≠ 0 := by
  unfold decodeCounted
  split_ifs <;> simp_all

theorem decodeQuadrant_error {mk : BitVec 2 → Instr} : (∃ e, decodeQuadrant mk n q = .error e) ↔ n ≠ 0 := by
  unfold decodeQuadrant
  split_ifs <;> simp_all

/-! ## The decoder and the encoder are inverse (R70, R72) -/

/-- The opcode map answers a command exactly when that command is well-formed and these are its three fields. Of its
25 rows the 11th, 14th and 24th carry a count, the 21st and 25th a quadrant; the 26th case is an unassigned opcode. -/
theorem decodeOp_ok :
    decodeOp op n q = .ok i ↔ i.wellFormed = true ∧ i.opcode = op ∧ i.count = n ∧ i.quadrant = q := by
  constructor
  · intro h
    unfold decodeOp at h
    split at h
    case h_26 => cases h
    case h_11 | h_14 | h_24 =>
      obtain ⟨rfl, hn, rfl⟩ := decodeCounted_ok.1 h
      exact ⟨decide_eq_true hn, rfl, rfl, rfl⟩
    case h_21 | h_25 =>
      obtain ⟨rfl, rfl⟩ := decodeQuadrant_ok.1 h
      exact ⟨rfl, rfl, rfl, rfl⟩
    all_goals
      obtain ⟨rfl, rfl, rfl⟩ := decodePlain_ok.1 h
      exact ⟨rfl, rfl, rfl, rfl⟩
  · rintro ⟨hwf, rfl, rfl, rfl⟩
    cases i with
    | getbits n | putbits n | riceval n => exact decodeCounted_ok.2 ⟨rfl, of_decide_eq_true hwf, rfl⟩
    | nop | srst | clr | rdu8 | rdu16 | rdu32 | wru8 | wru16 | wru32 | getbit | bralign | putbit | bwflush | htrans
    | hinv | digitize | undigitize | huffsym | qtdec q | term | signs | ricedec q => rfl

/-- The four fields of a word, packed again, are the word (R70). -/
theorem packWord_fields (w : Word) : packWord (fieldRsv w) (fieldQ w) (fieldN w) (fieldOp w) = w := by
  apply BitVec.eq_of_getLsbD_eq
  intro k hk
  simp only [packWord, fieldRsv, fieldQ, fieldN, fieldOp, BitVec.getLsbD_append, BitVec.getLsbD_extractLsb']
  grind

/-- The command word of `i` is the word with its three fields and RSV = 0. -/
theorem encode_eq_iff :
    encode i = w ↔ fieldRsv w = 0 ∧ i.opcode = fieldOp w ∧ i.count = fieldN w ∧ i.quadrant = fieldQ w := by
  constructor
  · rintro rfl
    obtain ⟨hop, hn, hq, hrsv⟩ := Laws.Encoding.of_encode i
    exact ⟨hrsv, hop.symm, hn.symm, hq.symm⟩
  · rintro ⟨hrsv, hop, hn, hq⟩
    rw [encode, hop, hn, hq, ← hrsv, packWord_fields]

/-- RSV is checked before the opcode map is read (R73). -/
theorem decode_of_rsv_ne_zero (hrsv : fieldRsv w ≠ 0) : decode w = .error .reservedNotZero := if_pos hrsv

theorem decode_of_rsv_zero (hrsv : fieldRsv w = 0) : decode w = decodeOp (fieldOp w) (fieldN w) (fieldQ w) :=
  if_neg (not_not.2 hrsv)

/-- A word decodes to a command exactly when the command is well-formed and the word is its own. -/
theorem decode_ok : decode w = .ok i ↔ i.wellFormed = true ∧ encode i = w := by
  rw [encode_eq_iff]
  by_cases hrsv : fieldRsv w = 0
  · rw [decode_of_rsv_zero hrsv, decodeOp_ok, and_iff_right hrsv]
  · rw [decode_of_rsv_ne_zero hrsv]
    exact iff_of_false nofun fun h => hrsv h.2.1

/-- Settles O1: a well-formed command's word decodes to the command, by the decoder's equivalence with the encoder. -/
theorem decodeOfEncode : Obligations.DecodeOfEncode := fun _ hwf => decode_ok.2 ⟨hwf, rfl⟩

/-- Settles O2: the same equivalence, read from the word. -/
theorem encodeOfDecode : Obligations.EncodeOfDecode := fun _ _ h => decode_ok.1 h

/-- Settles O3: each of the spec's words is the word of a well-formed command. -/
theorem specWordsDecode : Obligations.SpecWordsDecode :=
  ⟨decode_ok.2 ⟨rfl, rfl⟩, decode_ok.2 ⟨rfl, rfl⟩, decode_ok.2 ⟨rfl, rfl⟩, decode_ok.2 ⟨rfl, rfl⟩,
    decode_ok.2 ⟨rfl, rfl⟩, decode_ok.2 ⟨rfl, rfl⟩⟩

/-! ## Illegal words (R73, R224): the fields of a word as the numbers `breaksR73` writes -/

theorem fieldOp_toNat (w : Word) : (fieldOp w).toNat = w.toNat % 256 := by
  simp [fieldOp]

theorem fieldN_toNat (w : Word) : (fieldN w).toNat = w.toNat / 2 ^ 8 % 32 := by
  simp [fieldN, Nat.shiftRight_eq_div_pow]

theorem fieldQ_toNat (w : Word) : (fieldQ w).toNat = w.toNat / 2 ^ 13 % 4 := by
  simp [fieldQ, Nat.shiftRight_eq_div_pow]

theorem fieldRsv_toNat (w : Word) : (fieldRsv w).toNat = w.toNat / 2 ^ 15 := by
  have hw : w.toNat < 2 ^ 32 := w.isLt
  simp only [fieldRsv, BitVec.extractLsb'_toNat, Nat.shiftRight_eq_div_pow]
  omega

/-- R73 on the three fields of the opcode map: `breaksR73` without its RSV clause. -/
def fieldsBreakR73 (op n q : Nat) : Prop :=
  op ∉ assignedOps ∨ (n ≠ 0 ∧ op ∉ [0x21, 0x25, 0x50]) ∨ (24 < n ∧ op ∈ [0x21, 0x25]) ∨ (15 < n ∧ op = 0x50) ∨
  (q ≠ 0 ∧ op ∉ [0x41, 0x51])

theorem breaksR73_iff : breaksR73 w.toNat ↔
    fieldRsv w ≠ 0 ∨ fieldsBreakR73 (fieldOp w).toNat (fieldN w).toNat (fieldQ w).toNat := by
  have hrsv : fieldRsv w ≠ 0 ↔ w.toNat / 2 ^ 15 ≠ 0 := by
    rw [← fieldRsv_toNat, Ne, Ne, ← BitVec.toNat_inj]
    rfl
  rw [hrsv, fieldOp_toNat, fieldN_toNat, fieldQ_toNat, fieldsBreakR73]
  exact or_left_comm

/-- The opcode map refuses exactly the fields that break R73: an opcode of none of its rows (the 26th case), or a count
or a quadrant that the opcode's row refuses. -/
theorem decodeOp_error : (∃ e, decodeOp op n q = .error e) ↔ fieldsBreakR73 op.toNat n.toNat q.toNat := by
  unfold decodeOp
  split
  case h_26 =>
    simp_all [fieldsBreakR73, assignedOps, ← BitVec.toNat_inj]
  all_goals
    simp [fieldsBreakR73, assignedOps, decodePlain_error, decodeCounted_error, decodeQuadrant_error,
      ← BitVec.toNat_inj]

theorem decode_error : (∃ e, decode w = .error e) ↔ breaksR73 w.toNat := by
  rw [breaksR73_iff, ← decodeOp_error]
  by_cases hrsv : fieldRsv w = 0
  · rw [decode_of_rsv_zero hrsv, or_iff_right (not_not.2 hrsv)]
  · rw [decode_of_rsv_ne_zero hrsv]
    exact iff_of_true ⟨_, rfl⟩ (.inl hrsv)

/-- A word that does not decode, written to CMD while ERR is 0, ends with ILLEGAL (R224). -/
theorem onCmdWrite_of_decode_error {e : Illegal} (hdecode : decode w = .error e) (hs : s.err = .none) :
    onCmdWrite w s = .next (failed (fieldOp w) .illegal s) := by
  simp [onCmdWrite, hs, hdecode, complete_accept_eq_failed]

/-- Settles O4: the decoder refuses field by field what R73 forbids, and such a word is accepted and completed with
ILLEGAL. -/
theorem illegalWordsChangeStatusOnly : Obligations.IllegalWordsChangeStatusOnly := by
  refine fun w => ⟨decode_error, fun s hs hbreaks => ?_⟩
  obtain ⟨e, hdecode⟩ := decode_error.2 hbreaks
  exact onCmdWrite_of_decode_error hdecode hs

/-! ## The grid check (R74) -/

/-- Settles O9: the grid check answers SIZE, and it comes before any effect. -/
theorem gridCheckRaisesSizeFirst : Obligations.GridCheckRaisesSizeFirst :=
  fun _ _ hi hs hgrid => exec_of_gridCheck_some hi hs (gridCheck_some.2 ⟨rfl, hgrid⟩)

end Sys2Proof.Machine
end

section
/-! Proofs of the family `40_control.md`. How a command that raises nothing ends, exactly, and a pass that stores to
each word of the grid (R220, R221, R9); with these, what NOP, SRST and CLR do (R100, R101, R102). -/

namespace Sys2Proof.Machine

variable {s t : State} {op : BitVec 8} {touches : Touches}

/-! ## Commands that raise nothing -/

/-- Acceptance and a completion without an error set BUSY, DONE and LASTOP (R220, R221). -/
theorem complete_accept_eq_finished (op : BitVec 8) (s : State) : complete .none (accept op s) = finished op s := rfl

/-- A command whose check passes and whose pseudocode takes `s` to `t` ends as `finished`. -/
theorem submit_finished {check : State → Option ErrCode} {body : State → Except ErrCode State} (hs : s.err = .none)
    (hcheck : check (accept op s) = none) (hbody : body (accept op s) = .ok (accept op t)) :
    submit op touches check body s = .next (finished op t) := by
  rw [submit_completes hs hcheck hbody, complete_accept_eq_finished]

/-! ## NOP and SRST -/

/-- Settles O20: NOP has no check, and its pseudocode answers the state it is given. -/
theorem nopOnlyCompletes : Obligations.NopOnlyCompletes := by
  refine ⟨decode_ok.2 ⟨rfl, rfl⟩, fun s => ?_⟩
  by_cases hs : s.err = .none
  · rw [if_pos hs]
    exact submit_finished hs rfl rfl
  · rw [if_neg hs]
    exact submit_ignored hs

/-- Settles O21: SRST is `softReset` between acceptance and completion, with no test of ERR. -/
theorem srstResetsStreamAndError : Obligations.SrstResetsStreamAndError :=
  ⟨decode_ok.2 ⟨rfl, rfl⟩, fun s =>
    congrArg Host.Outcome.next (complete_accept_eq_finished 0x01 (softReset s))⟩

/-! ## CLR -/

theorem gridCheck_of_not_fits (hgrid : ¬ gridFits s) : gridCheck s = some .size :=
  gridCheck_some.2 ⟨rfl, by omega⟩

/-- A command that works on COEF only, on a grid that fits, leaves the COEF it computes and completes (R74, R221). -/
theorem submit_onGrid {f : State → Memory 32 → Except ErrCode (Memory 32)} {c : Memory 32} (hs : s.err = .none)
    (hgrid : gridFits s) (hf : f (accept op s) s.coef = .ok c) :
    submit op touches gridCheck (onGrid f) s = .next (finished op { s with coef := c }) := by
  have hcheck : gridCheck (accept op s) = none := gridCheck_none.2 hgrid
  have hbody : onGrid f (accept op s) = .ok (accept op { s with coef := c }) := by
    rw [onGrid, accept_coef, hf]
    rfl
  exact submit_finished hs hcheck hbody

/-- `c'` is `c` with each of its first `n` words replaced by `f` of it, in canonical form. -/
structure MapsFirst (f : Int → Int) (n : Nat) (c c' : Memory 32) : Prop where
  wf : c'.wf = true
  read : ∀ a, c'.read a = if a < n then BitVec.ofInt 32 (f (coefInt c a)) else c.read a

/-- The next word of a pass still is what it was before the pass; writing `f` of it takes the pass one word further. -/
theorem MapsFirst.succ {f : Int → Int} {i : Nat} {c c' : Memory 32} (h : MapsFirst f i c c') :
    MapsFirst f (i + 1) c (c'.write i (BitVec.ofInt 32 (f (coefInt c i)))) where
  wf := Memory.write_wf _ _ h.wf
  read a := by
    rw [Memory.read_write h.wf, h.read]
    rcases lt_trichotomy a i with ha | rfl | ha
    · rw [if_neg ha.ne, if_pos ha, if_pos (by omega)]
    · rw [if_pos rfl, if_pos (by omega)]
    · rw [if_neg ha.ne', if_neg (by omega), if_neg (by omega)]

/-- A pass that replaces each of the first `n` words by `f` of it completes when every result fits 32 bits (R9). -/
theorem loopUp_store_completes {f : Int → Int} {n : Nat} {c : Memory 32} (hc : c.wf = true)
    (hfits : ∀ a, a < n → -2147483648 ≤ f (coefInt c a) ∧ f (coefInt c a) ≤ 2147483647) :
    ∃ c', loopUp n (fun a c => store a (f (coefInt c a)) c) c = .ok c' ∧ MapsFirst f n c c' := by
  refine loopUp_completes (P := fun i => MapsFirst f i c) ⟨hc, fun a => rfl⟩ fun i c' hi h => ?_
  have hword : coefInt c' i = coefInt c i := by simp [coefInt, h.read]
  obtain ⟨hlo, hhi⟩ := hfits i hi
  exact ⟨_, store_ok.2 ⟨hword ▸ hlo, hword ▸ hhi, rfl⟩, hword ▸ h.succ⟩

/-- Settles O22: CLR is the pass that stores 0, which always fits; the grid check turns it away before that. -/
theorem clrZeroesTheGrid : Obligations.ClrZeroesTheGrid := by
  refine ⟨decode_ok.2 ⟨rfl, rfl⟩, fun s hs hc => ⟨fun hgrid => ?_, fun hgrid => ?_⟩⟩
  · obtain ⟨c, hloop, hmaps⟩ :=
      loopUp_store_completes (f := fun _ => 0) (n := gridRows s * gridCols s) hc fun _ _ => by decide
    exact ⟨c, submit_onGrid (f := fun s => loopUp (gridRows s * gridCols s) fun a => store a 0) hs hgrid hloop,
      hmaps.read⟩
  · exact exec_of_gridCheck_some rfl hs (gridCheck_of_not_fits hgrid)

end Sys2Proof.Machine
end

section
/-! Proofs of the family `41_bit_byte_io.md`. The output stream as one sequence of bits, to which `PutBit`, `PutBits` and
`finish()` append (R114, R115, R127), and the input stream read back from such a sequence (R112, R113); with these, that
reader and writer are mirrors (R128). -/

namespace Sys2Proof.Machine

variable {room n : Nat} {v : Word} {k k' k'' : Sink} {bits bits' : List Bool}

/-! ## The bits of the output stream -/

/-- How many bits the output stream holds, from OUT's first byte to the last bit buffered. -/
def Sink.bitCount (k : Sink) : Nat := 8 * k.wr.pos.toNat + k.wr.cnt.toNat

/-- Bit `t` of the output stream: each byte of OUT from bit 7 down, then what is buffered (R54, R114). -/
def Sink.bit (k : Sink) (t : Nat) : Bool :=
  if t < 8 * k.wr.pos.toNat then (k.mem.read (t / 8)).getLsbD (7 - t % 8)
  else k.wr.buf.getLsbD (k.bitCount - 1 - t)

theorem Sink.bit_of_stored {t : Nat} (ht : t < 8 * k.wr.pos.toNat) :
    k.bit t = (k.mem.read (t / 8)).getLsbD (7 - t % 8) :=
  if_pos ht

theorem Sink.bit_of_buffered {t : Nat} (ht : 8 * k.wr.pos.toNat ≤ t) :
    k.bit t = k.wr.buf.getLsbD (k.bitCount - 1 - t) :=
  if_neg (by omega)

/-- Writes up to an earlier index are writes up to a later one. -/
theorem Memory.WritesWithin.mono_hi {w lo hi hi' : Nat} {m m' : Memory w} (h : m.WritesWithin lo hi m')
    (hhi : hi ≤ hi') : m.WritesWithin lo hi' m' := by
  induction h with
  | refl => exact .refl
  | write _ hlo ha v ih => exact ih.write hlo (by omega) v

/-- `k'` is `k` with the bits of the list appended; OUT differs only in the bytes they fill. -/
structure Sink.Appends (k : Sink) (bits : List Bool) (k' : Sink) : Prop where
  cnt : k'.wr.cnt.toNat ≤ 7
  mem : k.mem.WritesWithin k.wr.pos.toNat k'.wr.pos.toNat k'.mem
  bitCount : k'.bitCount = k.bitCount + bits.length
  bit_old : ∀ t, t < k.bitCount → k'.bit t = k.bit t
  bit_new : ∀ t, t < bits.length → k'.bit (k.bitCount + t) = bits.getD t false

theorem Sink.Appends.nil (hcnt : k.wr.cnt.toNat ≤ 7) : k.Appends [] k :=
  ⟨hcnt, .refl, rfl, fun _ _ => rfl, nofun⟩

theorem Sink.Appends.pos_le (h : k.Appends bits k') : k.wr.pos.toNat ≤ k'.wr.pos.toNat := by
  have hcount := h.bitCount
  have hcnt := h.cnt
  unfold Sink.bitCount at hcount
  omega

theorem Sink.Appends.trans (h : k.Appends bits k') (h' : k'.Appends bits' k'') :
    k.Appends (bits ++ bits') k'' where
  cnt := h'.cnt
  mem := (h.mem.mono_hi h'.pos_le).trans (h'.mem.mono_lo h.pos_le)
  bitCount := by rw [h'.bitCount, h.bitCount, List.length_append, Nat.add_assoc]
  bit_old t ht := by
    have hcount := h.bitCount
    rw [h'.bit_old t (by omega), h.bit_old t ht]
  bit_new t ht := by
    have hcount := h.bitCount
    rw [List.length_append] at ht
    by_cases hfirst : t < bits.length
    · rw [h'.bit_old _ (by omega), h.bit_new t hfirst, List.getD_append _ _ _ _ hfirst]
    · rw [List.getD_append_right _ _ _ _ (by omega), ← h'.bit_new _ (by omega)]
      congr 1
      omega

/-! ## `PutBit`, `PutBits` and `finish()` append -/

theorem shiftedBuffer_getLsbD (buf : Byte) (b : Bool) {i : Nat} (hi : i < 8) :
    (buf <<< 1 ||| (BitVec.ofBool b).zeroExtend 8).getLsbD i = if i = 0 then b else buf.getLsbD (i - 1) := by
  cases i with
  | zero => simp
  | succ i => simp [hi, BitVec.getLsbD_eq_getElem (show i < 8 by omega)]

/-- `PutBit` shifts its bit into the bits of the byte not yet stored, and stores that byte when it is full (R114). -/
theorem putBit_bit {b : Bool} (hroom : room < 2 ^ 32) (hwf : k.mem.wf = true) (hcnt : k.wr.cnt.toNat ≤ 7)
    (h : putBit room b k = .ok k') {t : Nat} (ht : t ≤ k.bitCount) :
    k'.bit t = if t < 8 * k.wr.pos.toNat then k.bit t
      else (k.wr.buf <<< 1 ||| (BitVec.ofBool b).zeroExtend 8).getLsbD (k.bitCount - t) := by
  unfold Sink.bitCount at ht
  rcases putBit_ok h with ⟨h8, hk'⟩ | ⟨h8, hpos, hk'⟩
  · have hpos' : k'.wr.pos.toNat = k.wr.pos.toNat := by rw [hk']
    split
    · rw [Sink.bit_of_stored (by omega), Sink.bit_of_stored (by omega), hk']
    · have hcnt' : k'.wr.cnt.toNat = k.wr.cnt.toNat + 1 := by rw [hk']; bv_omega
      rw [Sink.bit_of_buffered (by omega), Sink.bitCount, hpos', hcnt', hk', Sink.bitCount]
      rfl
  · have h7 : k.wr.cnt.toNat = 7 := by bv_omega
    have hpos' : k'.wr.pos.toNat = k.wr.pos.toNat + 1 := by rw [hk', ← outPos_succ_toNat hroom hpos]
    rw [Sink.bit_of_stored (by omega)]
    split
    · rw [Sink.bit_of_stored (by omega), hk', Memory.read_write_other _ (by omega)]
    · rw [hk', show t / 8 = k.wr.pos.toNat by omega, Memory.read_write_same hwf, Sink.bitCount]
      congr 1
      omega

theorem putBit_bitCount {b : Bool} (hroom : room < 2 ^ 32) (hcnt : k.wr.cnt.toNat ≤ 7)
    (h : putBit room b k = .ok k') : k'.bitCount = k.bitCount + 1 := by
  rcases putBit_ok h with ⟨h8, rfl⟩ | ⟨h8, hpos, rfl⟩
  · simp only [Sink.bitCount]
    bv_omega
  · have h7 : k.wr.cnt.toNat = 7 := by bv_omega
    have hpos' := outPos_succ_toNat hroom hpos
    simp only [Sink.bitCount, hpos', h7, show (0 : BitVec 4).toNat = 0 from rfl]
    omega

theorem putBit_mem {b : Bool} (hroom : room < 2 ^ 32) (h : putBit room b k = .ok k') :
    k.mem.WritesWithin k.wr.pos.toNat k'.wr.pos.toNat k'.mem := by
  rcases putBit_ok h with ⟨-, rfl⟩ | ⟨-, hpos, rfl⟩
  · exact .refl
  · have hpos' := outPos_succ_toNat hroom hpos
    exact .write .refl (le_refl _) (by simp only [hpos']; omega) _

theorem putBit_appends {b : Bool} (hroom : room < 2 ^ 32) (hwf : k.mem.wf = true) (hcnt : k.wr.cnt.toNat ≤ 7)
    (h : putBit room b k = .ok k') : k.Appends [b] k' := by
  have hle : 8 * k.wr.pos.toNat ≤ k.bitCount := Nat.le_add_right _ _
  have hcount : k.bitCount = 8 * k.wr.pos.toNat + k.wr.cnt.toNat := rfl
  refine ⟨by have := putBit_cnt h hcnt; omega, putBit_mem hroom h, putBit_bitCount hroom hcnt h,
    fun t ht => ?old, fun t ht => ?new⟩
  case old =>
    rw [putBit_bit hroom hwf hcnt h (by omega), ite_eq_left_iff]
    intro hbuffered
    rw [shiftedBuffer_getLsbD _ _ (by omega), if_neg (by omega), Sink.bit_of_buffered (by omega)]
    congr 1
    omega
  case new =>
    obtain rfl : t = 0 := by simpa using ht
    rw [putBit_bit hroom hwf hcnt h (by omega), if_neg (by omega), shiftedBuffer_getLsbD _ _ (by omega),
      if_pos (by omega)]
    rfl

/-- `PutBits` appends the low `n` bits of its value, bit `n - 1` first (R115). -/
theorem putBits_appends (hroom : room < 2 ^ 32) (hwf : k.mem.wf = true) (hcnt : k.wr.cnt.toNat ≤ 7)
    (h : putBits room v n k = .ok k') : k.Appends (valueBits v.toNat n) k' := by
  induction n generalizing k with
  | zero =>
    cases h
    exact .nil hcnt
  | succ n ih =>
    obtain ⟨k₁, hbit, hrest⟩ := bind_ok.1 h
    have hfirst := putBit_appends hroom hwf hcnt hbit
    exact hfirst.trans (ih (hfirst.mem.wf hwf) hfirst.cnt hrest)

/-- The groups' bits, one after another. -/
def groupBits (gs : List (Nat × Word)) : List Bool := gs.flatMap fun g => valueBits g.2.toNat g.1

theorem writeGroups_appends {gs : List (Nat × Word)} (hroom : room < 2 ^ 32) (hwf : k.mem.wf = true)
    (hcnt : k.wr.cnt.toNat ≤ 7) (h : writeGroups room gs k = .ok k') : k.Appends (groupBits gs) k' := by
  induction gs generalizing k with
  | nil =>
    cases h
    exact .nil hcnt
  | cons g gs ih =>
    obtain ⟨k₁, hgroup, hrest⟩ := bind_ok.1 h
    have hfirst := putBits_appends hroom hwf hcnt hgroup
    exact hfirst.trans (ih (hfirst.mem.wf hwf) hfirst.cnt hrest)

theorem valueBits_zero (n : Nat) : valueBits 0 n = List.replicate n false := by
  induction n with
  | zero => rfl
  | succ n ih => rw [valueBits, ih, Nat.zero_testBit, List.replicate_succ]

/-- `finish()` appends fewer than 8 bits, all 0 (R127). -/
theorem flushWriter_appends (hroom : room < 2 ^ 32) (hwf : k.mem.wf = true) (hcnt : k.wr.cnt.toNat ≤ 7)
    (h : flushWriter room k = .ok k') : ∃ pad < 8, k.Appends (List.replicate pad false) k' := by
  unfold flushWriter at h
  split at h
  · cases h
    exact ⟨0, by omega, .nil hcnt⟩
  · rename_i h0
    refine ⟨8 - k.wr.cnt.toNat, by bv_omega, ?_⟩
    rw [← valueBits_zero]
    exact putBits_appends hroom hwf hcnt h

/-! ## The reader over a sequence of bits -/

variable {src : Source} {r : BitReader}

theorem valueBits_length (v n : Nat) : (valueBits v n).length = n := by
  induction n with
  | zero => rfl
  | succ n ih => rw [valueBits, List.length_cons, ih]

/-- Once the first bits of a list are taken, the reader has the rest of it. -/
theorem streamHas_after_append (hcnt : r.cnt.toNat ≤ 7) (h : streamHas src r (bits ++ bits')) :
    streamHas src (readerAfter src r bits.length) bits' := by
  obtain ⟨hlen, hbits⟩ := h
  rw [List.length_append] at hlen hbits
  obtain ⟨-, hleft, hbit, -⟩ := readerAfter_spec (src := src) bits.length hcnt (by omega)
  refine ⟨by omega, fun t ht => ?_⟩
  rw [hbit, hbits _ (by omega), List.getD_append_right _ _ _ _ (by omega), Nat.add_sub_cancel_left]

/-- The value of `n` bits of the stream that are the low bits of `v` (R54). -/
theorem streamValue_of_valueBits {v t : Nat}
    (h : ∀ j, j < n → streamBit src r (t + j) = (valueBits v n).getD j false) :
    streamValue src r t n = v % 2 ^ n := by
  induction n generalizing t with
  | zero => rw [streamValue, Nat.pow_zero, Nat.mod_one]
  | succ n ih =>
    have hfirst : streamBit src r t = v.testBit n := h 0 (by omega)
    have hrest : streamValue src r (t + 1) n = v % 2 ^ n := ih fun j hj => by
      rw [Nat.add_assoc, Nat.add_comm 1 j, h (j + 1) (by omega)]
      rfl
    rw [streamValue_succ_first, hfirst, hrest, Nat.mod_pow_succ, Nat.toNat_testBit]
    ring

/-- `GetBits` of bits that `PutBits` wrote gives the value back, mod 2^n (R113, R115). -/
theorem getBits_of_valueBits {v : Nat} (hcnt : r.cnt.toNat ≤ 7) (h : streamHas src r (valueBits v n ++ bits)) :
    getBits src n r = .ok (v % 2 ^ n, readerAfter src r n) := by
  obtain ⟨hlen, hbits⟩ := h
  rw [List.length_append, valueBits_length] at hlen hbits
  rw [getBits_of_left hcnt (by omega), streamValue_of_valueBits (v := v) fun j hj => ?_]
  rw [Nat.zero_add, hbits j (by omega), List.getD_append _ _ _ _ (by rwa [valueBits_length])]

/-- The groups are read back from their bits, and the reader then has what follows them. -/
theorem readGroups_of_groupBits {gs : List (Nat × Word)} (hcnt : r.cnt.toNat ≤ 7)
    (h : streamHas src r (groupBits gs ++ bits)) :
    ∃ r', readGroups src (gs.map fun g => g.1) r = .ok (gs.map fun g => g.2.toNat % 2 ^ g.1, r') ∧
      bitsLeft src r' + (groupBits gs).length = bitsLeft src r ∧ streamHas src r' bits := by
  induction gs generalizing r with
  | nil => exact ⟨r, rfl, rfl, h⟩
  | cons g gs ih =>
    have hsplit : groupBits (g :: gs) = valueBits g.2.toNat g.1 ++ groupBits gs := List.flatMap_cons
    rw [hsplit, List.append_assoc] at h
    have hlen := h.1
    rw [List.length_append, valueBits_length] at hlen
    obtain ⟨hcnt', hleft, -, -⟩ := readerAfter_spec (src := src) g.1 hcnt (by omega)
    have hrest := streamHas_after_append hcnt h
    rw [valueBits_length] at hrest
    obtain ⟨r', hread, hleft', hhas⟩ := ih hcnt' hrest
    refine ⟨r', ?_, ?_, hhas⟩
    · simp [readGroups, getBits_of_valueBits hcnt h, hread]
    · rw [hsplit, List.length_append, valueBits_length]
      omega

/-! ## Reader and writer are mirrors (R128) -/

/-- A fresh reader over the whole bytes of a fresh writer has the bits appended to it, and no more. -/
theorem Sink.Appends.streamHas_fresh {m : Memory 8} (h : Sink.Appends ⟨⟨0, 0, 0⟩, m⟩ bits k) (hcnt : k.wr.cnt = 0) :
    streamHas ⟨k.wr.pos, k.mem⟩ ⟨0, 0, 0⟩ bits ∧ bitsLeft ⟨k.wr.pos, k.mem⟩ ⟨0, 0, 0⟩ = bits.length := by
  have hcount : 8 * k.wr.pos.toNat = bits.length := by
    have hcount := h.bitCount
    simpa [Sink.bitCount, hcnt] using hcount
  have hleft : bitsLeft ⟨k.wr.pos, k.mem⟩ ⟨0, 0, 0⟩ = bits.length := by simp [bitsLeft, hcount]
  refine ⟨⟨hleft.ge, fun t ht => ?_⟩, hleft⟩
  have hbit := h.bit_new t ht
  rw [← hbit, Sink.bit_of_stored (by simpa [Sink.bitCount, hcount] using ht)]
  simp [streamBit, Sink.bitCount]

/-- Settles O29: the writer appends the groups' bits and the padding, and the reader takes them from the same
sequence. -/
theorem readerMirrorsWriter : Obligations.ReaderMirrorsWriter := by
  intro room gs m k k' hroom hwf _ hgroups hflush
  have happ := writeGroups_appends hroom hwf (by simp) hgroups
  obtain ⟨pad, hpad, happ'⟩ := flushWriter_appends hroom (happ.mem.wf hwf) happ.cnt hflush
  obtain ⟨hhas, hleft⟩ := (happ.trans happ').streamHas_fresh (flushWriter_cnt hflush happ.cnt)
  obtain ⟨r, hread, hleft', -, hzero⟩ := readGroups_of_groupBits (by simp) hhas
  have hrest : bitsLeft ⟨k'.wr.pos, k'.mem⟩ r = pad := by
    rw [hleft, List.length_append, List.length_replicate] at hleft'
    omega
  refine ⟨r, hread, by omega, fun t ht => ?_⟩
  rw [hzero t (by simpa [hrest] using ht)]
  simp

end Sys2Proof.Machine
end

section
/-! Proofs of the family `41_bit_byte_io.md`, the commands. Each is the running of one operation of the two streams under
its check (R116 to R127); how that operation answers, or why it cannot, then gives the command's ending (R220, R221). -/

namespace Sys2Proof.Machine

variable {i : Instr} {n w : Nat} {s t : State} {op : BitVec 8} {touches : Touches} {e : ErrCode}

/-- A command whose pseudocode raises an error ends with it (R221). -/
theorem submit_raises_err {check : State → Option ErrCode} {body : State → Except ErrCode State} (hs : s.err = .none)
    (hcheck : check (accept op s) = none) (hbody : body (accept op s) = .error e) (he : e ≠ .none) :
    ∃ t, submit op touches check body s = .next t ∧ t.err = e :=
  ⟨_, submit_raises hs hcheck hbody, by simp [he]⟩

/-! ## Byte reads (R116, R117, R118) -/

section
variable {src : Source} {r : BitReader}

/-- The value of n + 1 bytes, the first taken out. -/
theorem bytesValue_succ_first (hpos : r.pos.toNat < src.len.toNat) (n : Nat) :
    bytesValue src r (n + 1) =
      (src.mem.read r.pos.toNat).toNat * 256 ^ n + bytesValue src { r with pos := r.pos + 1 } n := by
  induction n with
  | zero => simp [bytesValue]
  | succ n ih =>
    rw [bytesValue, ih, bytesValue, pos_succ_toNat hpos, show r.pos.toNat + 1 + n = r.pos.toNat + (n + 1) by omega]
    ring

theorem readBytesFrom_of_left (v : Nat) (h : r.pos.toNat + n ≤ src.len.toNat) :
    readBytesFrom src n v r =
      .ok (v * 256 ^ n + bytesValue src r n, { r with pos := r.pos + BitVec.ofNat 32 n }) := by
  induction n generalizing v r with
  | zero => simp [readBytesFrom, bytesValue]
  | succ n ih =>
    have hpos : r.pos.toNat < src.len.toNat := by omega
    have hbyte := readByte_ok.2 ⟨hpos, rfl⟩
    rw [readBytesFrom, hbyte, ok_bind, ih _ (by rw [pos_succ_toNat hpos]; omega), bytesValue_succ_first hpos,
      BitVec.add_assoc, Nat.add_comm n 1, BitVec.ofNat_add]
    congr 2
    ring

theorem readBytesFrom_of_short (v : Nat) (hn : 0 < n) (h : src.len.toNat < r.pos.toNat + n) :
    readBytesFrom src n v r = .error .truncated := by
  induction n generalizing v r with
  | zero => omega
  | succ n ih =>
    by_cases hpos : r.pos.toNat < src.len.toNat
    · have hbyte := readByte_ok.2 ⟨hpos, rfl⟩
      rw [readBytesFrom, hbyte, ok_bind]
      exact ih _ (by omega) (by rw [pos_succ_toNat hpos]; omega)
    · rw [readBytesFrom, readByte_error.2 ⟨by omega, rfl⟩, error_bind]

end

theorem byteRead_command {w : Word}
    (h : (i, n, w) ∈ [(Instr.rdu8, 1, 0x00000010#32), (.rdu16, 2, 0x00000011#32), (.rdu32, 4, 0x00000012#32)]) :
    decode w = .ok i ∧ 0 < n ∧ exec i s = submit i.opcode { reader := true } byteReadCheck (readBytes n) s := by
  simp only [List.mem_cons, Prod.mk.injEq, List.not_mem_nil, or_false] at h
  rcases h with ⟨rfl, rfl, rfl⟩ | ⟨rfl, rfl, rfl⟩ | ⟨rfl, rfl, rfl⟩ <;>
    exact ⟨decode_ok.2 ⟨rfl, rfl⟩, by decide, rfl⟩

theorem readBytes_accept : readBytes n (accept op s) = readBytesFrom (source s) n 0 s.rd >>= fun p =>
    .ok (accept op { s with rd := p.2, result := BitVec.ofNat 32 p.1 }) :=
  rfl

/-- Settles O23: the buffer check comes first, and then the bytes are there or are not. -/
theorem byteReadsAreBigEndian : Obligations.ByteReadsAreBigEndian := by
  intro i n w s h hs
  obtain ⟨hdecode, hn, hexec⟩ := byteRead_command (s := s) h
  rw [hexec]
  refine ⟨hdecode, fun hcnt => ?buffered, fun hcnt hleft => ?read, fun hcnt hshort => ?truncated⟩
  case buffered => exact submit_failed hs (by decide) (byteReadCheck_of_buffered hcnt)
  case read =>
    refine submit_finished hs (if_pos hcnt) ?_
    rw [readBytes_accept, readBytesFrom_of_left 0 hleft, Nat.zero_mul, Nat.zero_add, ok_bind]
  case truncated =>
    refine submit_raises_err hs (if_pos hcnt) ?_ (by decide)
    rw [readBytes_accept, readBytesFrom_of_short 0 hn hshort, error_bind]

/-! ## Byte writes (R119, R120, R121) -/

section
variable {room : Nat} {v : Word} {k : Sink}

theorem emitBytes_succ :
    emitBytes room v (n + 1) k = emitByte room (v.extractLsb' (8 * n) 8) k >>= emitBytes room v n :=
  rfl

theorem emitBytes_of_room (hroom : room < 2 ^ 32) (hwf : k.mem.wf = true) (h : k.wr.pos.toNat + n ≤ room) :
    ∃ m, emitBytes room v n k = .ok ⟨{ k.wr with pos := k.wr.pos + BitVec.ofNat 32 n }, m⟩ ∧
      ∀ p, m.read p =
        if k.wr.pos.toNat ≤ p ∧ p < k.wr.pos.toNat + n then v.extractLsb' (8 * (n - 1 - (p - k.wr.pos.toNat))) 8
        else k.mem.read p := by
  induction n generalizing k with
  | zero => exact ⟨k.mem, by simp [emitBytes, loopDown], fun p => by rw [if_neg (by omega)]⟩
  | succ n ih =>
    have hlt : k.wr.pos.toNat < room := by omega
    have hpos := outPos_succ_toNat hroom hlt
    obtain ⟨k₁, hbyte, hwr, hmem⟩ : ∃ k₁, emitByte room (v.extractLsb' (8 * n) 8) k = .ok k₁ ∧
        k₁.wr = { k.wr with pos := k.wr.pos + 1 } ∧
        k₁.mem = k.mem.write k.wr.pos.toNat (v.extractLsb' (8 * n) 8) :=
      ⟨_, emitByte_ok.2 ⟨hlt, rfl⟩, rfl, rfl⟩
    obtain ⟨m, hrest, hread⟩ := ih (k := k₁) (hmem ▸ Memory.write_wf _ _ hwf) (by simp only [hwr, hpos]; omega)
    refine ⟨m, ?_, fun p => ?_⟩
    · rw [emitBytes_succ, hbyte, ok_bind, hrest, hwr, BitVec.add_assoc, Nat.add_comm n 1, BitVec.ofNat_add]
      rfl
    · simp only [hread, hwr, hpos, hmem, Memory.read_write hwf]
      by_cases hfirst : p = k.wr.pos.toNat
      · rw [if_neg (by omega), if_pos hfirst, if_pos (by omega)]
        congr 1
        omega
      · by_cases hrange : k.wr.pos.toNat ≤ p ∧ p < k.wr.pos.toNat + (n + 1)
        · rw [if_pos (by omega), if_pos hrange]
          congr 1
          omega
        · rw [if_neg (by omega), if_neg hfirst, if_neg hrange]

theorem emitBytes_of_full (hroom : room < 2 ^ 32) (hn : 0 < n) (h : room < k.wr.pos.toNat + n) :
    emitBytes room v n k = .error .outFull := by
  induction n generalizing k with
  | zero => omega
  | succ n ih =>
    rw [emitBytes_succ]
    by_cases hlt : k.wr.pos.toNat < room
    · have hpos := outPos_succ_toNat hroom hlt
      rw [emitByte_ok.2 ⟨hlt, rfl⟩, ok_bind]
      exact ih (by omega) (by simp only [hpos]; omega)
    · rw [emitByte_error.2 ⟨by omega, rfl⟩, error_bind]

end

theorem byteWrite_command {w : Word}
    (h : (i, n, w) ∈ [(Instr.wru8, 1, 0x00000014#32), (.wru16, 2, 0x00000015#32), (.wru32, 4, 0x00000016#32)]) :
    decode w = .ok i ∧ 0 < n ∧ exec i s = submit i.opcode { writer := true } byteWriteCheck (writeBytes n) s := by
  simp only [List.mem_cons, Prod.mk.injEq, List.not_mem_nil, or_false] at h
  rcases h with ⟨rfl, rfl, rfl⟩ | ⟨rfl, rfl, rfl⟩ | ⟨rfl, rfl, rfl⟩ <;>
    exact ⟨decode_ok.2 ⟨rfl, rfl⟩, by decide, rfl⟩

theorem writeBytes_accept : writeBytes n (accept op s) = emitBytes s.params.outBytes s.arg n (sink s) >>= fun k =>
    .ok (accept op { s with wr := k.wr, outMem := k.mem }) :=
  rfl

/-- Settles O24: the buffer check comes first, and then OUT has room for the bytes or has not. -/
theorem byteWritesAreBigEndian : Obligations.ByteWritesAreBigEndian := by
  intro i n w s h hs hlegal hwf
  have hroom := outBytes_lt_of_legal hlegal
  obtain ⟨hdecode, hn, hexec⟩ := byteWrite_command (s := s) h
  rw [hexec]
  refine ⟨hdecode, fun hcnt => ?buffered, fun hcnt hfits => ?written, fun hcnt hfull => ?outFull⟩
  case buffered => exact submit_failed hs (by decide) (byteWriteCheck_of_buffered hcnt)
  case written =>
    obtain ⟨m, hemit, hread⟩ := emitBytes_of_room (v := s.arg) (k := sink s) hroom hwf hfits
    refine ⟨m, submit_finished hs (if_pos hcnt) ?_, hread⟩
    rw [writeBytes_accept, hemit, ok_bind]
    rfl
  case outFull =>
    refine submit_raises_err hs (if_pos hcnt) ?_ (by decide)
    rw [writeBytes_accept, emitBytes_of_full hroom hn hfull, error_bind]

/-! ## Bit reads (R122, R123, R124) -/

/-- A command with the field Q = 0, as a number: its count above its opcode (R70). -/
theorem encode_of_quadrant_zero (hq : i.quadrant = 0) :
    encode i = BitVec.ofNat 32 (i.opcode.toNat + 256 * i.count.toNat) := by
  have hop := i.opcode.isLt
  have hn := i.count.isLt
  have hword : (BitVec.ofNat 32 (i.opcode.toNat + 256 * i.count.toNat)).toNat =
      i.opcode.toNat + 256 * i.count.toNat := by
    rw [BitVec.toNat_ofNat]
    omega
  refine encode_eq_iff.2 ⟨?rsv, ?op, ?n, ?q⟩ <;> apply BitVec.eq_of_toNat_eq
  case rsv =>
    rw [fieldRsv_toNat, hword]
    exact Nat.div_eq_of_lt (by omega)
  case op =>
    rw [fieldOp_toNat, hword]
    omega
  case n =>
    rw [fieldN_toNat, hword]
    omega
  case q =>
    rw [fieldQ_toNat, hword, hq]
    change 0 = _
    omega

/-- The check of N of the bit commands, as a number: at most 24 (R123, R126). -/
def bitCountCheck (n : Nat) (_ : State) : Option ErrCode := if n ≤ 24 then none else some .illegal

theorem bitRead_command
    (h : (i, n, w) = (.getbit, 1, 0x20) ∨ ∃ c : BitVec 5, (i, n, w) = (.getbits c, c.toNat, 0x21 + 256 * c.toNat)) :
    (n ≤ 24 → decode (BitVec.ofNat 32 w) = .ok i) ∧
      exec i s = submit i.opcode { reader := true } (bitCountCheck n) (readBits n) s := by
  rcases h with h | ⟨c, h⟩ <;> cases h
  · exact ⟨fun _ => decode_ok.2 ⟨rfl, rfl⟩, rfl⟩
  · exact ⟨fun hn => decode_ok.2 ⟨decide_eq_true hn, encode_of_quadrant_zero rfl⟩, rfl⟩

theorem readBits_accept : readBits n (accept op s) = getBits (source s) n s.rd >>= fun p =>
    .ok (accept op { s with rd := p.2, result := BitVec.ofNat 32 p.1 }) :=
  rfl

/-- Settles O25: the count is checked first, and then the bits are there or are not. -/
theorem bitReadsTakeTheNextBits : Obligations.BitReadsTakeTheNextBits := by
  intro i n w s h hs hcnt
  obtain ⟨hdecode, hexec⟩ := bitRead_command (s := s) h
  rw [hexec]
  refine ⟨hdecode, fun hn hleft => ?read, fun hn hshort => ?truncated, fun hn => ?illegal⟩
  case read =>
    refine submit_finished hs (if_pos hn) ?_
    rw [readBits_accept, getBits_of_left hcnt hleft, ok_bind]
  case truncated =>
    refine submit_raises_err hs (if_pos hn) ?_ (by decide)
    rw [readBits_accept, getBits, getBitsFrom_of_short n 0 hcnt hshort, error_bind]
  case illegal => exact submit_failed hs (by decide) (if_neg (by omega))

/-- Settles O26: BRALIGN has no check and cannot fail. -/
theorem bralignDropsThePartialByte : Obligations.BralignDropsThePartialByte :=
  ⟨decode_ok.2 ⟨rfl, rfl⟩, fun _ hs => submit_finished hs rfl rfl⟩

/-! ## The writer after `PutBits` (R114, R115, R125, R126) -/

section
variable {room : Nat} {v : Word} {k k' : Sink}

theorem valueBits_getD {v j : Nat} (hj : j < n) : (valueBits v n).getD j false = v.testBit (n - 1 - j) := by
  induction n generalizing j with
  | zero => omega
  | succ n ih =>
    cases j with
    | zero => rfl
    | succ j =>
      rw [valueBits, List.getD_cons_succ, ih (by omega)]
      congr 1
      omega

theorem writerValue_testBit (wr : BitWriter) (v n j : Nat) :
    (writerValue wr v n).testBit j = if j < n then v.testBit j else wr.buf.getLsbD (j - n) := by
  rw [writerValue, Nat.mul_comm, Nat.testBit_two_pow_mul_add _ (Nat.mod_lt _ (Nat.two_pow_pos n))]
  split
  · rename_i hj
    rw [Nat.testBit_mod_two_pow, decide_eq_true hj, Bool.true_and]
  · rfl

/-- From OUT_POS on, the writer's bits after `n` more are those of `writerValue`. -/
theorem Sink.Appends.bit_eq_testBit {v : Nat} (h : k.Appends (valueBits v n) k') {t : Nat}
    (ht : 8 * k.wr.pos.toNat ≤ t) (hlt : t < k'.bitCount) :
    k'.bit t = (writerValue k.wr v n).testBit (k'.bitCount - 1 - t) := by
  have hcount := h.bitCount
  rw [valueBits_length] at hcount
  rw [writerValue_testBit]
  by_cases hold : t < k.bitCount
  · rw [h.bit_old t hold, Sink.bit_of_buffered ht, if_neg (by omega)]
    congr 1
    omega
  · have hnew := h.bit_new (t - k.bitCount) (by rw [valueBits_length]; omega)
    rw [valueBits_getD (by omega), Nat.add_sub_cancel' (by omega)] at hnew
    rw [hnew, if_pos (by omega)]
    congr 1
    omega

/-- The writer's bits after `n` more, 8 to a byte: how far OUT_POS moves, and how many stay buffered. -/
theorem Sink.Appends.pos_cnt {v : Nat} (h : k.Appends (valueBits v n) k') :
    k'.wr.pos.toNat = k.wr.pos.toNat + writerBits k.wr n / 8 ∧ k'.wr.cnt.toNat = writerBits k.wr n % 8 := by
  have hcount := h.bitCount
  have hcnt := h.cnt
  simp only [valueBits_length, Sink.bitCount] at hcount
  unfold writerBits
  omega

theorem Sink.Appends.wr_eq_writerAfter {v : Nat} (h : k.Appends (valueBits v n) k')
    (hbuf : k'.wr.buf.toNat < 2 ^ k'.wr.cnt.toNat) : k'.wr = writerAfter k.wr v n := by
  obtain ⟨hpos, hcnt⟩ := h.pos_cnt
  have hbuf' : k'.wr.buf = BitVec.ofNat 8 (writerValue k.wr v n % 2 ^ (writerBits k.wr n % 8)) := by
    apply BitVec.eq_of_getLsbD_eq
    intro j hj
    rw [BitVec.getLsbD_ofNat, decide_eq_true hj, Bool.true_and, Nat.testBit_mod_two_pow, ← hcnt]
    by_cases hlt : j < k'.wr.cnt.toNat
    · have hcount : k'.bitCount = 8 * k'.wr.pos.toNat + k'.wr.cnt.toNat := rfl
      have hbit := h.bit_eq_testBit (t := k'.bitCount - 1 - j) (by omega) (by omega)
      rw [Sink.bit_of_buffered (by omega), Nat.sub_sub_self (by omega)] at hbit
      rw [hbit, decide_eq_true hlt, Bool.true_and]
    · rw [decide_eq_false hlt, Bool.false_and]
      exact Nat.testBit_lt_two_pow (hbuf.trans_le (Nat.pow_le_pow_right (by omega) (by omega)))
  have hcnt' : k'.wr.cnt = BitVec.ofNat 4 (writerBits k.wr n % 8) := by
    rw [← hcnt, BitVec.ofNat_toNat, BitVec.setWidth_eq]
  have hpos' : k'.wr.pos = k.wr.pos + BitVec.ofNat 32 (writerBits k.wr n / 8) := by
    apply BitVec.eq_of_toNat_eq
    have := k'.wr.pos.isLt
    rw [BitVec.toNat_add, BitVec.toNat_ofNat]
    omega
  rw [writerAfter, ← hbuf', ← hcnt', ← hpos']

theorem Sink.Appends.read_eq_writerByte {v : Nat} (h : k.Appends (valueBits v n) k') (p : Nat) :
    k'.mem.read p =
      if k.wr.pos.toNat ≤ p ∧ p < k.wr.pos.toNat + writerBits k.wr n / 8 then
        writerByte k.wr v n (p - k.wr.pos.toNat)
      else k.mem.read p := by
  obtain ⟨hpos, hcnt⟩ := h.pos_cnt
  split
  · apply BitVec.eq_of_getLsbD_eq
    intro j hj
    have hcount : k'.bitCount = 8 * k'.wr.pos.toNat + k'.wr.cnt.toNat := rfl
    have hbit := h.bit_eq_testBit (t := 8 * p + (7 - j)) (by omega) (by omega)
    rw [Sink.bit_of_stored (by omega), show (8 * p + (7 - j)) / 8 = p by omega,
      show 7 - (8 * p + (7 - j)) % 8 = j by omega] at hbit
    rw [hbit, writerByte, BitVec.getLsbD_ofNat, decide_eq_true hj, Bool.true_and, Nat.testBit_div_two_pow]
    congr 1
    omega
  · exact h.mem.read_other (by omega)

/-- `PutBit` completes when its bit does not fill a byte that OUT has no room for (R114). -/
theorem putBit_completes (b : Bool) (hcnt : k.wr.cnt.toNat ≤ 7) (h : k.bitCount + 1 < 8 * room + 8) :
    ∃ k', putBit room b k = .ok k' := by
  unfold Sink.bitCount at h
  unfold putBit
  dsimp only
  split
  · rw [emitByte_ok.2 ⟨by bv_omega, rfl⟩]
    exact ⟨_, rfl⟩
  · exact ⟨_, rfl⟩

theorem putBits_completes (hroom : room < 2 ^ 32) (hcnt : k.wr.cnt.toNat ≤ 7)
    (h : k.wr.pos.toNat + writerBits k.wr n / 8 ≤ room) : ∃ k', putBits room v n k = .ok k' := by
  unfold writerBits at h
  have hloop := loopDown_completes (n := n) (x := k) (f := fun i => putBit room (v.getLsbD i))
    (P := fun i k => k.wr.cnt.toNat ≤ 7 ∧ k.bitCount + i < 8 * room + 8) ?start fun i k₁ _ ⟨hcnt₁, hleft⟩ => ?pass
  case start => exact ⟨hcnt, by unfold Sink.bitCount; omega⟩
  case pass =>
    obtain ⟨k₂, hbit⟩ := putBit_completes (v.getLsbD i) hcnt₁ (show k₁.bitCount + 1 < 8 * room + 8 by omega)
    have hcount := putBit_bitCount hroom hcnt₁ hbit
    have hcnt₂ := putBit_cnt hbit hcnt₁
    exact ⟨k₂, hbit, by omega, by omega⟩
  obtain ⟨k', hk', -⟩ := hloop
  exact ⟨k', hk'⟩

/-- When the bits fill a byte too many, `PutBits` can only have raised OUTFULL: had it answered, OUT_POS would stand
beyond OUT. -/
theorem putBits_of_full (hroom : room < 2 ^ 32) (hwf : k.mem.wf = true) (hcnt : k.wr.cnt.toNat ≤ 7)
    (hpos : k.wr.pos.toNat ≤ room) (h : room < k.wr.pos.toNat + writerBits k.wr n / 8) :
    putBits room v n k = .error .outFull := by
  cases hk : putBits room v n k with
  | error e =>
    obtain ⟨_, _, -, hbit⟩ := loopDown_error hk
    rw [putBit_error hbit]
  | ok k' =>
    have hadvance := (yields_iff.1 (putBits_writes v n)).1 k' hk hroom
    have hbound := hadvance.pos_bound
    have hend := (putBits_appends hroom hwf hcnt hk).pos_cnt.1
    omega

end

theorem bitWrite_command
    (h : (i, n, w) = (.putbit, 1, 0x24) ∨ ∃ c : BitVec 5, (i, n, w) = (.putbits c, c.toNat, 0x25 + 256 * c.toNat)) :
    (n ≤ 24 → decode (BitVec.ofNat 32 w) = .ok i) ∧
      exec i s = submit i.opcode { writer := true } (bitCountCheck n) (writeBits n) s := by
  rcases h with h | ⟨c, h⟩ <;> cases h
  · exact ⟨fun _ => decode_ok.2 ⟨rfl, rfl⟩, rfl⟩
  · exact ⟨fun hn => decode_ok.2 ⟨decide_eq_true hn, encode_of_quadrant_zero rfl⟩, rfl⟩

theorem writeBits_accept : writeBits n (accept op s) = putBits s.params.outBytes s.arg n (sink s) >>= fun k =>
    .ok (accept op { s with wr := k.wr, outMem := k.mem }) :=
  rfl

/-- Settles O27: the count is checked first, and then OUT has room for the bytes the bits fill or has not. -/
theorem bitWritesAppendTheLowBits : Obligations.BitWritesAppendTheLowBits := by
  intro i n w s h hs hsound
  have hroom := outBytes_lt_of_legal hsound.legal
  have hcnt := hsound.bwCnt hs
  obtain ⟨hdecode, hexec⟩ := bitWrite_command (s := s) h
  rw [hexec]
  refine ⟨hdecode, fun hn hfits => ?written, fun hn hfull => ?outFull, fun hn => ?illegal⟩
  case written =>
    obtain ⟨k, hput⟩ := putBits_completes (v := s.arg) (k := sink s) hroom hcnt hfits
    have happ := putBits_appends (k := sink s) hroom hsound.outWf hcnt hput
    have hadvance := (yields_iff.1 (putBits_writes s.arg n)).1 k hput hroom
    have hwr := happ.wr_eq_writerAfter (hadvance.buffer ⟨hcnt, hsound.bwBuf hs⟩).2
    refine ⟨k.mem, submit_finished hs (if_pos hn) ?_, happ.read_eq_writerByte⟩
    rw [writeBits_accept, hput, ok_bind, hwr]
    rfl
  case outFull =>
    refine submit_raises_err hs (if_pos hn) ?_ (by decide)
    rw [writeBits_accept, putBits_of_full (k := sink s) hroom hsound.outWf hcnt (hsound.outPos hs) hfull, error_bind]
  case illegal => exact submit_failed hs (by decide) (if_neg (by omega))

/-! ## BWFLUSH (R127) -/

section
variable {room : Nat} {k : Sink}

theorem putBits_succ {v : Word} :
    putBits room v (n + 1) k = putBit room (v.getLsbD n) k >>= putBits room v n :=
  rfl

theorem putBit_of_fills {b : Bool} (h : k.wr.cnt + 1 = 8) :
    putBit room b k = emitByte room (k.wr.buf <<< 1 ||| (BitVec.ofBool b).zeroExtend 8) k >>= fun k =>
      .ok { k with wr := { k.wr with buf := 0, cnt := 0 } } :=
  if_pos h

theorem putBit_of_buffers {b : Bool} (h : k.wr.cnt + 1 ≠ 8) :
    putBit room b k = .ok { k with wr := { k.wr with
      buf := k.wr.buf <<< 1 ||| (BitVec.ofBool b).zeroExtend 8, cnt := k.wr.cnt + 1 } } :=
  if_neg h

/-- The zero bits up to the byte boundary shift what is buffered to the top of its byte, and the last one stores it. -/
theorem putBits_zeros_to_boundary (h : k.wr.cnt.toNat + (n + 1) = 8) :
    putBits room 0 (n + 1) k = if room ≤ k.wr.pos.toNat then .error .outFull
      else .ok ⟨⟨0, 0, k.wr.pos + 1⟩, k.mem.write k.wr.pos.toNat (k.wr.buf <<< (n + 1))⟩ := by
  have hzero : ∀ j, (0 : Word).getLsbD j = false := fun j => by simp
  have hshift : k.wr.buf <<< 1 ||| (BitVec.ofBool false).zeroExtend 8 = k.wr.buf <<< 1 := BitVec.or_zero
  induction n generalizing k with
  | zero =>
    rw [putBits_succ, putBit_of_fills (by bv_omega), hzero, hshift, emitByte]
    split <;> rfl
  | succ n ih =>
    rw [putBits_succ, putBit_of_buffers (by bv_omega), hzero, hshift, ok_bind, ih (by bv_omega) BitVec.or_zero,
      ← BitVec.shiftLeft_add, Nat.add_comm 1]

theorem flushWriter_of_empty (h : k.wr.cnt = 0) : flushWriter room k = .ok k := if_pos h

/-- `finish()` with bits buffered stores them above zeros as one byte, or finds no room for it (R127). -/
theorem flushWriter_of_buffered (hcnt : k.wr.cnt.toNat ≤ 7) (h : k.wr.cnt ≠ 0) :
    flushWriter room k = if room ≤ k.wr.pos.toNat then .error .outFull
      else .ok ⟨⟨0, 0, k.wr.pos + 1⟩, k.mem.write k.wr.pos.toNat (k.wr.buf <<< (8 - k.wr.cnt.toNat))⟩ := by
  obtain ⟨n, hn⟩ : ∃ n, 8 - k.wr.cnt.toNat = n + 1 := ⟨7 - k.wr.cnt.toNat, by omega⟩
  rw [flushWriter, if_neg h, hn]
  exact putBits_zeros_to_boundary (by omega)

end

/-- The pseudocode of BWFLUSH (R127). -/
def flushOutput (s : State) : Except ErrCode State :=
  flushWriter s.params.outBytes (sink s) >>= fun k => .ok (setSink s k)

theorem exec_bwflush : exec .bwflush s = submit 0x26 { writer := true } noCheck flushOutput s := rfl

theorem flushOutput_accept : flushOutput (accept op s) = flushWriter s.params.outBytes (sink s) >>= fun k =>
    .ok (accept op { s with wr := k.wr, outMem := k.mem }) :=
  rfl

/-- Settles O28: by what `finish()` does with an empty buffer, with room for its byte and without. -/
theorem bwflushPadsWithZeros : Obligations.BwflushPadsWithZeros := by
  refine ⟨decode_ok.2 ⟨rfl, rfl⟩, fun s hs hcnt => ?_⟩
  have hflush := @flushWriter_of_buffered s.params.outBytes (sink s) hcnt
  rw [exec_bwflush]
  refine ⟨fun hempty => ?empty, fun hbuffered hroom => ?padded, fun hbuffered hfull => ?outFull⟩
  case empty =>
    refine submit_finished hs rfl ?_
    rw [flushOutput_accept, flushWriter_of_empty hempty, ok_bind]
    rfl
  case padded =>
    refine submit_finished hs rfl ?_
    have hroom : ¬ s.params.outBytes ≤ (sink s).wr.pos.toNat := hroom.not_ge
    rw [flushOutput_accept, hflush hbuffered, if_neg hroom, ok_bind]
    rfl
  case outFull =>
    refine submit_raises_err hs rfl ?_ (by decide)
    have hfull : s.params.outBytes ≤ (sink s).wr.pos.toNat := hfull
    rw [flushOutput_accept, hflush hbuffered, if_pos hfull, error_bind]

end Sys2Proof.Machine
end

section
/-! Proofs of the family `42_transform.md`. First the transform's loops as rewritings of COEF: a computation rewrites a
set of words when it reads no other word that a part before it has written, so that parts with disjoint sets run one
after another (R9, R150, R158). With this, what the blocks of a level and its shuffles leave in every word. -/

namespace Sys2Proof.Machine

/-! ## Words that a computation rewrites -/

variable {S S' : Set Nat} {T : Nat → Int} {c c' : Memory 32} {x : Except ErrCode (Memory 32)}

/-- The integer is a 32-bit word's (R9). -/
def Fits (v : Int) : Prop := -2147483648 ≤ v ∧ v ≤ 2147483647

theorem coefInt_fits (c : Memory 32) (a : Nat) : Fits (coefInt c a) := by
  have hlo := BitVec.le_toInt (c.read a)
  have hhi := BitVec.toInt_lt (x := c.read a)
  exact ⟨hlo, by unfold coefInt; omega⟩

theorem ofInt_coefInt (c : Memory 32) (a : Nat) : BitVec.ofInt 32 (coefInt c a) = c.read a := BitVec.ofInt_toInt

/-- `c'` is `c` with the words of `S` replaced by those of `T`, in canonical form. -/
structure Replaces (S : Set Nat) (T : Nat → Int) (c c' : Memory 32) : Prop where
  wf : c'.wf = true
  inside : ∀ a ∈ S, c'.read a = BitVec.ofInt 32 (T a)
  outside : ∀ a ∉ S, c'.read a = c.read a

theorem Replaces.coefInt_inside (h : Replaces S T c c') {a : Nat} (ha : a ∈ S) (hT : Fits (T a)) :
    coefInt c' a = T a := by
  rw [coefInt, h.inside a ha, toInt_ofInt_of_fits hT.1 hT.2]

/-- The computation answers `c` with the words of `S` replaced, all of which fit; or it raises RANGE, and one of them
does not fit. -/
def Puts (S : Set Nat) (T : Nat → Int) (c : Memory 32) : Except ErrCode (Memory 32) → Prop
  | .ok c' => (∀ a ∈ S, Fits (T a)) ∧ Replaces S T c c'
  | .error e => e = .range ∧ ∃ a ∈ S, ¬ Fits (T a)

theorem Puts.of_ok (h : Puts S T c (.ok c')) : (∀ a ∈ S, Fits (T a)) ∧ Replaces S T c c' := h

theorem Puts.completes (h : Puts S T c x) (hT : ∀ a ∈ S, Fits (T a)) : ∃ c', x = .ok c' ∧ Replaces S T c c' := by
  cases x with
  | ok c' => exact ⟨c', rfl, h.2⟩
  | error e =>
    obtain ⟨-, a, ha, hout⟩ := h
    exact absurd (hT a ha) hout

theorem Puts.raises (h : Puts S T c x) {a : Nat} (ha : a ∈ S) (hT : ¬ Fits (T a)) : x = .error .range := by
  cases x with
  | ok c' => exact absurd (h.1 a ha) hT
  | error e => rw [h.1]

/-- On every memory that has the words of `c` in `S`, the computation `f` puts those of `T` there. -/
def Rewrites (S : Set Nat) (T : Nat → Int) (c : Memory 32) (f : Memory 32 → Except ErrCode (Memory 32)) : Prop :=
  ∀ c₁ : Memory 32, c₁.wf = true → (∀ a ∈ S, c₁.read a = c.read a) → Puts S T c₁ (f c₁)

variable {f g : Memory 32 → Except ErrCode (Memory 32)}

theorem Rewrites.puts (h : Rewrites S T c f) (hc : c.wf = true) : Puts S T c (f c) := h c hc fun _ _ => rfl

theorem rewrites_ok : Rewrites ∅ T c .ok := fun _ hc _ => ⟨by simp, hc, by simp, fun _ _ => rfl⟩

theorem rewrites_store (a : Nat) : Rewrites {a} T c (store a (T a)) := by
  intro c₁ hc _
  by_cases hT : Fits (T a)
  · rw [store_ok.2 ⟨hT.1, hT.2, rfl⟩]
    refine ⟨by simpa using hT, Memory.write_wf _ _ hc, ?_, fun b hb => Memory.read_write_other _ hb _⟩
    rintro b rfl
    exact Memory.read_write_same hc _ _
  · have hout : T a < -2147483648 ∨ 2147483647 < T a := by unfold Fits at hT; omega
    rw [store_error.2 ⟨hout, rfl⟩]
    exact ⟨rfl, a, rfl, hT⟩

/-- One rewriting after another, of other words. -/
theorem Rewrites.seq (hf : Rewrites S T c f) (hg : Rewrites S' T c g) (hd : Disjoint S S') :
    Rewrites (S ∪ S') T c fun c₁ => f c₁ >>= g := by
  intro c₁ hc hwords
  have hfirst := hf c₁ hc fun a ha => hwords a (.inl ha)
  dsimp only
  cases hx : f c₁ with
  | error e =>
    rw [hx] at hfirst
    obtain ⟨he, a, ha, hT⟩ := hfirst
    exact ⟨he, a, .inl ha, hT⟩
  | ok c₂ =>
    rw [hx] at hfirst
    obtain ⟨hfits, h₂⟩ := hfirst
    have hkept : ∀ a ∈ S', a ∉ S := fun a ha' ha => Set.disjoint_left.1 hd ha ha'
    have hsecond := hg c₂ h₂.wf fun a ha => (h₂.outside a (hkept a ha)).trans (hwords a (.inr ha))
    rw [ok_bind]
    cases hy : g c₂ with
    | error e =>
      rw [hy] at hsecond
      obtain ⟨he, a, ha, hT⟩ := hsecond
      exact ⟨he, a, .inr ha, hT⟩
    | ok c₃ =>
      rw [hy] at hsecond
      obtain ⟨hfits', h₃⟩ := hsecond
      refine ⟨fun a ha => ha.elim (hfits a) (hfits' a), h₃.wf, fun a ha => ?_, fun a ha => ?_⟩
      · rcases ha with ha | ha
        · rw [h₃.outside a fun ha' => hkept a ha' ha, h₂.inside a ha]
        · exact h₃.inside a ha
      · rw [h₃.outside a fun h => ha (.inr h), h₂.outside a fun h => ha (.inl h)]

theorem Rewrites.congr (hf : Rewrites S T c f) (hS : ∀ a, a ∈ S ↔ a ∈ S') : Rewrites S' T c f := Set.ext hS ▸ hf

theorem Rewrites.when (p : Prop) [Decidable p] (hf : p → Rewrites S T c f) :
    Rewrites {a | p ∧ a ∈ S} T c fun c₁ => if p then f c₁ else .ok c₁ := by
  by_cases hp : p
  · simpa [hp] using hf hp
  · simpa [hp] using rewrites_ok

/-- A loop whose pass i rewrites the words of `S` that have the key i. -/
theorem rewrites_loopUp {n : Nat} {key : Nat → Nat} {f : Nat → Memory 32 → Except ErrCode (Memory 32)}
    (hf : ∀ i, i < n → Rewrites {a | key a = i ∧ a ∈ S} T c (f i)) :
    Rewrites {a | key a < n ∧ a ∈ S} T c (loopUp n f) := by
  induction n with
  | zero => exact rewrites_ok.congr (by simp)
  | succ n ih =>
    have hdisjoint : Disjoint {a | key a < n ∧ a ∈ S} {a | key a = n ∧ a ∈ S} :=
      Set.disjoint_left.2 fun a ⟨hlt, _⟩ ⟨heq, _⟩ => hlt.ne heq
    refine ((ih fun i hi => hf i (by omega)).seq (hf n (by omega)) hdisjoint).congr fun a => ?_
    simp only [Set.mem_union, Set.mem_ofPred_eq, ← or_and_right, Nat.lt_succ_iff_lt_or_eq]

/-! ## Cells of the grid -/

variable {C rt ct : Nat}

theorem cell_div {i j : Nat} (hj : j < C) : (i * C + j) / C = i := by
  rw [Nat.add_comm, Nat.add_mul_div_right _ _ (by omega), Nat.div_eq_of_lt hj, Nat.zero_add]

theorem cell_mod {i j : Nat} (hj : j < C) : (i * C + j) % C = j := by
  rw [Nat.add_comm, Nat.add_mul_mod_self_right, Nat.mod_eq_of_lt hj]

theorem eq_cell_iff {a i j : Nat} (hj : j < C) : a = i * C + j ↔ a / C = i ∧ a % C = j := by
  constructor
  · rintro rfl
    exact ⟨cell_div hj, cell_mod hj⟩
  · rintro ⟨rfl, rfl⟩
    exact (Nat.div_add_mod' a C).symm

/-- The integers of the cells in a grid of C columns. -/
def gridWord (C : Nat) (c : Memory 32) (i j : Nat) : Int := coefInt c (i * C + j)

/-- The words that cell values `W` give each index. -/
def indexWord (C : Nat) (W : Nat → Nat → Int) (a : Nat) : Int := W (a / C) (a % C)

theorem indexWord_cell (W : Nat → Nat → Int) {i j : Nat} (hj : j < C) : indexWord C W (i * C + j) = W i j := by
  rw [indexWord, cell_div hj, cell_mod hj]

end Sys2Proof.Machine

namespace Sys2Proof.Machine

variable {S : Set Nat} {T : Nat → Int} {c c' : Memory 32} {C R rt ct : Nat}
  {f : Memory 32 → Except ErrCode (Memory 32)}

/-! ## The blocks of a level (R150, R158) -/

/-- The words of an `rt` by `ct` corner of the grid (R141). -/
def cornerCells (C rt ct : Nat) : Set Nat := {a | a / C < rt ∧ a % C < ct}

/-- The words of the corner's row pair `ip`. -/
def rowPairCells (C rt ct ip : Nat) : Set Nat := {a | a / C / 2 = ip ∧ a ∈ cornerCells C rt ct}

/-- The words of the block at row pair `ip` and column pair `jp` of the corner. -/
def blockCells (C rt ct ip jp : Nat) : Set Nat := {a | a % C / 2 = jp ∧ a ∈ rowPairCells C rt ct ip}

theorem overBlocks_eq (block pair : Nat → Nat → Memory 32 → Except ErrCode (Memory 32))
    (corner : Nat → Memory 32 → Except ErrCode (Memory 32)) :
    overBlocks C rt ct block pair corner = fun c =>
      loopUp (rt / 2) (fun ip c => loopUp (ct / 2) (fun jp => block (2 * ip) (2 * jp)) c >>= fun c =>
        if ct % 2 = 1 then pair (2 * ip * C + (ct - 1)) ((2 * ip + 1) * C + (ct - 1)) c else .ok c) c >>= fun c =>
      (if rt % 2 = 1 then
        loopUp (ct / 2) (fun jp => pair ((rt - 1) * C + 2 * jp) ((rt - 1) * C + (2 * jp + 1))) c
      else .ok c) >>= fun c =>
      if rt % 2 = 1 ∧ ct % 2 = 1 then corner ((rt - 1) * C + (ct - 1)) c else .ok c := by
  funext c
  by_cases hodd : rt % 2 = 1
  · simp only [overBlocks, hodd, if_pos]
  · simp only [overBlocks, hodd, if_neg, not_false_eq_true]

/-- What rewrites each block of a corner rewrites the corner. -/
theorem rewrites_overBlocks {block pair : Nat → Nat → Memory 32 → Except ErrCode (Memory 32)}
    {corner : Nat → Memory 32 → Except ErrCode (Memory 32)}
    (hblock : ∀ ip jp, ip < rt / 2 → jp < ct / 2 →
      Rewrites (blockCells C rt ct ip jp) T c (block (2 * ip) (2 * jp)))
    (hcol : ∀ ip, ip < rt / 2 → ct % 2 = 1 → Rewrites (blockCells C rt ct ip (ct / 2)) T c
      (pair (2 * ip * C + (ct - 1)) ((2 * ip + 1) * C + (ct - 1))))
    (hrow : ∀ jp, jp < ct / 2 → rt % 2 = 1 → Rewrites (blockCells C rt ct (rt / 2) jp) T c
      (pair ((rt - 1) * C + 2 * jp) ((rt - 1) * C + (2 * jp + 1))))
    (hcorner : rt % 2 = 1 ∧ ct % 2 = 1 → Rewrites (blockCells C rt ct (rt / 2) (ct / 2)) T c
      (corner ((rt - 1) * C + (ct - 1)))) :
    Rewrites (cornerCells C rt ct) T c (overBlocks C rt ct block pair corner) := by
  have hrowPair : ∀ ip, ip < rt / 2 → Rewrites (rowPairCells C rt ct ip) T c fun c =>
      loopUp (ct / 2) (fun jp => block (2 * ip) (2 * jp)) c >>= fun c =>
        if ct % 2 = 1 then pair (2 * ip * C + (ct - 1)) ((2 * ip + 1) * C + (ct - 1)) c else .ok c := by
    intro ip hip
    refine ((rewrites_loopUp fun jp => hblock ip jp hip).seq (.when _ (hcol ip hip)) ?_).congr fun a => ?_
    · exact Set.disjoint_left.2 fun a ⟨hlt, _⟩ ⟨_, heq, _⟩ => hlt.ne heq
    · simp only [blockCells, rowPairCells, cornerCells, Set.mem_union, Set.mem_ofPred_eq]
      omega
  rw [overBlocks_eq]
  refine ((rewrites_loopUp hrowPair).seq ((Rewrites.when _ fun hodd => rewrites_loopUp (hrow · · hodd)).seq
    (.when _ hcorner) ?_) ?_).congr fun a => ?_
  · exact Set.disjoint_left.2 fun a ⟨_, hlt, _⟩ ⟨_, heq, _⟩ => hlt.ne heq
  · refine Set.disjoint_left.2 fun a ⟨hlt, _⟩ h => ?_
    simp only [blockCells, rowPairCells, Set.mem_union, Set.mem_ofPred_eq] at h
    omega
  · simp only [blockCells, rowPairCells, cornerCells, Set.mem_union, Set.mem_ofPred_eq]
    omega

end Sys2Proof.Machine
end

section
/-! Proofs of the family `42_transform.md`: the shuffles of a level, as what each cell holds after them (R142, R143), and
the corners that the levels work on (R141). -/

namespace Sys2Proof.Machine

variable {c : Memory 32} {C R rt ct n m : Nat}

/-! ## Shuffles (R142, R143) -/

theorem permute_wf (src addr : Nat → Nat) (hc : c.wf = true) : (permute n src addr c).wf = true :=
  foldUp_keeps (P := fun c : Memory 32 => c.wf = true) (fun _ _ _ h => Memory.write_wf _ _ h) hc

theorem permute_read_other {src addr : Nat → Nat} {a : Nat} (ha : ∀ q, q < n → a ≠ addr q) :
    (permute n src addr c).read a = c.read a :=
  foldUp_keeps (P := fun c' : Memory 32 => c'.read a = c.read a)
    (fun q _ hq h => by rw [Memory.read_write_other _ (ha q hq), h]) rfl

theorem permute_read_addr {src addr : Nat → Nat} (hc : c.wf = true)
    (haddr : ∀ p q, p < n → q < n → addr p = addr q → p = q) {q : Nat} (hq : q < n) :
    (permute n src addr c).read (addr q) = c.read (addr (src q)) := by
  induction n with
  | zero => omega
  | succ n ih =>
    have hwf := permute_wf (n := n) src addr hc
    change ((permute n src addr c).write (addr n) (c.read (addr (src n)))).read (addr q) = _
    rw [Memory.read_write hwf]
    split_ifs with h
    · rw [haddr q n hq (by omega) h]
    · have hqn : q ≠ n := fun hqn => h (congrArg addr hqn)
      exact ih (fun p q hp hq => haddr p q (by omega) (by omega)) (by omega)

/-- The same permutation in each of `n` lines of `m` words, line p's word q at `addr p q`. -/
theorem foldUp_permute_reads {src : Nat → Nat} {addr : Nat → Nat → Nat} (hc : c.wf = true)
    (haddr : ∀ p q p' q', p < n → q < m → p' < n → q' < m → addr p q = addr p' q' → p = p' ∧ q = q')
    (hsrc : ∀ q, q < m → src q < m) :
    (foldUp n (fun p => permute m src (addr p)) c).wf = true ∧
      (∀ p q, p < n → q < m →
        (foldUp n (fun p => permute m src (addr p)) c).read (addr p q) = c.read (addr p (src q))) ∧
      ∀ a, (∀ p q, p < n → q < m → a ≠ addr p q) →
        (foldUp n (fun p => permute m src (addr p)) c).read a = c.read a := by
  induction n with
  | zero => exact ⟨hc, fun p q hp => by omega, fun a _ => rfl⟩
  | succ n ih =>
    obtain ⟨hwf, hin, hout⟩ := ih fun p q p' q' hp hq hp' hq' => haddr p q p' q' (by omega) hq (by omega) hq'
    refine ⟨permute_wf _ _ hwf, fun p q hp hq => ?_, fun a ha => ?_⟩
    · by_cases hpn : p = n
      · subst hpn
        rw [foldUp, permute_read_addr hwf
          (fun q q' hq hq' h => (haddr p q p q' hp hq hp hq' h).2) hq]
        refine hout _ fun p' q' hp' hq' h => ?_
        have := (haddr p (src q) p' q' hp (hsrc q hq) (by omega) hq' h).1
        omega
      · rw [foldUp, permute_read_other fun q' hq' h => hpn (haddr p q n q' hp hq (by omega) hq' h).1]
        exact hin p q (by omega) hq
    · rw [foldUp, permute_read_other fun q hq => ha n q (by omega) hq]
      exact hout a fun p q hp => ha p q (by omega)

theorem cell_inj {i j i' j' : Nat} (hj : j < C) (hj' : j' < C) (h : i * C + j = i' * C + j') : i = i' ∧ j = j' := by
  have hdiv := congrArg (· / C) h
  have hmod := congrArg (· % C) h
  simp only [cell_div hj, cell_div hj', cell_mod hj, cell_mod hj'] at hdiv hmod
  exact ⟨hdiv, hmod⟩

/-- The permutations of a level's rows and then its columns, in an `rt` by `ct` corner (R150, R158). -/
def permuteCorner (C rt ct : Nat) (srcRow srcCol : Nat → Nat) (c : Memory 32) : Memory 32 :=
  permuteCols C rt ct srcRow (permuteRows C rt ct srcCol c)

/-- What a cell holds after the permutations of a level. -/
theorem permuteCorner_reads {srcRow srcCol : Nat → Nat} (hc : c.wf = true) (hct : ct ≤ C)
    (hrow : ∀ i, i < rt → srcRow i < rt) (hcol : ∀ j, j < ct → srcCol j < ct) :
    (permuteCorner C rt ct srcRow srcCol c).wf = true ∧
      ∀ i j, j < C → (permuteCorner C rt ct srcRow srcCol c).read (i * C + j) =
        if i < rt ∧ j < ct then c.read (srcRow i * C + srcCol j) else c.read (i * C + j) := by
  obtain ⟨hwf, hin, hout⟩ := foldUp_permute_reads (n := rt) (addr := fun i j => i * C + j) hc
    (fun p q p' q' _ hq _ hq' => cell_inj (by omega) (by omega)) hcol
  obtain ⟨hwf', hin', hout'⟩ := foldUp_permute_reads (n := ct) (addr := fun j i => i * C + j) hwf
    (fun p q p' q' hp _ hp' _ h => (cell_inj (by omega) (by omega) h).symm) hrow
  refine ⟨hwf', fun i j hj => ?_⟩
  split_ifs with h
  · exact (hin' j i h.2 h.1).trans (hin _ _ (hrow i h.1) h.2)
  · have hother : ∀ p q, p < ct → q < rt → i * C + j ≠ q * C + p := fun p q hp hq heq => by
      obtain ⟨rfl, rfl⟩ := cell_inj hj (by omega) heq
      exact h ⟨hq, hp⟩
    exact (hout' _ hother).trans (hout _ fun p q hp hq => hother q p hq hp)

theorem shuffleSource_lt (h : m < n) : shuffleSource n m < n := by
  unfold shuffleSource ceilShift
  split_ifs <;> omega

theorem unshuffleSource_lt (h : m < n) : unshuffleSource n m < n := by
  unfold unshuffleSource ceilShift
  split_ifs <;> omega

/-- `Unshuffle` is the inverse of `Shuffle` (R143). -/
theorem shuffleSource_unshuffleSource (h : m < n) : shuffleSource n (unshuffleSource n m) = m := by
  unfold shuffleSource unshuffleSource ceilShift
  split_ifs <;> omega

/-- `Shuffle` brings the even elements to the front, where the next level's corner is (R142). -/
theorem shuffleSource_front (h : m < ceilShift n 1) : shuffleSource n m = 2 * m := if_pos h

theorem ceilShift_succ (n k : Nat) : ceilShift n (k + 1) = ceilShift (ceilShift n k) 1 := by
  have hpow : 2 ^ (k + 1) - 1 = 2 ^ k - 1 + 2 ^ k := by
    have := Nat.two_pow_pos k
    omega
  unfold ceilShift
  rw [hpow, Nat.pow_succ, ← Nat.div_div_eq_div_mul, ← Nat.add_assoc, Nat.add_div_right _ (Nat.two_pow_pos k)]
  rfl

theorem ceilShift_zero (n : Nat) : ceilShift n 0 = n := by simp [ceilShift]

end Sys2Proof.Machine
end

section
/-! Proofs of the family `42_transform.md`: what a level leaves in each cell (R144 to R150, R152 to R158). The leftover
pairs and the corner of a level are full blocks of a grid continued beyond its end, so that one formula gives the words
of every block. -/

namespace Sys2Proof.Machine

variable {S : Set Nat} {T : Nat → Int} {W v : Nat → Nat → Int} {c c' : Memory 32} {C R rt ct k ip jp : Nat}
  {f g : Memory 32 → Except ErrCode (Memory 32)} {F : Nat → Nat → Int × Int × Int × Int}

/-! ## The roundings of a level (R144, R145, R152) -/

theorem pow2_succ (k : Nat) : pow2 (k + 1) = 2 * pow2 k := by
  simp only [pow2, pow_succ, Nat.mul_comm (2 ^ k) 2]
  push_cast
  rfl

theorem pow2_pos (k : Nat) : 0 < pow2 k := Int.natCast_pos.2 (Nat.two_pow_pos k)

theorem roundSum_eq (k : Nat) (v : Int) : roundSum k v = sumRounded (2 * pow2 k) v := by
  simp only [roundSum, rndS, maskLow, pow2_succ, sumRounded]

theorem roundDiff_eq (k : Nat) (v : Int) : roundDiff k v = diffRounded (pow2 k) v := by
  simp only [roundDiff, rndD, maskLow, pow2_succ, diffRounded]

theorem reRoundDiff_eq (k : Nat) (v : Int) : reRoundDiff k v = reRounded (pow2 k) v := by
  simp only [reRoundDiff, rndI, maskLow, pow2_succ, reRounded]

section
variable {b v : Int} (hb : 0 < b)

theorem mask_of_dvd {m r : Int} (h : m ∣ v) (hr : 0 ≤ r) (hrm : r < m) : (v + r) / m * m = v := by
  rw [Int.add_ediv_of_dvd_left h, Int.ediv_eq_zero_of_lt hr hrm, add_zero, Int.ediv_mul_cancel h]

include hb

theorem reRounded_of_dvd (h : 2 * b ∣ v) : reRounded b v = v := by
  unfold reRounded
  split_ifs <;> exact mask_of_dvd h (by omega) (by omega)

theorem sumRounded_of_dvd (h : 2 * b ∣ v) : sumRounded b v = v := by
  unfold sumRounded
  rw [add_sub_assoc]
  split_ifs <;> exact mask_of_dvd h (by omega) (by omega)

theorem diffRounded_of_dvd (h : 2 * b ∣ v) : diffRounded b v = v := by
  unfold diffRounded
  split_ifs
  · exact mask_of_dvd h hb.le (by omega)
  · exact Int.ediv_mul_cancel h

end

/-! ## The stores of a level's blocks -/

/-- The cell values given block by block, each block's four words in raster order. -/
def fromBlocks (F : Nat → Nat → Int × Int × Int × Int) (i j : Nat) : Int :=
  if i % 2 = 0 then if j % 2 = 0 then (F (i / 2) (j / 2)).1 else (F (i / 2) (j / 2)).2.1
  else if j % 2 = 0 then (F (i / 2) (j / 2)).2.2.1 else (F (i / 2) (j / 2)).2.2.2

theorem two_mul_add_one_div (n : Nat) : (2 * n + 1) / 2 = n := by omega

@[simp] theorem fromBlocks_sum : fromBlocks F (2 * ip) (2 * jp) = (F ip jp).1 := by simp [fromBlocks]

@[simp] theorem fromBlocks_right : fromBlocks F (2 * ip) (2 * jp + 1) = (F ip jp).2.1 := by
  simp [fromBlocks, two_mul_add_one_div]

@[simp] theorem fromBlocks_below : fromBlocks F (2 * ip + 1) (2 * jp) = (F ip jp).2.2.1 := by
  simp [fromBlocks, two_mul_add_one_div]

@[simp] theorem fromBlocks_cross : fromBlocks F (2 * ip + 1) (2 * jp + 1) = (F ip jp).2.2.2 := by
  simp [fromBlocks, two_mul_add_one_div]

/-- Storing the four words of the full block at (i, j), in the order of R146 and R154. -/
def storeFour (C i j : Nat) (w : Int × Int × Int × Int) (c : Memory 32) : Except ErrCode (Memory 32) :=
  store ((i + 1) * C + (j + 1)) w.2.2.2 c >>= fun c => store ((i + 1) * C + j) w.2.2.1 c >>= fun c =>
    store (i * C + (j + 1)) w.2.1 c >>= store (i * C + j) w.1

/-- Storing the two words of a leftover pair, in the order of R147 and R155. -/
def storePair (a b : Nat) (x y : Int) (c : Memory 32) : Except ErrCode (Memory 32) := store b y c >>= store a x

theorem Rewrites.of_eq (hf : Rewrites S T c f)
    (hgf : ∀ c₁ : Memory 32, (∀ a ∈ S, c₁.read a = c.read a) → g c₁ = f c₁) : Rewrites S T c g := by
  intro c₁ hc hwords
  rw [hgf c₁ hwords]
  exact hf c₁ hc hwords

theorem rewrites_storeCell {i j : Nat} (hj : j < C) :
    Rewrites {a | a / C = i ∧ a % C = j} (indexWord C W) c (store (i * C + j) (W i j)) := by
  rw [← indexWord_cell W hj]
  exact (rewrites_store (i * C + j)).congr fun a => eq_cell_iff hj

theorem rewrites_storePair {i j i' j' : Nat} (hj : j < C) (hj' : j' < C) (hne : i ≠ i' ∨ j ≠ j') :
    Rewrites {a | a / C = i' ∧ a % C = j' ∨ a / C = i ∧ a % C = j} (indexWord C W) c
      (storePair (i * C + j) (i' * C + j') (W i j) (W i' j')) :=
  (rewrites_storeCell hj').seq (rewrites_storeCell hj) <|
    Set.disjoint_left.2 fun _ ⟨hi, hj⟩ ⟨hi', hj'⟩ => by omega

theorem rewrites_storeFour (hct : ct ≤ C) (hip : ip < rt / 2) (hjp : jp < ct / 2) :
    Rewrites (blockCells C rt ct ip jp) (indexWord C (fromBlocks F)) c (storeFour C (2 * ip) (2 * jp) (F ip jp)) := by
  have hj : 2 * jp < C := by omega
  have hj' : 2 * jp + 1 < C := by omega
  have hfour := (rewrites_storeCell (W := fromBlocks F) (c := c) (i := 2 * ip + 1) hj').seq
    ((rewrites_storeCell (i := 2 * ip + 1) hj).seq
      (rewrites_storePair (i := 2 * ip) (i' := 2 * ip) hj hj' (.inr (by omega))) ?below) ?cross
  case below =>
    refine Set.disjoint_left.2 fun a ⟨hi, hj⟩ h => ?_
    simp only [Set.mem_ofPred_eq] at h
    omega
  case cross =>
    refine Set.disjoint_left.2 fun a ⟨hi, hj⟩ h => ?_
    simp only [Set.mem_union, Set.mem_ofPred_eq] at h
    omega
  simp only [fromBlocks_sum, fromBlocks_right, fromBlocks_below, fromBlocks_cross] at hfour
  refine hfour.congr fun a => ?_
  simp only [blockCells, rowPairCells, cornerCells, Set.mem_union, Set.mem_ofPred_eq]
  omega

theorem rewrites_storeColumnPair (hct : ct ≤ C) (hip : ip < rt / 2) (hodd : ct % 2 = 1) :
    Rewrites (blockCells C rt ct ip (ct / 2)) (indexWord C (fromBlocks F)) c
      (storePair (2 * ip * C + (ct - 1)) ((2 * ip + 1) * C + (ct - 1)) (F ip (ct / 2)).1 (F ip (ct / 2)).2.2.1) := by
  obtain ⟨jp, rfl⟩ : ∃ jp, ct = 2 * jp + 1 := ⟨ct / 2, by omega⟩
  have hj : 2 * jp < C := by omega
  have hpair := rewrites_storePair (W := fromBlocks F) (c := c) (i := 2 * ip) (i' := 2 * ip + 1) hj hj (.inl (by omega))
  rw [fromBlocks_sum, fromBlocks_below] at hpair
  rw [two_mul_add_one_div, Nat.add_sub_cancel]
  refine hpair.congr fun a => ?_
  simp only [blockCells, rowPairCells, cornerCells, Set.mem_ofPred_eq]
  omega

theorem rewrites_storeRowPair (hct : ct ≤ C) (hjp : jp < ct / 2) (hodd : rt % 2 = 1) :
    Rewrites (blockCells C rt ct (rt / 2) jp) (indexWord C (fromBlocks F)) c
      (storePair ((rt - 1) * C + 2 * jp) ((rt - 1) * C + (2 * jp + 1)) (F (rt / 2) jp).1 (F (rt / 2) jp).2.1) := by
  obtain ⟨ip, rfl⟩ : ∃ ip, rt = 2 * ip + 1 := ⟨rt / 2, by omega⟩
  have hj : 2 * jp < C := by omega
  have hj' : 2 * jp + 1 < C := by omega
  have hpair := rewrites_storePair (W := fromBlocks F) (c := c) (i := 2 * ip) (i' := 2 * ip) hj hj' (.inr (by omega))
  rw [fromBlocks_sum, fromBlocks_right] at hpair
  rw [two_mul_add_one_div, Nat.add_sub_cancel]
  refine hpair.congr fun a => ?_
  simp only [blockCells, rowPairCells, cornerCells, Set.mem_ofPred_eq]
  omega

theorem rewrites_storeCorner (hct : ct ≤ C) (hodd : rt % 2 = 1 ∧ ct % 2 = 1) :
    Rewrites (blockCells C rt ct (rt / 2) (ct / 2)) (indexWord C (fromBlocks F)) c
      (store ((rt - 1) * C + (ct - 1)) (F (rt / 2) (ct / 2)).1) := by
  obtain ⟨ip, rfl⟩ : ∃ ip, rt = 2 * ip + 1 := ⟨rt / 2, by omega⟩
  obtain ⟨jp, rfl⟩ : ∃ jp, ct = 2 * jp + 1 := ⟨ct / 2, by omega⟩
  have hcell := rewrites_storeCell (W := fromBlocks F) (c := c) (i := 2 * ip) (show 2 * jp < C by omega)
  rw [fromBlocks_sum] at hcell
  rw [two_mul_add_one_div, two_mul_add_one_div, Nat.add_sub_cancel, Nat.add_sub_cancel]
  refine hcell.congr fun a => ?_
  simp only [blockCells, rowPairCells, cornerCells, Set.mem_ofPred_eq]
  omega

/-- Two memories agree on the block at row pair `ip` and column pair `jp` of a corner. -/
def SameBlock (C rt ct ip jp : Nat) (c c₁ : Memory 32) : Prop :=
  ∀ i j, i / 2 = ip → j / 2 = jp → i < rt → j < ct → coefInt c₁ (i * C + j) = coefInt c (i * C + j)

theorem SameBlock.word {c₁ : Memory 32} (h : SameBlock C rt ct ip jp c c₁) {i j : Nat} (hi : i / 2 = ip)
    (hj : j / 2 = jp) (hrt : i < rt) (hct : j < ct) : coefInt c₁ (i * C + j) = gridWord C c i j :=
  h i j hi hj hrt hct

theorem sameBlock_of_reads {c₁ : Memory 32} (hct : ct ≤ C)
    (h : ∀ a ∈ blockCells C rt ct ip jp, c₁.read a = c.read a) : SameBlock C rt ct ip jp c c₁ := by
  intro i j hi hj hrt hjt
  have hmem : i * C + j ∈ blockCells C rt ct ip jp := by
    have hjC : j < C := by omega
    simp only [blockCells, rowPairCells, cornerCells, Set.mem_ofPred_eq, cell_div hjC, cell_mod hjC]
    exact ⟨hj, hi, hrt, hjt⟩
  rw [coefInt, coefInt, h _ hmem]

/-- A level whose blocks store the words that `F` gives rewrites the corner to them. -/
theorem rewrites_level {block pair : Nat → Nat → Memory 32 → Except ErrCode (Memory 32)}
    {corner : Nat → Memory 32 → Except ErrCode (Memory 32)} (hct : ct ≤ C)
    (hblock : ∀ ip jp c₁, ip < rt / 2 → jp < ct / 2 → SameBlock C rt ct ip jp c c₁ →
      block (2 * ip) (2 * jp) c₁ = storeFour C (2 * ip) (2 * jp) (F ip jp) c₁)
    (hcol : ∀ ip c₁, ip < rt / 2 → ct % 2 = 1 → SameBlock C rt ct ip (ct / 2) c c₁ →
      pair (2 * ip * C + (ct - 1)) ((2 * ip + 1) * C + (ct - 1)) c₁ =
        storePair (2 * ip * C + (ct - 1)) ((2 * ip + 1) * C + (ct - 1)) (F ip (ct / 2)).1 (F ip (ct / 2)).2.2.1 c₁)
    (hrow : ∀ jp c₁, jp < ct / 2 → rt % 2 = 1 → SameBlock C rt ct (rt / 2) jp c c₁ →
      pair ((rt - 1) * C + 2 * jp) ((rt - 1) * C + (2 * jp + 1)) c₁ =
        storePair ((rt - 1) * C + 2 * jp) ((rt - 1) * C + (2 * jp + 1)) (F (rt / 2) jp).1 (F (rt / 2) jp).2.1 c₁)
    (hcorner : ∀ c₁, rt % 2 = 1 → ct % 2 = 1 → SameBlock C rt ct (rt / 2) (ct / 2) c c₁ →
      corner ((rt - 1) * C + (ct - 1)) c₁ = store ((rt - 1) * C + (ct - 1)) (F (rt / 2) (ct / 2)).1 c₁) :
    Rewrites (cornerCells C rt ct) (indexWord C (fromBlocks F)) c (overBlocks C rt ct block pair corner) :=
  rewrites_overBlocks
    (fun ip jp hip hjp => (rewrites_storeFour hct hip hjp).of_eq fun c₁ h =>
      hblock ip jp c₁ hip hjp (sameBlock_of_reads hct h))
    (fun ip hip hodd => (rewrites_storeColumnPair hct hip hodd).of_eq fun c₁ h =>
      hcol ip c₁ hip hodd (sameBlock_of_reads hct h))
    (fun jp hjp hodd => (rewrites_storeRowPair hct hjp hodd).of_eq fun c₁ h =>
      hrow jp c₁ hjp hodd (sameBlock_of_reads hct h))
    (fun hodd => (rewrites_storeCorner hct hodd).of_eq fun c₁ h =>
      hcorner c₁ hodd.1 hodd.2 (sameBlock_of_reads hct h))

end Sys2Proof.Machine

namespace Sys2Proof.Machine

variable {W v : Nat → Nat → Int} {c c' c₁ : Memory 32} {C R rt ct k ip jp : Nat}

/-! ## The words of a level (R146 to R149, R154 to R157)

A leftover pair or corner stores what a full block would: in the forward transform one in which the corner's last row
and column stand for those that are not there, in the inverse one in which the words that are not there are 0. -/

/-- Values of an `rt` by `ct` corner, with its last row and column repeated outside it. -/
def mirrored (rt ct : Nat) (v : Nat → Nat → Int) (i j : Nat) : Int := v (min i (rt - 1)) (min j (ct - 1))

/-- Values of an `rt` by `ct` corner, with 0 outside it. -/
def within (rt ct : Nat) (v : Nat → Nat → Int) (i j : Nat) : Int := if i < rt ∧ j < ct then v i j else 0

/-- The four words of a full block from its words A, B, C and D, with bit0 = b and division by q (R146), in raster
order. -/
def forwardFour (b q A B C D : Int) : Int × Int × Int × Int :=
  (sumRounded (2 * b) ((D + C + B + A) / q), diffRounded b ((D - C + B - A) / q),
    diffRounded b ((D + C - B - A) / q), (D - C - B + A) / q)

/-- The words that forward level k gives each block of the values `v`. -/
def forwardBlocks (k : Nat) (v : Nat → Nat → Int) (ip jp : Nat) : Int × Int × Int × Int :=
  forwardFour (pow2 k) (pow2 (forwardShift k)) (v (2 * ip) (2 * jp)) (v (2 * ip) (2 * jp + 1))
    (v (2 * ip + 1) (2 * jp)) (v (2 * ip + 1) (2 * jp + 1))

/-- The words that inverse level k gives each block of the values `v`. -/
def inverseBlocks (k : Nat) (v : Nat → Nat → Int) (ip jp : Nat) : Int × Int × Int × Int :=
  inverseFour (pow2 k) (pow2 (inverseShift k)) (v (2 * ip) (2 * jp)) (v (2 * ip + 1) (2 * jp))
    (v (2 * ip) (2 * jp + 1)) (reRoundCross k (v (2 * ip + 1) (2 * jp + 1)))

theorem mirrored_of_lt {i j : Nat} (hi : i < rt) (hj : j < ct) : mirrored rt ct v i j = v i j := by
  rw [mirrored, min_eq_left (by omega), min_eq_left (by omega)]

theorem within_of_lt {i j : Nat} (hi : i < rt) (hj : j < ct) : within rt ct v i j = v i j := if_pos ⟨hi, hj⟩

theorem within_of_not_lt {i j : Nat} (h : ¬ (i < rt ∧ j < ct)) : within rt ct v i j = 0 := if_neg h

/-- A pair's sum and difference count twice in its full block (R147, R148). -/
theorem twice_div_forwardShift (k : Nat) (x : Int) : x * pow2 (1 - forwardShift k) = 2 * x / pow2 (forwardShift k) := by
  unfold forwardShift
  split_ifs <;> simp [pow2, Int.mul_comm]

/-- The corner's word counts four times in its full block (R149). -/
theorem fourfold_div_forwardShift (k : Nat) (x : Int) :
    x * pow2 (2 - forwardShift k) = 4 * x / pow2 (forwardShift k) := by
  unfold forwardShift
  split_ifs
  · simp [pow2, Int.mul_comm]
  · simp [pow2]
    omega

theorem forwardBlock_eq (C k i j : Nat) (c : Memory 32) : forwardBlock C k i j c =
    storeFour C i j (forwardFour (pow2 k) (pow2 (forwardShift k)) (coefInt c (i * C + j)) (coefInt c (i * C + (j + 1)))
      (coefInt c ((i + 1) * C + j)) (coefInt c ((i + 1) * C + (j + 1)))) c := by
  simp only [forwardBlock, roundSum_eq, roundDiff_eq]
  rfl

theorem forwardPair_eq (k a b : Nat) (c : Memory 32) : forwardPair k a b c =
    storePair a b (sumRounded (2 * pow2 k) (2 * (coefInt c b + coefInt c a) / pow2 (forwardShift k)))
      (diffRounded (pow2 k) (2 * (coefInt c b - coefInt c a) / pow2 (forwardShift k))) c := by
  simp only [forwardPair, roundSum_eq, roundDiff_eq, twice_div_forwardShift]
  rfl

theorem forwardCorner_eq (k a : Nat) (c : Memory 32) : forwardCorner k a c =
    store a (sumRounded (2 * pow2 k) (4 * coefInt c a / pow2 (forwardShift k))) c := by
  rw [forwardCorner, roundSum_eq, fourfold_div_forwardShift]

theorem mirrored_row_end (v : Nat → Nat → Int) {i : Nat} (h : rt = i + 1) (j : Nat) :
    mirrored rt ct v (i + 1) j = mirrored rt ct v i j := by
  simp [mirrored, h]

theorem mirrored_col_end (v : Nat → Nat → Int) {j : Nat} (h : ct = j + 1) (i : Nat) :
    mirrored rt ct v i (j + 1) = mirrored rt ct v i j := by
  simp [mirrored, h]

theorem rewrites_forwardBlocks (hct : ct ≤ C) : Rewrites (cornerCells C rt ct)
    (indexWord C (fromBlocks (forwardBlocks k (mirrored rt ct (gridWord C c))))) c
    (overBlocks C rt ct (forwardBlock C k) (forwardPair k) (forwardCorner k)) := by
  refine rewrites_level hct (fun ip jp c₁ hip hjp h => ?full) (fun ip c₁ hip hodd h => ?columnPair)
    (fun jp c₁ hjp hodd h => ?rowPair) (fun c₁ hodd hodd' h => ?corner)
  case full => simp (disch := omega) only [forwardBlock_eq, h.word, forwardBlocks, mirrored_of_lt]
  case columnPair =>
    have hlast : ct - 1 = 2 * (ct / 2) := by omega
    simp (disch := omega) only [forwardPair_eq, hlast, h.word, forwardBlocks, forwardFour, mirrored_col_end,
      mirrored_of_lt]
    ring_nf
  case rowPair =>
    have hlast : rt - 1 = 2 * (rt / 2) := by omega
    simp (disch := omega) only [forwardPair_eq, hlast, h.word, forwardBlocks, forwardFour, mirrored_row_end,
      mirrored_of_lt]
    ring_nf
  case corner =>
    have hlast : rt - 1 = 2 * (rt / 2) := by omega
    have hlast' : ct - 1 = 2 * (ct / 2) := by omega
    simp (disch := omega) only [forwardCorner_eq, hlast, hlast', h.word, forwardBlocks, forwardFour, mirrored_row_end,
      mirrored_col_end, mirrored_of_lt]
    ring_nf

theorem asr_eq (a : Int) (s : Nat) : asr a s = a / pow2 s := rfl

theorem xorMask_eq (x y z : Int) (s : Nat) :
    xorMask x y z s = (x / pow2 s + y / pow2 s + z / pow2 s) % 2 * pow2 s := by
  unfold xorMask bitOf
  congr 1
  omega

theorem inverseBlock_eq (C k i j : Nat) (c : Memory 32) : inverseBlock C k i j c =
    storeFour C i j (inverseFour (pow2 k) (pow2 (inverseShift k)) (coefInt c (i * C + j))
      (coefInt c ((i + 1) * C + j)) (coefInt c (i * C + (j + 1)))
      (reRoundCross k (coefInt c ((i + 1) * C + (j + 1))))) c := by
  simp only [inverseBlock, inverseFour, bitMask, bitOf, xorMask_eq, reRoundDiff_eq, pow2_succ]
  rfl

theorem inversePair_eq (k a b : Nat) (c : Memory 32) : inversePair k a b c =
    storePair a b (inverseTwo (pow2 k) (pow2 (inverseShift k)) (coefInt c a) (coefInt c b)).1
      (inverseTwo (pow2 k) (pow2 (inverseShift k)) (coefInt c a) (coefInt c b)).2 c := by
  simp only [inversePair, inverseTwo, bitMask, bitOf, reRoundDiff_eq, pow2_succ]
  rfl

section
variable {b : Int} (hb : 0 < b) (q h d : Int)
include hb

theorem inverseFour_columnPair : (inverseFour b q h d 0 0).1 = (inverseTwo b q h d).1 ∧
    (inverseFour b q h d 0 0).2.2.1 = (inverseTwo b q h d).2 := by
  simp [inverseFour, inverseTwo, reRounded_of_dvd hb (dvd_zero _)]

theorem inverseFour_rowPair : (inverseFour b q h 0 d 0).1 = (inverseTwo b q h d).1 ∧
    (inverseFour b q h 0 d 0).2.1 = (inverseTwo b q h d).2 := by
  simp [inverseFour, inverseTwo, reRounded_of_dvd hb (dvd_zero _)]

theorem inverseTwo_corner : (inverseTwo b q h 0).1 = h / q := by
  simp [inverseTwo, reRounded_of_dvd hb (dvd_zero _)]

theorem inverseFour_corner : (inverseFour b q h 0 0 0).1 = h / q := by
  simp [inverseFour, reRounded_of_dvd hb (dvd_zero _)]

end

@[simp] theorem reRoundCross_level_zero (v : Int) : reRoundCross 0 v = v := by
  simp [reRoundCross, rndI, maskLow, pow2]

theorem reRoundCross_level_succ (k : Nat) (v : Int) : reRoundCross (k + 1) v = reRounded (pow2 k) v := by
  simp [reRoundCross, rndI, maskLow, pow2_succ, reRounded]

theorem reRoundCross_zero (k : Nat) : reRoundCross k 0 = 0 := by
  cases k with
  | zero => simp
  | succ k => rw [reRoundCross_level_succ, reRounded_of_dvd (pow2_pos k) (dvd_zero _)]

theorem rewrites_inverseBlocks (hct : ct ≤ C) : Rewrites (cornerCells C rt ct)
    (indexWord C (fromBlocks (inverseBlocks k (within rt ct (gridWord C c))))) c
    (overBlocks C rt ct (inverseBlock C k) (inversePair k) (inverseCorner k)) := by
  have hb := pow2_pos k
  refine rewrites_level hct (fun ip jp c₁ hip hjp h => ?full) (fun ip c₁ hip hodd h => ?columnPair)
    (fun jp c₁ hjp hodd h => ?rowPair) (fun c₁ hodd hodd' h => ?corner)
  case full => simp (disch := omega) only [inverseBlock_eq, h.word, inverseBlocks, within_of_lt]
  case columnPair =>
    have hlast : ct - 1 = 2 * (ct / 2) := by omega
    simp (disch := omega) only [inversePair_eq, hlast, h.word, inverseBlocks, within_of_not_lt, within_of_lt,
      reRoundCross_zero, inverseFour_columnPair hb]
  case rowPair =>
    have hlast : rt - 1 = 2 * (rt / 2) := by omega
    simp (disch := omega) only [inversePair_eq, hlast, h.word, inverseBlocks, within_of_not_lt, within_of_lt,
      reRoundCross_zero, inverseFour_rowPair hb]
  case corner =>
    have hlast : rt - 1 = 2 * (rt / 2) := by omega
    have hlast' : ct - 1 = 2 * (ct / 2) := by omega
    simp (disch := omega) only [inverseCorner, asr_eq, hlast, hlast', h.word, inverseBlocks, within_of_not_lt,
      within_of_lt, reRoundCross_zero, inverseFour_corner hb]

end Sys2Proof.Machine

namespace Sys2Proof.Machine

variable {c c' c₁ : Memory 32} {C R k i j : Nat}

/-! ## The words after a level (R150, R158) -/

theorem mem_cornerCells {rt ct : Nat} (hj : j < C) : i * C + j ∈ cornerCells C rt ct ↔ i < rt ∧ j < ct := by
  simp only [cornerCells, Set.mem_ofPred_eq, cell_div hj, cell_mod hj]

/-- What the blocks of forward level k store in cell (i, j) of its corner. -/
def forwardValue (R C k : Nat) (c : Memory 32) : Nat → Nat → Int :=
  fromBlocks (forwardBlocks k (mirrored (ceilShift R k) (ceilShift C k) (gridWord C c)))

/-- What the blocks of inverse level k store in cell (i, j) of its corner, after the unshuffles. -/
def inverseValue (R C k : Nat) (c : Memory 32) : Nat → Nat → Int :=
  fromBlocks (inverseBlocks k (within (ceilShift R k) (ceilShift C k) fun i j =>
    gridWord C c (unshuffleSource (ceilShift R k) i) (unshuffleSource (ceilShift C k) j)))

/-- `c'` is `c` with the words of level k's corner replaced by `W`, in canonical form. -/
structure LevelStep (R C k : Nat) (W : Nat → Nat → Int) (c c' : Memory 32) : Prop where
  wf : c'.wf = true
  inside : ∀ {i j}, i < ceilShift R k → j < ceilShift C k → gridWord C c' i j = W i j
  outside : ∀ {i j}, j < C → ¬ (i < ceilShift R k ∧ j < ceilShift C k) → c'.read (i * C + j) = c.read (i * C + j)

theorem LevelStep.word_outside {W : Nat → Nat → Int} (h : LevelStep R C k W c c') (hj : j < C)
    (hout : ¬ (i < ceilShift R k ∧ j < ceilShift C k)) : gridWord C c' i j = gridWord C c i j := by
  rw [gridWord, coefInt, h.outside hj hout, gridWord, coefInt]

/-- What forward level k leaves: the words of its blocks, shuffled. -/
def ForwardStep (R C k : Nat) (c : Memory 32) : Memory 32 → Prop :=
  LevelStep R C k (fun i j =>
    forwardValue R C k c (shuffleSource (ceilShift R k) i) (shuffleSource (ceilShift C k) j)) c

/-- The values fit 32 bits in every cell of level k's corner. -/
def CornerFits (R C k : Nat) (W : Nat → Nat → Int) : Prop :=
  ∀ i j, i < ceilShift R k → j < ceilShift C k → Fits (W i j)

theorem forwardLevel_eq (R C k : Nat) (c : Memory 32) : forwardLevel R C k c =
    overBlocks C (ceilShift R k) (ceilShift C k) (forwardBlock C k) (forwardPair k) (forwardCorner k) c >>= fun c =>
      .ok (permuteCorner C (ceilShift R k) (ceilShift C k) (shuffleSource (ceilShift R k))
        (shuffleSource (ceilShift C k)) c) :=
  rfl

theorem forwardStep_of_replaces (hfits : CornerFits R C k (forwardValue R C k c))
    (h : Replaces (cornerCells C (ceilShift R k) (ceilShift C k)) (indexWord C (forwardValue R C k c)) c c₁) :
    ForwardStep R C k c (permuteCorner C (ceilShift R k) (ceilShift C k) (shuffleSource (ceilShift R k))
      (shuffleSource (ceilShift C k)) c₁) := by
  have hct := ceilShift_le C k
  obtain ⟨hwf, hread⟩ := permuteCorner_reads h.wf hct (fun i => shuffleSource_lt (n := ceilShift R k))
    fun j => shuffleSource_lt (n := ceilShift C k)
  refine ⟨hwf, fun {i j} hi hj => ?_, fun {i j} hj hout => ?_⟩
  · have hi' := shuffleSource_lt hi
    have hj' := shuffleSource_lt hj
    have hword := h.coefInt_inside ((mem_cornerCells (hj'.trans_le hct)).2 ⟨hi', hj'⟩)
    rw [indexWord_cell _ (hj'.trans_le hct)] at hword
    rw [gridWord, coefInt, hread i j (hj.trans_le hct), if_pos ⟨hi, hj⟩]
    exact hword (hfits _ _ hi' hj')
  · rw [hread i j hj, if_neg hout, h.outside _ (mt (mem_cornerCells hj).1 hout)]

theorem cornerFits_of_index {W : Nat → Nat → Int}
    (h : ∀ a ∈ cornerCells C (ceilShift R k) (ceilShift C k), Fits (indexWord C W a)) : CornerFits R C k W := by
  intro i j hi hj
  have hj' := hj.trans_le (ceilShift_le C k)
  rw [← indexWord_cell W hj']
  exact h _ ((mem_cornerCells hj').2 ⟨hi, hj⟩)

theorem forwardLevel_ok (hc : c.wf = true) (h : forwardLevel R C k c = .ok c') :
    CornerFits R C k (forwardValue R C k c) ∧ ForwardStep R C k c c' := by
  rw [forwardLevel_eq] at h
  obtain ⟨c₁, h₁, h⟩ := bind_ok.1 h
  cases h
  have hputs := (rewrites_forwardBlocks (k := k) (rt := ceilShift R k) (ceilShift_le C k)).puts hc
  rw [h₁] at hputs
  have hfits := cornerFits_of_index hputs.of_ok.1
  exact ⟨hfits, forwardStep_of_replaces hfits hputs.of_ok.2⟩

theorem forwardLevel_completes (hc : c.wf = true) (hfits : CornerFits R C k (forwardValue R C k c)) :
    ∃ c', forwardLevel R C k c = .ok c' ∧ ForwardStep R C k c c' := by
  obtain ⟨c₁, h₁, hreplaces⟩ :=
    ((rewrites_forwardBlocks (k := k) (rt := ceilShift R k) (ceilShift_le C k)).puts hc).completes
      fun a ha => hfits _ _ ha.1 ha.2
  rw [forwardLevel_eq, h₁, ok_bind]
  exact ⟨_, rfl, forwardStep_of_replaces hfits hreplaces⟩

/-- The blocks of inverse level k rewrite its corner, in what the unshuffles made of `c`. -/
theorem inverseLevel_puts (R C k : Nat) (hc : c.wf = true) : ∃ c₀ : Memory 32,
    (∀ i j, j < C → ¬ (i < ceilShift R k ∧ j < ceilShift C k) → c₀.read (i * C + j) = c.read (i * C + j)) ∧
      Puts (cornerCells C (ceilShift R k) (ceilShift C k)) (indexWord C (inverseValue R C k c)) c₀
        (inverseLevel R C k c) := by
  have hct := ceilShift_le C k
  obtain ⟨hwf, hread⟩ := permuteCorner_reads hc hct (fun i => unshuffleSource_lt (n := ceilShift R k))
    fun j => unshuffleSource_lt (n := ceilShift C k)
  generalize hc₀ : permuteCorner C (ceilShift R k) (ceilShift C k) (unshuffleSource (ceilShift R k))
    (unshuffleSource (ceilShift C k)) c = c₀ at hwf hread
  have hwithin : within (ceilShift R k) (ceilShift C k) (gridWord C c₀) =
      within (ceilShift R k) (ceilShift C k) fun i j =>
        gridWord C c (unshuffleSource (ceilShift R k) i) (unshuffleSource (ceilShift C k) j) := by
    funext i j
    by_cases h : i < ceilShift R k ∧ j < ceilShift C k
    · rw [within_of_lt h.1 h.2, within_of_lt h.1 h.2, gridWord, coefInt, hread i j (h.2.trans_le hct), if_pos h]
      rfl
    · rw [within_of_not_lt h, within_of_not_lt h]
  have hputs := (rewrites_inverseBlocks (k := k) (rt := ceilShift R k) hct).puts hwf
  rw [hwithin, ← hc₀] at hputs
  exact ⟨c₀, fun i j hj hout => by rw [hread i j hj, if_neg hout], hc₀ ▸ hputs⟩

theorem levelStep_of_replaces {W : Nat → Nat → Int} {c₀ : Memory 32} (hfits : CornerFits R C k W)
    (houtside : ∀ i j, j < C → ¬ (i < ceilShift R k ∧ j < ceilShift C k) →
      c₀.read (i * C + j) = c.read (i * C + j))
    (h : Replaces (cornerCells C (ceilShift R k) (ceilShift C k)) (indexWord C W) c₀ c') : LevelStep R C k W c c' := by
  refine ⟨h.wf, fun {i j} hi hj => ?_, fun {i j} hj hout => ?_⟩
  · have hj' := hj.trans_le (ceilShift_le C k)
    have hword := h.coefInt_inside ((mem_cornerCells hj').2 ⟨hi, hj⟩)
    rw [indexWord_cell _ hj'] at hword
    exact hword (hfits _ _ hi hj)
  · rw [h.outside _ (mt (mem_cornerCells hj).1 hout), houtside i j hj hout]

theorem inverseLevel_ok (hc : c.wf = true) (h : inverseLevel R C k c = .ok c') :
    LevelStep R C k (inverseValue R C k c) c c' := by
  obtain ⟨c₀, houtside, hputs⟩ := inverseLevel_puts R C k hc
  rw [h] at hputs
  exact levelStep_of_replaces (cornerFits_of_index hputs.of_ok.1) houtside hputs.of_ok.2

theorem inverseLevel_completes (hc : c.wf = true) (hfits : CornerFits R C k (inverseValue R C k c)) :
    ∃ c', inverseLevel R C k c = .ok c' ∧ LevelStep R C k (inverseValue R C k c) c c' := by
  obtain ⟨c₀, -, hputs⟩ := inverseLevel_puts R C k hc
  obtain ⟨c', hc', -⟩ := hputs.completes fun a ha => hfits _ _ ha.1 ha.2
  exact ⟨c', hc', inverseLevel_ok hc hc'⟩

end Sys2Proof.Machine
end

section
/-! Proofs of the family `42_transform.md`: an inverse level restores what a forward level made (R165). In units of bit0
the sums and differences of a block are exact integers of one parity; the rounding drops their low bits, and the inverse
finds these again in the difference that is not rounded. -/

namespace Sys2Proof.Machine

variable {c c' : Memory 32} {C R L k i j rt ct : Nat} {b q : Int}

/-! ## Roundings in units of bit0 -/

theorem nonneg_mul_iff (hb : 0 < b) (n : Int) : 0 ≤ b * n ↔ 0 ≤ n := mul_nonneg_iff_of_pos_left hb

/-- The mask of a level, in units: what is below one unit is lost with the rest. -/
theorem mask_unit {r : Int} (hr : 0 ≤ r) (hrb : r < b) (n m : Int) :
    (b * n + r) / (m * b) * (m * b) = b * (n / m * m) := by
  have hb : 0 < b := by omega
  rw [mul_comm m b, ← Int.ediv_ediv_of_nonneg hb.le, Int.mul_add_ediv_left _ _ hb.ne', Int.ediv_eq_zero_of_lt hr hrb,
    add_zero]
  ring

theorem sumRounded_unit (hb : 0 < b) (n : Int) : sumRounded (2 * b) (b * n) = b * sumRounded 2 n := by
  simp only [sumRounded, nonneg_mul_iff hb, ← mul_assoc 2 2 b]
  split_ifs
  · rw [show b * n + 2 * b = b * (n + 2) + 0 by ring, mask_unit le_rfl hb]
  · rw [show b * n + 2 * b - 1 = b * (n + 2 - 1) + (b - 1) by ring, mask_unit (by omega) (by omega)]

theorem diffRounded_unit (hb : 0 < b) (n : Int) : diffRounded b (b * n) = b * diffRounded 1 n := by
  simp only [diffRounded, nonneg_mul_iff hb, mul_one]
  split_ifs
  · rw [show b * n + b = b * (n + 1) + 0 by ring, mask_unit le_rfl hb]
  · rw [← mask_unit le_rfl hb, add_zero]

theorem reRounded_unit (hb : 0 < b) (n : Int) : reRounded b (b * n) = b * reRounded 1 n := by
  simp only [reRounded, nonneg_mul_iff hb, mul_one]
  split_ifs
  · rw [show b * n + b = b * (n + 1) + 0 by ring, mask_unit le_rfl hb]
  · rw [mask_unit (by omega) (by omega), sub_self, add_zero]

/-- The inverse block is one of exact integers, in units. -/
theorem inverseFour_unit (hb : 0 < b) (q h x y c : Int) : inverseFour b q (b * h) (b * x) (b * y) (b * c) =
    (b * (inverseFour 1 1 h x y c).1 / q, b * (inverseFour 1 1 h x y c).2.1 / q,
      b * (inverseFour 1 1 h x y c).2.2.1 / q, b * (inverseFour 1 1 h x y c).2.2.2 / q) := by
  have hhalf : ∀ n : Int, b * n / (2 * b) = n / 2 := fun n => by
    rw [mul_comm 2 b, Int.mul_ediv_mul_of_pos _ _ hb]
  have hlow : b * c / b % 2 * b = b * (c % 2) := by
    rw [Int.mul_ediv_cancel_left _ hb.ne', mul_comm]
  have hbit : ∀ n : Int, n % 2 * (2 * b) = b * (n % 2 * 2) := fun n => by ring
  have hzero : b * (c % 2) = 0 ↔ c % 2 = 0 := by simp [hb.ne']
  simp only [inverseFour, reRounded_unit hb, hlow, nonneg_mul_iff hb, hzero, ← mul_sub, ← mul_add, ← mul_ite, hhalf,
    hbit, mul_one, Int.ediv_one]

/-- A rounded difference, its low bit l dropped, and found again (R146, R154). -/
theorem restore_diff {x l : Int} (hl : l = x % 2) :
    (if 0 ≤ reRounded 1 (diffRounded 1 x) then reRounded 1 (diffRounded 1 x) - l
      else reRounded 1 (diffRounded 1 x) + l) = x := by
  simp only [reRounded, diffRounded]
  split_ifs <;> omega

/-- A rounded sum, its two low bits l and m dropped, and found again (R146, R154). -/
theorem restore_sum {h l m : Int} (hl : l = h % 2) (hm : l + m = h % 4) :
    (if 0 ≤ sumRounded 2 h then sumRounded 2 h + l - m else sumRounded 2 h + if l = 0 then m else l - m) = h := by
  simp only [sumRounded]
  split_ifs <;> omega

theorem inverseFour_forwardFour_unit (a₀ a₁ a₂ a₃ : Int) :
    inverseFour 1 1 (forwardFour 1 1 a₀ a₁ a₂ a₃).1 (forwardFour 1 1 a₀ a₁ a₂ a₃).2.2.1
      (forwardFour 1 1 a₀ a₁ a₂ a₃).2.1 (forwardFour 1 1 a₀ a₁ a₂ a₃).2.2.2 = (4 * a₀, 4 * a₁, 4 * a₂, 4 * a₃) := by
  have hx := restore_diff (x := a₃ + a₂ - a₁ - a₀) (l := (a₃ - a₂ - a₁ + a₀) % 2) (by omega)
  have hy := restore_diff (x := a₃ - a₂ + a₁ - a₀) (l := (a₃ - a₂ - a₁ + a₀) % 2) (by omega)
  have hh := restore_sum (h := a₃ + a₂ + a₁ + a₀) (l := (a₃ - a₂ - a₁ + a₀) % 2)
    (m := ((a₃ - a₂ - a₁ + a₀) / 2 + (a₃ + a₂ - a₁ - a₀) / 2 + (a₃ - a₂ + a₁ - a₀) / 2) % 2 * 2)
    (by omega) (by omega)
  simp only [inverseFour, forwardFour, mul_one, Int.ediv_one, hx, hy, hh]
  refine Prod.ext ?_ (Prod.ext ?_ (Prod.ext ?_ ?_)) <;> dsimp only <;> ring

theorem forwardFour_unit (hb : 0 < b) (hq : 0 < q) (a₀ a₁ a₂ a₃ : Int) :
    forwardFour b q (q * b * a₀) (q * b * a₁) (q * b * a₂) (q * b * a₃) =
      (b * (forwardFour 1 1 a₀ a₁ a₂ a₃).1, b * (forwardFour 1 1 a₀ a₁ a₂ a₃).2.1,
        b * (forwardFour 1 1 a₀ a₁ a₂ a₃).2.2.1, b * (forwardFour 1 1 a₀ a₁ a₂ a₃).2.2.2) := by
  simp only [forwardFour, mul_assoc q b, ← mul_add, ← mul_sub, Int.mul_ediv_cancel_left _ hq.ne', sumRounded_unit hb,
    diffRounded_unit hb, mul_one, Int.ediv_one]

/-- The inverse block restores what the forward block made, when its words are multiples of the level's unit: q is
the divisor of the forward level and q' that of the inverse one. -/
theorem inverseFour_forwardFour {q' u A B C D : Int} (hb : 0 < b) (hq : q * q' = 4) (hq' : 0 < q') (hu : u = q * b)
    (hA : u ∣ A) (hB : u ∣ B) (hC : u ∣ C) (hD : u ∣ D) :
    inverseFour b q' (forwardFour b q A B C D).1 (forwardFour b q A B C D).2.2.1 (forwardFour b q A B C D).2.1
      (forwardFour b q A B C D).2.2.2 = (A, B, C, D) := by
  obtain ⟨a₀, rfl⟩ := hA
  obtain ⟨a₁, rfl⟩ := hB
  obtain ⟨a₂, rfl⟩ := hC
  obtain ⟨a₃, rfl⟩ := hD
  have hq₀ : 0 < q := by nlinarith
  have hword : ∀ a : Int, b * (4 * a) / q' = q * b * a := fun a => by
    rw [← hq, show b * (q * q' * a) = q' * (q * b * a) by ring, Int.mul_ediv_cancel_left _ hq'.ne']
  simp only [hu, forwardFour_unit hb hq₀, inverseFour_unit hb, inverseFour_forwardFour_unit, hword]

/-! ## Levels -/

/-- What the words of level k's corner are multiples of before the level: 1 at level 0, and then the mask of the sums
of the level before. -/
def levelUnit (k : Nat) : Int := pow2 (forwardShift k) * pow2 k

theorem levelUnit_succ (k : Nat) : levelUnit (k + 1) = 2 * pow2 (k + 1) := by simp [levelUnit, forwardShift, pow2]

theorem shifts_mul (k : Nat) : pow2 (forwardShift k) * pow2 (inverseShift k) = 4 := by
  unfold forwardShift inverseShift
  split_ifs <;> rfl

/-- The words of level k's corner are multiples of its unit. -/
def CornerUnits (R C k : Nat) (c : Memory 32) : Prop :=
  ∀ i j, i < ceilShift R k → j < ceilShift C k → levelUnit k ∣ gridWord C c i j

theorem cornerUnits_zero (R C : Nat) (c : Memory 32) : CornerUnits R C 0 c := fun _ _ _ _ => one_dvd _

theorem ceilShift_pos (h : 0 < R) (k : Nat) : 0 < ceilShift R k := by
  have hpow := Nat.two_pow_pos k
  exact Nat.div_pos (by omega) hpow

theorem sumRounded_dvd (p v : Int) : 2 * p ∣ sumRounded p v := Dvd.intro_left _ rfl

/-- The sums of level k are multiples of the next level's unit (R144, R145). -/
theorem cornerUnits_succ (h : ForwardStep R C k c c') : CornerUnits R C (k + 1) c' := by
  intro i j hi hj
  rw [ceilShift_succ] at hi hj
  rw [h.inside (hi.trans_le (ceilShift_le _ 1)) (hj.trans_le (ceilShift_le _ 1)), shuffleSource_front hi,
    shuffleSource_front hj, forwardValue, fromBlocks_sum, levelUnit_succ, pow2_succ]
  exact sumRounded_dvd _ _

theorem reRoundCross_of_dvd {v : Int} (h : pow2 k ∣ v) : reRoundCross k v = v := by
  cases k with
  | zero => simp
  | succ k => rw [reRoundCross_level_succ, reRounded_of_dvd (pow2_pos k) (pow2_succ k ▸ h)]

/-- The difference that is not rounded is a multiple of bit0. -/
theorem forwardFour_cross_dvd {A B C D : Int} (hq : 0 < q) (hA : q * b ∣ A) (hB : q * b ∣ B) (hC : q * b ∣ C)
    (hD : q * b ∣ D) : b ∣ (forwardFour b q A B C D).2.2.2 := by
  obtain ⟨n, hn⟩ := dvd_add (dvd_sub (dvd_sub hD hC) hB) hA
  simp only [forwardFour, hn, mul_assoc, Int.mul_ediv_cancel_left _ hq.ne', dvd_mul_right]

/-- What a block of forward level k would store outside the corner is 0. -/
theorem within_forwardBlocks {v : Nat → Nat → Int} (hi : 2 * (i / 2) < rt) (hj : 2 * (j / 2) < ct) :
    within rt ct (fromBlocks (forwardBlocks k (mirrored rt ct v))) i j =
      fromBlocks (forwardBlocks k (mirrored rt ct v)) i j := by
  by_cases hin : i < rt ∧ j < ct
  · exact within_of_lt hin.1 hin.2
  · have hzero := diffRounded_of_dvd (pow2_pos k) (dvd_zero _)
    have hmissing : i % 2 = 1 ∧ rt = 2 * (i / 2) + 1 ∨ j % 2 = 1 ∧ ct = 2 * (j / 2) + 1 := by omega
    rw [within_of_not_lt hin]
    rcases hmissing with ⟨hodd, hend⟩ | ⟨hodd, hend⟩
    · simp [fromBlocks, hodd, forwardBlocks, forwardFour, mirrored_row_end v hend, hzero]
    · simp [fromBlocks, hodd, forwardBlocks, forwardFour, mirrored_col_end v hend, hzero]

theorem inverseBlocks_within_forward {v : Nat → Nat → Int} {ip jp : Nat} (hi : 2 * ip < rt) (hj : 2 * jp < ct) :
    inverseBlocks k (within rt ct (fromBlocks (forwardBlocks k (mirrored rt ct v)))) ip jp =
      inverseBlocks k (fromBlocks (forwardBlocks k (mirrored rt ct v))) ip jp := by
  rw [inverseBlocks, within_forwardBlocks (by omega) (by omega), within_forwardBlocks (by omega) (by omega),
    within_forwardBlocks (by omega) (by omega), within_forwardBlocks (by omega) (by omega), inverseBlocks]

/-- The inverse blocks of level k restore what its forward blocks made. -/
theorem inverseBlocks_forwardBlocks {v : Nat → Nat → Int} (hv : ∀ i j, levelUnit k ∣ v i j) (ip jp : Nat) :
    inverseBlocks k (fromBlocks (forwardBlocks k v)) ip jp =
      (v (2 * ip) (2 * jp), v (2 * ip) (2 * jp + 1), v (2 * ip + 1) (2 * jp), v (2 * ip + 1) (2 * jp + 1)) := by
  have hcross := reRoundCross_of_dvd <| forwardFour_cross_dvd (pow2_pos (forwardShift k)) (hv (2 * ip) (2 * jp))
    (hv (2 * ip) (2 * jp + 1)) (hv (2 * ip + 1) (2 * jp)) (hv (2 * ip + 1) (2 * jp + 1))
  rw [inverseBlocks, fromBlocks_sum, fromBlocks_right, fromBlocks_below, fromBlocks_cross, forwardBlocks, hcross]
  exact inverseFour_forwardFour (pow2_pos k) (shifts_mul k) (pow2_pos _) rfl (hv _ _) (hv _ _) (hv _ _) (hv _ _)

theorem fromBlocks_of_words {F : Nat → Nat → Int × Int × Int × Int} {v : Nat → Nat → Int}
    (h : F (i / 2) (j / 2) = (v (2 * (i / 2)) (2 * (j / 2)), v (2 * (i / 2)) (2 * (j / 2) + 1),
      v (2 * (i / 2) + 1) (2 * (j / 2)), v (2 * (i / 2) + 1) (2 * (j / 2) + 1))) : fromBlocks F i j = v i j := by
  rw [fromBlocks, h]
  split_ifs with hi hj hj <;> dsimp only <;> congr 1 <;> omega

/-- What the blocks of inverse level k store after forward level k: the words from before it. -/
theorem inverseValue_of_forwardStep (hunits : CornerUnits R C k c) (h : ForwardStep R C k c c')
    (hi : i < ceilShift R k) (hj : j < ceilShift C k) : inverseValue R C k c' i j = gridWord C c i j := by
  have hwithin : within (ceilShift R k) (ceilShift C k) (fun i j =>
      gridWord C c' (unshuffleSource (ceilShift R k) i) (unshuffleSource (ceilShift C k) j)) =
      within (ceilShift R k) (ceilShift C k) (forwardValue R C k c) := by
    funext i j
    by_cases hij : i < ceilShift R k ∧ j < ceilShift C k
    · rw [within_of_lt hij.1 hij.2, within_of_lt hij.1 hij.2, h.inside (unshuffleSource_lt hij.1)
        (unshuffleSource_lt hij.2), shuffleSource_unshuffleSource hij.1, shuffleSource_unshuffleSource hij.2]
    · rw [within_of_not_lt hij, within_of_not_lt hij]
  have hmirrored : ∀ i j, levelUnit k ∣ mirrored (ceilShift R k) (ceilShift C k) (gridWord C c) i j := fun _ _ =>
    hunits _ _ (by omega) (by omega)
  rw [inverseValue, hwithin, ← mirrored_of_lt (v := gridWord C c) hi hj]
  refine fromBlocks_of_words ?_
  rw [forwardValue, inverseBlocks_within_forward (by omega) (by omega), inverseBlocks_forwardBlocks hmirrored]

/-- A level that gives every word of its corner the value it has in `c₁`, and starts from the others', answers `c₁`. -/
theorem LevelStep.eq_of_words {W : Nat → Nat → Int} {c₁ : Memory 32} (h : LevelStep R C k W c c') (hC : 0 < C)
    (hc₁ : c₁.wf = true)
    (hinside : ∀ i j, i < ceilShift R k → j < ceilShift C k → W i j = gridWord C c₁ i j)
    (houtside : ∀ i j, j < C → ¬ (i < ceilShift R k ∧ j < ceilShift C k) →
      c.read (i * C + j) = c₁.read (i * C + j)) : c' = c₁ := by
  refine Memory.ext h.wf hc₁ fun a => ?_
  have hcol := Nat.mod_lt a hC
  have hcell : a = a / C * C + a % C := (eq_cell_iff hcol).2 ⟨rfl, rfl⟩
  by_cases hin : a / C < ceilShift R k ∧ a % C < ceilShift C k
  · have hword := (h.inside hin.1 hin.2).trans (hinside _ _ hin.1 hin.2)
    rw [gridWord, gridWord, ← hcell] at hword
    exact BitVec.eq_of_toInt_eq hword
  · rw [hcell, h.outside hcol hin, houtside _ _ hcol hin]

/-- Inverse level k undoes forward level k. -/
theorem inverseLevel_of_forwardStep (hC : 0 < C) (hc : c.wf = true) (hunits : CornerUnits R C k c)
    (h : ForwardStep R C k c c') : inverseLevel R C k c' = .ok c := by
  have hvalue := fun i j => inverseValue_of_forwardStep (i := i) (j := j) hunits h
  obtain ⟨c'', hc'', hstep⟩ := inverseLevel_completes (R := R) (C := C) (k := k) h.wf
    fun i j hi hj => hvalue i j hi hj ▸ coefInt_fits _ _
  rw [hc'', hstep.eq_of_words hC hc hvalue fun _ _ => h.outside]

/-! ## The whole transform -/

/-- Forward levels, then the inverse levels from the last back to the first. -/
theorem loopDown_inverseLevel_of_loopUp_forwardLevel (hC : 0 < C) (hc : c.wf = true)
    (h : loopUp L (forwardLevel R C) c = .ok c') :
    c'.wf = true ∧ CornerUnits R C L c' ∧ loopDown L (inverseLevel R C) c' = .ok c := by
  induction L generalizing c' with
  | zero =>
    cases h
    exact ⟨hc, cornerUnits_zero R C c, rfl⟩
  | succ L ih =>
    obtain ⟨c₁, hup, hlevel⟩ := bind_ok.1 h
    obtain ⟨hwf, hunits, hdown⟩ := ih hup
    obtain ⟨-, hstep⟩ := forwardLevel_ok hwf hlevel
    refine ⟨hstep.wf, cornerUnits_succ hstep, ?_⟩
    rw [loopDown, inverseLevel_of_forwardStep hC hwf hunits hstep, ok_bind, hdown]

theorem Memory.write_read {w : Nat} {m : Memory w} (hm : m.wf = true) (a : Nat) : m.write a (m.read a) = m := by
  refine Memory.ext (Memory.write_wf _ _ hm) hm fun b => ?_
  rw [Memory.read_write hm]
  split_ifs with h
  · rw [h]
  · rfl

theorem store_coefInt (hc : c.wf = true) (a : Nat) : store a (coefInt c a) c = .ok c := by
  obtain ⟨hlo, hhi⟩ := coefInt_fits c a
  rw [store_ok.2 ⟨hlo, hhi, rfl⟩, ofInt_coefInt, Memory.write_read hc]

theorem preRound_eq (L : Nat) (c : Memory 32) : preRound L c = store 0 (reRounded (pow2 L) (coefInt c 0)) c := by
  rw [preRound, ← reRoundDiff_eq, reRoundDiff]

/-- The first word is a sum of the last level (R164). -/
theorem cornerUnits_first (hR : 0 < R) (hC : 0 < C) (h : CornerUnits R C (L + 1) c) :
    2 * pow2 (L + 1) ∣ coefInt c 0 := by
  have hfirst := h 0 0 (ceilShift_pos hR _) (ceilShift_pos hC _)
  rwa [gridWord, Nat.zero_mul, levelUnit_succ] at hfirst

/-- The inverse transform undoes the forward transform (R165). -/
theorem inverseTransform_of_forwardTransform (hR : 0 < R) (hC : 0 < C) (hc : c.wf = true)
    (h : forwardTransform R C c = .ok c') : inverseTransform R C c' = .ok c := by
  obtain ⟨hwf, hunits, hdown⟩ := loopDown_inverseLevel_of_loopUp_forwardLevel hC hc h
  unfold inverseTransform
  cases hL : levelCount R C with
  | zero =>
    rw [hL] at hdown
    exact hdown
  | succ L =>
    rw [hL] at hunits hdown
    have hround := reRounded_of_dvd (pow2_pos (L + 1)) (cornerUnits_first hR hC hunits)
    simp only [if_neg (Nat.succ_ne_zero L), preRound_eq, hround, store_coefInt hwf, ok_bind, hdown]

/-! ## How the commands of this family complete -/

/-- What a command that works on COEF only has done when it ends with no error. -/
theorem onGrid_answer {op : BitVec 8} {touches : Touches} {f : State → Memory 32 → Except ErrCode (Memory 32)}
    {s t : State} (hs : s.err = .none) (hgrid : gridFits s)
    (hf : ∀ c, WritesCoef (gridRows s * gridCols s) c (f (accept op s) c))
    (h : submit op touches gridCheck (onGrid f) s = .next t) (ht : t.err = .none) :
    ∃ c, f (accept op s) s.coef = .ok c ∧ t = finished op { s with coef := c } := by
  cases hx : f (accept op s) s.coef with
  | ok c =>
    rw [submit_onGrid hs hgrid hx] at h
    cases h
    exact ⟨c, rfl, rfl⟩
  | error e =>
    have hbody : onGrid f (accept op s) = .error e := by rw [onGrid, accept_coef, hx]; rfl
    rw [submit_raises hs (gridCheck_none.2 hgrid) hbody] at h
    cases h
    have hlate := (yields_iff.1 (hf s.coef)).2 e hx
    simp [hlate.ne_early.1] at ht

theorem exec_htrans_ok {s t : State} (hs : s.err = .none) (hgrid : gridFits s) (h : exec .htrans s = .next t)
    (ht : t.err = .none) : ∃ c, forwardTransform (gridRows s) (gridCols s) s.coef = .ok c ∧
      t = finished 0x30 { s with coef := c } :=
  onGrid_answer hs hgrid (fun _ => forwardTransform_writesCoef _ _) h ht

theorem exec_htrans {s : State} {c : Memory 32} (hs : s.err = .none) (hgrid : gridFits s)
    (h : forwardTransform (gridRows s) (gridCols s) s.coef = .ok c) :
    exec .htrans s = .next (finished 0x30 { s with coef := c }) :=
  submit_onGrid hs hgrid h

theorem exec_hinv {s : State} {c : Memory 32} (hs : s.err = .none) (hgrid : gridFits s)
    (h : inverseTransform (gridRows s) (gridCols s) s.coef = .ok c) :
    exec .hinv s = .next (finished 0x31 { s with coef := c }) :=
  submit_onGrid hs hgrid h

theorem exec_digitize {s : State} {c : Memory 32} (hs : s.err = .none) (hgrid : gridFits s)
    (h : digitizeGrid s.scale.toNat (gridRows s * gridCols s) s.coef = .ok c) :
    exec .digitize s = .next (finished 0x32 { s with coef := c }) :=
  submit_onGrid hs hgrid h

theorem exec_undigitize {s : State} {c : Memory 32} (hs : s.err = .none) (hgrid : gridFits s)
    (h : undigitizeGrid s.scale.toNat (gridRows s * gridCols s) s.coef = .ok c) :
    exec .undigitize s = .next (finished 0x33 { s with coef := c }) :=
  submit_onGrid hs hgrid h

/-- Settles O33: each inverse level restores what its forward level made, from the last level to the first; DIGITIZE
and UNDIGITIZE answer COEF as it is when SCALE ≤ 1. -/
theorem hinvRestoresWhatHtransMade : Obligations.HinvRestoresWhatHtransMade := by
  refine ⟨fun s t hs hgrid hwf hexec ht => ?_, fun s hs hgrid hscale =>
    ⟨exec_digitize hs hgrid (if_pos hscale), exec_undigitize hs hgrid (if_pos hscale)⟩⟩
  obtain ⟨c, hforward, rfl⟩ := exec_htrans_ok hs hgrid hexec ht
  exact exec_hinv ht hgrid (inverseTransform_of_forwardTransform (Nat.pos_of_ne_zero hgrid.1)
    (Nat.pos_of_ne_zero hgrid.2.1) hwf hforward)

/-- Settles O36: the last forward level leaves the first word a multiple of the mask of its sums. -/
theorem sumWordIsAMultiple : Obligations.SumWordIsAMultiple := by
  intro s t hs hgrid hwf hexec ht hlevels
  obtain ⟨c, hforward, rfl⟩ := exec_htrans_ok hs hgrid hexec ht
  have hC := Nat.pos_of_ne_zero hgrid.2.1
  obtain ⟨-, hunits, -⟩ := loopDown_inverseLevel_of_loopUp_forwardLevel hC hwf hforward
  obtain ⟨L, hL⟩ := Nat.exists_eq_add_of_le' hlevels
  rw [hL] at hunits ⊢
  have hfirst := cornerUnits_first (Nat.pos_of_ne_zero hgrid.1) hC hunits
  rwa [← pow2_succ, pow2, Nat.cast_pow] at hfirst

end Sys2Proof.Machine
end

section
/-! Proofs of the family `42_transform.md`: grids that the transform leaves as they are (R151, R159), and the bounds
within which every level completes (R9, R166). -/

namespace Sys2Proof.Machine

variable {c c' : Memory 32} {C R L k i j rt ct : Nat} {b q M : Int}

/-! ## Grids that stay as they are (R151, R159) -/

theorem fromBlocks_eq_zero {F : Nat → Nat → Int × Int × Int × Int} (h : F (i / 2) (j / 2) = (0, 0, 0, 0)) :
    fromBlocks F i j = 0 := by
  simp [fromBlocks, h]

theorem loopUp_fixed {σ : Type} {n : Nat} {f : Nat → σ → Except ErrCode σ} {x : σ} (h : ∀ i, f i x = .ok x) :
    loopUp n f x = .ok x := by
  induction n with
  | zero => rfl
  | succ n ih => rw [loopUp, ih, ok_bind, h]

theorem loopDown_fixed {σ : Type} {n : Nat} {f : Nat → σ → Except ErrCode σ} {x : σ} (h : ∀ i, f i x = .ok x) :
    loopDown n f x = .ok x := by
  induction n with
  | zero => rfl
  | succ n ih => rw [loopDown, h, ok_bind, ih]

section
variable (hC : 0 < C) (hc : c.wf = true) (hzero : ∀ i j, i < R → j < C → gridWord C c i j = 0)
include hC hc hzero

theorem forwardLevel_of_zero (k : Nat) : forwardLevel R C k c = .ok c := by
  have hrt := ceilShift_le R k
  have hct := ceilShift_le C k
  have hb := pow2_pos k
  have hvalue : ∀ i j, i < ceilShift R k → j < ceilShift C k → forwardValue R C k c i j = 0 := fun i j hi hj => by
    have hwords : ∀ i j, mirrored (ceilShift R k) (ceilShift C k) (gridWord C c) i j = 0 := fun i j =>
      hzero _ _ (by omega) (by omega)
    refine fromBlocks_eq_zero ?_
    simp [forwardBlocks, hwords, forwardFour, diffRounded_of_dvd hb (dvd_zero _),
      sumRounded_of_dvd (show 0 < 2 * pow2 k by omega) (dvd_zero _)]
  obtain ⟨c', hc', hstep⟩ := forwardLevel_completes (R := R) (C := C) (k := k) hc
    fun i j hi hj => by simp [hvalue i j hi hj, Fits]
  rw [hc', hstep.eq_of_words hC hc (fun i j hi hj => ?_) fun _ _ _ _ => rfl]
  rw [hvalue _ _ (shuffleSource_lt hi) (shuffleSource_lt hj), hzero i j (by omega) (by omega)]

theorem inverseLevel_of_zero (k : Nat) : inverseLevel R C k c = .ok c := by
  have hrt := ceilShift_le R k
  have hct := ceilShift_le C k
  have hvalue : ∀ i j, inverseValue R C k c i j = 0 := fun i j => by
    have hwords : ∀ i j, within (ceilShift R k) (ceilShift C k) (fun i j => gridWord C c
        (unshuffleSource (ceilShift R k) i) (unshuffleSource (ceilShift C k) j)) i j = 0 := fun i j => by
      unfold within
      split_ifs with h
      · exact hzero _ _ ((unshuffleSource_lt h.1).trans_le hrt) ((unshuffleSource_lt h.2).trans_le hct)
      · rfl
    refine fromBlocks_eq_zero ?_
    simp [inverseBlocks, hwords, reRoundCross_zero, inverseFour, reRounded_of_dvd (pow2_pos k) (dvd_zero _)]
  obtain ⟨c', hc', hstep⟩ := inverseLevel_completes (R := R) (C := C) (k := k) hc
    fun i j _ _ => by simp [hvalue i j, Fits]
  rw [hc', hstep.eq_of_words hC hc (fun i j hi hj => ?_) fun _ _ _ _ => rfl]
  rw [hvalue, hzero i j (by omega) (by omega)]

theorem inverseTransform_of_zero (hR : 0 < R) : inverseTransform R C c = .ok c := by
  have hfirst : coefInt c 0 = 0 := by simpa [gridWord] using hzero 0 0 hR hC
  have hround : reRounded (pow2 (levelCount R C)) (coefInt c 0) = coefInt c 0 := by
    rw [hfirst, reRounded_of_dvd (pow2_pos _) (dvd_zero _)]
  unfold inverseTransform
  dsimp only
  split_ifs
  · rfl
  · rw [preRound_eq, hround, store_coefInt hc, ok_bind, loopDown_fixed (inverseLevel_of_zero hC hc hzero)]

end

/-- Settles O34: every block of zeros stores zeros, so every level answers the grid it is given. -/
theorem zeroGridStaysZero : Obligations.ZeroGridStaysZero := by
  intro s hs hgrid hwf hread
  have hC := Nat.pos_of_ne_zero hgrid.2.1
  have hzero : ∀ i j, i < gridRows s → j < gridCols s → gridWord (gridCols s) s.coef i j = 0 := fun i j hi hj => by
    rw [gridWord, coefInt, hread _ (cell_lt hi hj)]
    rfl
  exact ⟨exec_htrans hs hgrid (loopUp_fixed (forwardLevel_of_zero hC hwf hzero)),
    exec_hinv hs hgrid (inverseTransform_of_zero hC hwf hzero (Nat.pos_of_ne_zero hgrid.1))⟩

/-- Settles O35: a 1×1 grid has no levels. -/
theorem oneByOneGridIsUnchanged : Obligations.OneByOneGridIsUnchanged := by
  intro s hs hrows hcols hroom
  have hR : gridRows s = 1 := by rw [gridRows, hrows]; rfl
  have hC : gridCols s = 1 := by rw [gridCols, hcols]; rfl
  have hgrid : gridFits s := by simpa [gridFits, hR, hC] using hroom
  refine ⟨exec_htrans hs hgrid ?_, exec_hinv hs hgrid ?_⟩ <;> rw [hR, hC] <;> rfl

/-! ## Bounds on the words of a level (R166) -/

theorem mask_bounds (hb : 0 < b) (v : Int) : v - b < v / b * b ∧ v / b * b ≤ v := by
  have hlt := Int.lt_ediv_add_one_mul_self v hb
  rw [Int.add_mul, Int.one_mul] at hlt
  exact ⟨by omega, Int.ediv_mul_le v hb.ne'⟩

theorem sumRounded_bounds (hb : 0 < b) (v : Int) : v - b ≤ sumRounded b v ∧ sumRounded b v ≤ v + b := by
  have hup := mask_bounds (show 0 < 2 * b by omega) (v + b)
  have hdown := mask_bounds (show 0 < 2 * b by omega) (v + b - 1)
  unfold sumRounded
  split_ifs <;> omega

theorem diffRounded_bounds (hb : 0 < b) (v : Int) : v - 2 * b ≤ diffRounded b v ∧ diffRounded b v ≤ v + 2 * b := by
  have hup := mask_bounds (show 0 < 2 * b by omega) (v + b)
  have hdown := mask_bounds (show 0 < 2 * b by omega) v
  unfold diffRounded
  split_ifs <;> omega

theorem reRounded_bounds (hb : 0 < b) (v : Int) : v - b ≤ reRounded b v ∧ reRounded b v ≤ v + b := by
  have hup := mask_bounds (show 0 < 2 * b by omega) (v + b)
  have hdown := mask_bounds (show 0 < 2 * b by omega) (v + (b - 1))
  unfold reRounded
  split_ifs <;> omega

/-- The word is within the bound. -/
def Within (M v : Int) : Prop := -M ≤ v ∧ v ≤ M

theorem ediv_within {N x : Int} (hq : 0 < q) (h : Within (q * N) x) : Within N (x / q) := by
  obtain ⟨hlo, hhi⟩ := h
  constructor
  · rw [Int.le_ediv_iff_mul_le hq]
    linarith
  · rw [← Int.lt_add_one_iff, Int.ediv_lt_iff_lt_mul hq]
    linarith

theorem fromBlocks_of_all {P : Int → Prop} {F : Nat → Nat → Int × Int × Int × Int}
    (h : ∀ ip jp, P (F ip jp).1 ∧ P (F ip jp).2.1 ∧ P (F ip jp).2.2.1 ∧ P (F ip jp).2.2.2) (i j : Nat) :
    P (fromBlocks F i j) := by
  obtain ⟨hsum, hright, hbelow, hcross⟩ := h (i / 2) (j / 2)
  unfold fromBlocks
  split_ifs <;> assumption

/-- How much a forward block can grow its words, where 4M = qN: to N, and the rounding on top. -/
theorem forwardFour_within {N A B C D : Int} (hb : 0 < b) (hq : 0 < q) (hN : q * N = 4 * M) (hA : Within M A)
    (hB : Within M B) (hC : Within M C) (hD : Within M D) :
    Within (N + 2 * b) (forwardFour b q A B C D).1 ∧ Within (N + 2 * b) (forwardFour b q A B C D).2.1 ∧
      Within (N + 2 * b) (forwardFour b q A B C D).2.2.1 ∧ Within (N + 2 * b) (forwardFour b q A B C D).2.2.2 := by
  unfold Within at hA hB hC hD
  have hdiv : ∀ x, Within (4 * M) x → Within N (x / q) := fun x hx => ediv_within hq (hN ▸ hx)
  have hsum := hdiv (D + C + B + A) (by constructor <;> omega)
  have hright := hdiv (D - C + B - A) (by constructor <;> omega)
  have hbelow := hdiv (D + C - B - A) (by constructor <;> omega)
  have hcross := hdiv (D - C - B + A) (by constructor <;> omega)
  have hsum' := sumRounded_bounds (show 0 < 2 * b by omega) ((D + C + B + A) / q)
  have hright' := diffRounded_bounds hb ((D - C + B - A) / q)
  have hbelow' := diffRounded_bounds hb ((D + C - B - A) / q)
  unfold Within at *
  dsimp only [forwardFour]
  omega

/-- The bound of R166 on the words of level k's corner, when M bounds the samples. -/
def forwardBound (M : Int) (k : Nat) : Int := M * levelUnit k + k * pow2 k

theorem forwardBound_zero (M : Int) : forwardBound M 0 = M := by simp [forwardBound, levelUnit, forwardShift, pow2]

theorem forwardBound_succ (M : Int) (k : Nat) :
    forwardBound M (k + 1) = 4 * M * pow2 k + 2 * k * pow2 k + 2 * pow2 k := by
  rw [forwardBound, levelUnit_succ, pow2_succ]
  push_cast
  ring

theorem forwardShift_mul_bound (M : Int) (k : Nat) :
    pow2 (forwardShift k) * (4 * M * pow2 k + 2 * k * pow2 k) = 4 * forwardBound M k := by
  have hq : pow2 (forwardShift k) * k = 2 * k := by
    unfold forwardShift
    split_ifs with h
    · simp [h]
    · rfl
  rw [forwardBound, levelUnit]
  linear_combination 2 * pow2 k * hq

theorem forwardBound_mono (hM : 0 ≤ M) : Monotone (forwardBound M) := by
  refine monotone_nat_of_le_succ fun k => ?_
  have hp := pow2_pos k
  have hq : pow2 (forwardShift k) ≤ 2 := by unfold forwardShift; split_ifs <;> decide
  have hMp : 0 ≤ M * pow2 k := mul_nonneg hM hp.le
  have hkp : 0 ≤ k * pow2 k := mul_nonneg (Int.natCast_nonneg k) hp.le
  rw [forwardBound_succ, forwardBound, levelUnit]
  nlinarith

/-- A level stays within the bound of the next one. -/
theorem forwardValue_within (hwords : ∀ i j, i < ceilShift R k → j < ceilShift C k →
    Within (forwardBound M k) (gridWord C c i j)) (hi : i < ceilShift R k) (hj : j < ceilShift C k) :
    Within (forwardBound M (k + 1)) (forwardValue R C k c i j) := by
  have hmirrored : ∀ i j, Within (forwardBound M k) (mirrored (ceilShift R k) (ceilShift C k) (gridWord C c) i j) :=
    fun _ _ => hwords _ _ (by omega) (by omega)
  rw [forwardBound_succ]
  exact fromBlocks_of_all (fun _ _ => forwardFour_within (pow2_pos k) (pow2_pos _) (forwardShift_mul_bound M k)
    (hmirrored _ _) (hmirrored _ _) (hmirrored _ _) (hmirrored _ _)) i j

/-- The forward transform completes on samples within the bound of R166. -/
theorem forwardTransform_completes (hM : 0 ≤ M) (hbound : forwardBound M (levelCount R C) ≤ 2147483647)
    (hc : c.wf = true) (hsamples : ∀ i j, i < R → j < C → Within M (gridWord C c i j)) :
    ∃ c', forwardTransform R C c = .ok c' := by
  have hlevel : ∀ k (c : Memory 32), k < levelCount R C →
      (c.wf = true ∧ ∀ i j, i < ceilShift R k → j < ceilShift C k → Within (forwardBound M k) (gridWord C c i j)) →
      ∃ c', forwardLevel R C k c = .ok c' ∧ c'.wf = true ∧
        ∀ i j, i < ceilShift R (k + 1) → j < ceilShift C (k + 1) →
          Within (forwardBound M (k + 1)) (gridWord C c' i j) := by
    rintro k c hk ⟨hc, hwords⟩
    have hmono := (forwardBound_mono hM (show k + 1 ≤ levelCount R C from hk)).trans hbound
    obtain ⟨c', hc', hstep⟩ := forwardLevel_completes hc fun i j hi hj => by
      obtain ⟨hlo, hhi⟩ := forwardValue_within hwords hi hj
      exact ⟨by omega, by omega⟩
    refine ⟨c', hc', hstep.wf, fun i j hi hj => ?_⟩
    rw [ceilShift_succ] at hi hj
    have hi := hi.trans_le (ceilShift_le _ 1)
    have hj := hj.trans_le (ceilShift_le _ 1)
    rw [hstep.inside hi hj]
    exact forwardValue_within hwords (shuffleSource_lt hi) (shuffleSource_lt hj)
  have hstart : ∀ i j, i < ceilShift R 0 → j < ceilShift C 0 → Within (forwardBound M 0) (gridWord C c i j) := by
    rw [ceilShift_zero, ceilShift_zero, forwardBound_zero]
    exact hsamples
  obtain ⟨c', hc', -⟩ := loopUp_completes (x := c) ⟨hc, hstart⟩ hlevel
  exact ⟨c', hc'⟩

theorem pow2_eq (n : Nat) : pow2 n = 2 ^ n := by simp [pow2]

/-- The forward transform of a grid whose samples meet R166: M is the largest integer within the bound. -/
theorem forwardTransform_completes_of_samples (hR : 0 < R) (hC : 0 < C) (hc : c.wf = true)
    (hsamples : ∀ a, a < R * C → ((coefInt c a).natAbs : Int) * 2 ^ (levelCount R C + 1) +
      levelCount R C * 2 ^ levelCount R C ≤ 2147483647) : ∃ c', forwardTransform R C c = .ok c' := by
  cases hL : levelCount R C with
  | zero => exact ⟨c, by rw [forwardTransform, hL]; rfl⟩
  | succ L =>
    rw [hL] at hsamples
    have hpow : (0 : Int) < 2 ^ (L + 1 + 1) := by positivity
    have hM : ∀ a, a < R * C → ((coefInt c a).natAbs : Int) ≤
        (2147483647 - (L + 1 : Nat) * 2 ^ (L + 1)) / 2 ^ (L + 1 + 1) := fun a ha =>
      (Int.le_ediv_iff_mul_le hpow).2 (by linarith [hsamples a ha])
    generalize hdef : (2147483647 - ((L + 1 : Nat) : Int) * 2 ^ (L + 1)) / 2 ^ (L + 1 + 1) = M at hM
    have hbound : M * 2 ^ (L + 1 + 1) ≤ 2147483647 - (L + 1 : Nat) * 2 ^ (L + 1) := hdef ▸ Int.ediv_mul_le _ hpow.ne'
    refine forwardTransform_completes (M := M) ?_ ?_ hc fun i j hi hj => ?_
    · have := hM 0 (Nat.mul_pos hR hC)
      omega
    · rw [hL, forwardBound, levelUnit_succ, ← pow2_succ, pow2_eq, pow2_eq]
      linarith
    · have := hM _ (cell_lt hi hj)
      unfold Within gridWord
      omega

/-- Settles O30: the bound of R166 holds of M, and every level stays within it. -/
theorem htransCompletesWithinBound : Obligations.HtransCompletesWithinBound := by
  intro s hs hgrid hwf hsamples
  obtain ⟨c, hc⟩ := forwardTransform_completes_of_samples (Nat.pos_of_ne_zero hgrid.1)
    (Nat.pos_of_ne_zero hgrid.2.1) hwf hsamples
  exact ⟨c, hc, exec_htrans hs hgrid hc⟩

/-! ## Bounds on the words of an inverse level -/

/-- A rounded difference with its low bit l found again stays near what it was. -/
theorem restoredDiff_bounds {x l : Int} (hb : 0 < b) (hl : l = 0 ∨ l = b) (h : Within M x) :
    Within (M + 2 * b) (if 0 ≤ reRounded b x then reRounded b x - l else reRounded b x + l) := by
  have hround := reRounded_bounds hb x
  unfold Within at *
  split_ifs <;> omega

theorem bit_mul_cases (n b : Int) : n % 2 * b = 0 ∨ n % 2 * b = b := by
  rcases Int.emod_two_eq_zero_or_one n with h | h <;> simp [h]

theorem fits_ediv {x : Int} (hq : 2 ≤ q) (h : Within 4294967294 x) : Fits (x / q) := by
  obtain ⟨hlo, hhi⟩ := ediv_within (q := q) (N := 2147483647) (x := x) (by omega)
    ⟨by linarith [h.1], by linarith [h.2]⟩
  exact ⟨by omega, hhi⟩

/-- The inverse block of a sum of 32 bits and differences within M stores words of 32 bits. -/
theorem inverseFour_fits {h x y z : Int} (hb : 0 < b) (hq : 2 ≤ q) (hM : 3 * M + 7 * b ≤ 2147483646) (hh : Fits h)
    (hx : Within M x) (hy : Within M y) (hz : Within (M + b) z) :
    Fits (inverseFour b q h x y z).1 ∧ Fits (inverseFour b q h x y z).2.1 ∧
      Fits (inverseFour b q h x y z).2.2.1 ∧ Fits (inverseFour b q h x y z).2.2.2 := by
  have hl := bit_mul_cases (z / b) b
  have hx' := restoredDiff_bounds hb hl hx
  have hy' := restoredDiff_bounds hb hl hy
  unfold inverseFour
  dsimp only
  generalize (if 0 ≤ reRounded b x then _ else _ : Int) = x' at *
  generalize (if 0 ≤ reRounded b y then _ else _ : Int) = y' at *
  have hm := bit_mul_cases (z / (2 * b) + x' / (2 * b) + y' / (2 * b)) (2 * b)
  generalize z / b % 2 * b = l at *
  generalize (z / (2 * b) + x' / (2 * b) + y' / (2 * b)) % 2 * (2 * b) = m at *
  have hsum : Within (2 * b) ((if 0 ≤ h then h + l - m else h + if l = 0 then m else l - m) - h) := by
    unfold Within
    split_ifs <;> omega
  generalize (if 0 ≤ h then h + l - m else h + if l = 0 then m else l - m) = h' at *
  unfold Fits at hh
  unfold Within at hx' hy' hz hsum
  refine ⟨?_, ?_, ?_, ?_⟩ <;> exact fits_ediv hq (by constructor <;> omega)

theorem clog2From_le {fuel n m : Nat} (hn : n ≤ 2 ^ m) (hL : L ≤ m) : clog2From fuel L n ≤ m := by
  induction fuel generalizing L with
  | zero => exact hL
  | succ fuel ih =>
    unfold clog2From
    split_ifs with h
    · exact hL
    · have hne : L ≠ m := fun heq => h (heq ▸ hn)
      exact ih (by omega)

/-- DIM has 16 bits for each dimension, so there are at most 16 levels (R27, R140). -/
theorem levelCount_le (s : State) : levelCount (gridRows s) (gridCols s) ≤ 16 := by
  have hrows := s.rows.isLt
  have hcols := s.cols.isLt
  have hmax : max (gridRows s) (gridCols s) ≤ 2 ^ 16 := by unfold gridRows gridCols; omega
  exact clog2From_le hmax (Nat.zero_le 16)

theorem reRoundCross_within {v : Int} (h : Within M v) (k : Nat) : Within (M + pow2 k) (reRoundCross k v) := by
  unfold Within at *
  cases k with
  | zero =>
    have hp := pow2_pos 0
    rw [reRoundCross_level_zero]
    omega
  | succ k =>
    have hp := pow2_pos k
    have hround := reRounded_bounds hp v
    rw [reRoundCross_level_succ, pow2_succ]
    omega

/-- Outside level k's corner every word of the grid is within M. -/
def DifferencesWithin (M : Int) (R C k : Nat) (c : Memory 32) : Prop :=
  ∀ i j, i < R → j < C → ¬ (i < ceilShift R k ∧ j < ceilShift C k) → Within M (gridWord C c i j)

/-- The words that an inverse level reads beside the sums are outside the next corner. -/
theorem unshuffled_within {v : Nat → Nat → Int} (hM : 0 ≤ M)
    (h : ∀ i j, i < rt → j < ct → ¬ (i < ceilShift rt 1 ∧ j < ceilShift ct 1) → Within M (v i j))
    (hodd : i % 2 = 1 ∨ j % 2 = 1) :
    Within M (within rt ct (fun i j => v (unshuffleSource rt i) (unshuffleSource ct j)) i j) := by
  unfold within
  split_ifs with hin
  · refine h _ _ (unshuffleSource_lt hin.1) (unshuffleSource_lt hin.2) fun hfront => ?_
    unfold unshuffleSource at hfront
    split_ifs at hfront <;> omega
  · exact ⟨by omega, hM⟩

theorem inverseValue_fits (hM : 0 ≤ M) (hk : 3 * M + 7 * pow2 k ≤ 2147483646)
    (h : DifferencesWithin M R C (k + 1) c) (i j : Nat) : Fits (inverseValue R C k c i j) := by
  have hq : 2 ≤ pow2 (inverseShift k) := by unfold inverseShift; split_ifs <;> decide
  have hdiff : ∀ i j, i < ceilShift R k → j < ceilShift C k →
      ¬ (i < ceilShift (ceilShift R k) 1 ∧ j < ceilShift (ceilShift C k) 1) → Within M (gridWord C c i j) := by
    intro i j hi hj hout
    rw [← ceilShift_succ, ← ceilShift_succ] at hout
    exact h i j (hi.trans_le (ceilShift_le R k)) (hj.trans_le (ceilShift_le C k)) hout
  have hsum : ∀ i j, Fits (within (ceilShift R k) (ceilShift C k) (fun i j => gridWord C c
      (unshuffleSource (ceilShift R k) i) (unshuffleSource (ceilShift C k) j)) i j) := fun i j => by
    unfold within
    split_ifs
    · exact coefInt_fits _ _
    · exact ⟨by omega, by omega⟩
  exact fromBlocks_of_all (fun ip jp => inverseFour_fits (pow2_pos k) hq hk (hsum _ _)
    (unshuffled_within hM hdiff (by omega)) (unshuffled_within hM hdiff (by omega))
    (reRoundCross_within (unshuffled_within hM hdiff (by omega)) k)) i j

theorem ceilShift_succ_le (n k : Nat) : ceilShift n (k + 1) ≤ ceilShift n k := ceilShift_succ n k ▸ ceilShift_le _ 1

/-- The inverse levels complete when every difference is within M. -/
theorem inverseLevels_complete (hM : 0 ≤ M) (hL : 3 * M + 7 * pow2 L ≤ 2147483646) (hc : c.wf = true)
    (h : DifferencesWithin M R C L c) : ∃ c', loopDown L (inverseLevel R C) c = .ok c' := by
  have hlevel : ∀ k (c : Memory 32), k < L → (c.wf = true ∧ DifferencesWithin M R C (k + 1) c) →
      ∃ c', inverseLevel R C k c = .ok c' ∧ c'.wf = true ∧ DifferencesWithin M R C k c' := by
    rintro k c hk ⟨hc, hdiff⟩
    have hpow : pow2 k ≤ pow2 L := Int.ofNat_le.2 (Nat.pow_le_pow_right (by decide) hk.le)
    obtain ⟨c', hc', hstep⟩ := inverseLevel_completes (R := R) (C := C) (k := k) hc
      fun i j _ _ => inverseValue_fits hM (by omega) hdiff i j
    refine ⟨c', hc', hstep.wf, fun i j hi hj hout => ?_⟩
    have hR := ceilShift_succ_le R k
    have hC := ceilShift_succ_le C k
    rw [gridWord, coefInt, hstep.outside hj hout]
    exact hdiff i j hi hj (by omega)
  obtain ⟨c', hc', -⟩ := loopDown_completes (P := fun k c => c.wf = true ∧ DifferencesWithin M R C k c)
    ⟨hc, h⟩ hlevel
  exact ⟨c', hc'⟩

theorem inverseTransform_completes (hR : 0 < R) (hC : 0 < C) (hlevels : levelCount R C ≤ 16) (hc : c.wf = true)
    (hwords : ∀ a, a < R * C → (coefInt c a).natAbs ≤ 700000000) : ∃ c', inverseTransform R C c = .ok c' := by
  have hpow : pow2 (levelCount R C) ≤ pow2 16 := Int.ofNat_le.2 (Nat.pow_le_pow_right (by decide) hlevels)
  have hpow : pow2 (levelCount R C) ≤ 65536 := hpow
  have hround := reRounded_bounds (pow2_pos (levelCount R C)) (coefInt c 0)
  have hfirst := hwords 0 (Nat.mul_pos hR hC)
  unfold inverseTransform
  dsimp only
  split_ifs with hL
  · exact ⟨c, rfl⟩
  · rw [preRound_eq, store_ok.2 ⟨by omega, by omega, rfl⟩, ok_bind]
    refine inverseLevels_complete (M := 700000000) (by decide) (by omega) (Memory.write_wf _ _ hc)
      fun i j hi hj hout => ?_
    have hne : i * C + j ≠ 0 := fun h0 => by
      obtain ⟨rfl, rfl⟩ : 0 = i ∧ 0 = j := by simpa using (eq_cell_iff hj).1 h0.symm
      exact hout ⟨ceilShift_pos hR _, ceilShift_pos hC _⟩
    have hword := hwords _ (cell_lt hi hj)
    rw [gridWord, coefInt, Memory.read_write_other _ hne]
    unfold coefInt at hword
    exact ⟨by omega, by omega⟩

theorem inverseTransform_outside (hpos : 0 < R * C) (h : inverseTransform R C c = .ok c') {a : Nat}
    (ha : R * C ≤ a) : c'.read a = c.read a :=
  ((yields_iff.1 (inverseTransform_writesCoef hpos)).1 c' h).read_other (.inr ha)

/-- Settles O60: the sums of every level fit 32 bits, since the differences are within the bound. -/
theorem hinvCompletesWithinBound : Obligations.HinvCompletesWithinBound := by
  intro s hs hgrid hwf hwords
  have hR := Nat.pos_of_ne_zero hgrid.1
  have hC := Nat.pos_of_ne_zero hgrid.2.1
  obtain ⟨c, hc⟩ := inverseTransform_completes hR hC (levelCount_le s) hwf hwords
  exact ⟨c, hc, exec_hinv hs hgrid hc, fun a => inverseTransform_outside (Nat.mul_pos hR hC) hc⟩

end Sys2Proof.Machine
end

section
/-! Proofs of the family `42_transform.md`: the quantizer as a rewriting of every word of the grid (R160, R161), and the
four quadrants of a grid (R162). -/

namespace Sys2Proof.Machine

variable {c c' : Memory 32} {g : Int → Int} {n s : Nat} {v : Int}

/-! ## DIGITIZE and UNDIGITIZE -/

/-- A pass that replaces each of the first `n` words by `g` of it. -/
theorem puts_mapWords (g : Int → Int) (n : Nat) (hc : c.wf = true) :
    Puts {a | a < n} (fun a => g (coefInt c a)) c (loopUp n (fun a c => store a (g (coefInt c a)) c) c) := by
  have hword : ∀ i, i < n → Rewrites {a | id a = i ∧ a ∈ Set.univ} (fun a => g (coefInt c a)) c
      fun c => store i (g (coefInt c i)) c := fun i _ => by
    refine ((rewrites_store i).congr fun a => ?_).of_eq fun c₁ hwords => ?_
    · simp
    · rw [coefInt, coefInt, hwords i ⟨rfl, trivial⟩]
  exact ((rewrites_loopUp hword).congr fun a => by simp).puts hc

theorem digitizeValue_of_pos (hs : 2 ≤ s) (hv : 0 < v) : 0 ≤ digitizeValue s v ∧ digitizeValue s v ≤ v := by
  have hvs : (v - 1) * 2 ≤ (v - 1) * s := mul_le_mul_of_nonneg_left (by exact_mod_cast hs) (by omega)
  have hlt : v + ((s + 1) / 2 - 1 : Nat) < (v + 1) * s := by
    rw [sub_mul, sub_mul, one_mul, one_mul] at hvs
    rw [add_mul, one_mul]
    omega
  simp only [digitizeValue, if_pos hv]
  rw [Int.tdiv_eq_ediv_of_nonneg (by omega)]
  exact ⟨Int.ediv_nonneg (by omega) (by omega),
    Int.lt_add_one_iff.1 (Int.ediv_lt_of_lt_mul (by omega) hlt)⟩

theorem digitizeValue_of_nonpos (hs : 2 ≤ s) (hv : v ≤ 0) : v ≤ digitizeValue s v ∧ digitizeValue s v ≤ 0 := by
  have hvs : -v * 2 ≤ -v * s := mul_le_mul_of_nonneg_left (by exact_mod_cast hs) (by omega)
  have hlt : -(v - ((s + 1) / 2 - 1 : Nat)) < (-v + 1) * s := by
    rw [add_mul, one_mul]
    omega
  simp only [digitizeValue, if_neg hv.not_gt]
  have hneg : Int.tdiv (v - ((s + 1) / 2 - 1 : Nat)) s = -(-(v - ((s + 1) / 2 - 1 : Nat)) / (s : Int)) := by
    rw [← Int.tdiv_eq_ediv_of_nonneg (by omega), Int.neg_tdiv, neg_neg]
  have hnonneg : 0 ≤ -(v - ((s + 1) / 2 - 1 : Nat)) / (s : Int) := Int.ediv_nonneg (by omega) (by omega)
  have hle := Int.lt_add_one_iff.1 (Int.ediv_lt_of_lt_mul (by omega) hlt)
  omega

/-- Quantizing makes no word larger (R160). -/
theorem digitizeValue_fits (hs : 2 ≤ s) (hv : Fits v) : Fits (digitizeValue s v) := by
  unfold Fits at *
  rcases lt_or_ge 0 v with hpos | hnonpos
  · have := digitizeValue_of_pos hs hpos
    omega
  · have := digitizeValue_of_nonpos hs hnonpos
    omega

/-- Settles O37: the quantized words are no larger than the words, so the pass over the grid completes. -/
theorem digitizeQuantizesEveryWord : Obligations.DigitizeQuantizesEveryWord := by
  refine ⟨decode_ok.2 ⟨rfl, rfl⟩, fun s hs hwf => ⟨fun hgrid => ?size, fun hgrid hscale => ?same,
    fun hgrid hscale => ?quantized⟩⟩
  case size => exact exec_of_gridCheck_some rfl hs (gridCheck_of_not_fits hgrid)
  case same => exact exec_digitize hs hgrid (if_pos hscale)
  case quantized =>
    have hfits : ∀ a, Fits (digitizeValue s.scale.toNat (coefInt s.coef a)) := fun a =>
      digitizeValue_fits hscale (coefInt_fits _ a)
    obtain ⟨c, hc, hwords⟩ := (puts_mapWords (digitizeValue s.scale.toNat) (gridRows s * gridCols s) hwf).completes
      fun a _ => hfits a
    refine ⟨c, exec_digitize hs hgrid ?_, fun a ha => hwords.coefInt_inside ha (hfits a), fun a ha =>
      hwords.outside a (Nat.not_lt.2 ha)⟩
    rw [digitizeGrid, if_neg (by omega), hc]

/-- Settles O38: the pass over the grid completes exactly when every product fits. -/
theorem undigitizeScalesEveryWord : Obligations.UndigitizeScalesEveryWord := by
  refine ⟨decode_ok.2 ⟨rfl, rfl⟩, fun s hs hwf => ⟨fun hgrid => ?size, fun hgrid hscale => ?same,
    fun hgrid hscale hfits => ?scaled, fun hgrid hscale hout => ?range⟩⟩
  case size => exact exec_of_gridCheck_some rfl hs (gridCheck_of_not_fits hgrid)
  case same => exact exec_undigitize hs hgrid (if_pos hscale)
  case scaled =>
    obtain ⟨c, hc, hwords⟩ := (puts_mapWords (· * s.scale.toNat) (gridRows s * gridCols s) hwf).completes hfits
    refine ⟨c, exec_undigitize hs hgrid ?_, fun a ha => hwords.coefInt_inside ha (hfits a ha), fun a ha =>
      hwords.outside a (Nat.not_lt.2 ha)⟩
    rw [undigitizeGrid, if_neg (by omega), hc]
  case range =>
    obtain ⟨a, ha, hout⟩ := hout
    have hraises := (puts_mapWords (· * s.scale.toNat) (gridRows s * gridCols s) hwf).raises ha
      fun hfits => hout.elim hfits.1.not_gt hfits.2.not_gt
    refine submit_raises_err hs (gridCheck_none.2 hgrid) ?_ (by decide)
    have hgridError : undigitizeGrid s.scale.toNat (gridRows s * gridCols s) s.coef = .error .range := by
      rw [undigitizeGrid, if_neg (by omega), hraises]
    change undigitizeGrid s.scale.toNat (gridRows s * gridCols s) s.coef >>= _ = _
    rw [hgridError, error_bind]

/-! ## The quadrants (R162) -/

theorem quadrantRange_zero (R C : Nat) : quadrantRange R C 0 = ⟨0, (R + 1) / 2, 0, (C + 1) / 2⟩ := rfl

theorem quadrantRange_one (R C : Nat) : quadrantRange R C 1 = ⟨0, (R + 1) / 2, (C + 1) / 2, C⟩ := rfl

theorem quadrantRange_two (R C : Nat) : quadrantRange R C 2 = ⟨(R + 1) / 2, R, 0, (C + 1) / 2⟩ := rfl

theorem quadrantRange_three (R C : Nat) : quadrantRange R C 3 = ⟨(R + 1) / 2, R, (C + 1) / 2, C⟩ := rfl

theorem quadrant_cases (q : BitVec 2) : q = 0 ∨ q = 1 ∨ q = 2 ∨ q = 3 := by
  revert q
  decide

/-- The quadrant is the one of the cell's side of the two middle lines. -/
theorem mem_quadrantRange_iff {R C i j : Nat} (hi : i < R) (hj : j < C) (q : BitVec 2) :
    ((quadrantRange R C q).r0 ≤ i ∧ i < (quadrantRange R C q).r1 ∧
      (quadrantRange R C q).c0 ≤ j ∧ j < (quadrantRange R C q).c1) ↔
    q = if i < (R + 1) / 2 then if j < (C + 1) / 2 then 0 else 1 else if j < (C + 1) / 2 then 2 else 3 := by
  rcases quadrant_cases q with rfl | rfl | rfl | rfl
  · rw [quadrantRange_zero]
    split_ifs <;> simp <;> omega
  · rw [quadrantRange_one]
    split_ifs <;> simp <;> omega
  · rw [quadrantRange_two]
    split_ifs <;> simp <;> omega
  · rw [quadrantRange_three]
    split_ifs <;> simp <;> omega

/-- Settles O39: a cell's quadrant is fixed by its side of the two middle lines. -/
theorem quadrantsPartitionTheGrid : Obligations.QuadrantsPartitionTheGrid := by
  intro R C
  refine ⟨fun i j hi hj => ?_, ⟨quadrantRange_zero R C, quadrantRange_one R C, quadrantRange_two R C,
    quadrantRange_three R C⟩, fun q => ?_⟩
  · simp only [mem_quadrantRange_iff hi hj, existsUnique_eq]
  · have hR : R - (R + 1) / 2 = R / 2 := by omega
    have hC : C - (C + 1) / 2 = C / 2 := by omega
    rcases quadrant_cases q with rfl | rfl | rfl | rfl
    · exact ⟨rfl, rfl⟩
    · exact ⟨rfl, hC⟩
    · exact ⟨hR, rfl⟩
    · exact ⟨hR, hC⟩

end Sys2Proof.Machine
end

section
/-! Proofs of the family `42_transform.md`: SIGNS as one pass over the list of its visits (R162, R183). -/

namespace Sys2Proof.Machine

variable {src : Source} {r : BitReader} {c c' : Memory 32} {a p R C : Nat} {l l' : List Nat} {d : Quadrant} {σ : Type}

/-! ## A quadrant's loops as a pass over a list -/

theorem loopUp_eq_foldlM (n : Nat) (f : Nat → σ → Except ErrCode σ) (x : σ) :
    loopUp n f x = (List.range n).foldlM (fun x i => f i x) x := by
  induction n with
  | zero => rfl
  | succ n ih => simp [loopUp, ih, List.range_succ]

theorem foldlM_flatMap {α : Type} (h : α → List Nat) (f : Nat → σ → Except ErrCode σ) (l : List α) (x : σ) :
    (l.flatMap h).foldlM (fun x a => f a x) x = l.foldlM (fun x i => (h i).foldlM (fun x a => f a x) x) x := by
  induction l generalizing x with
  | nil => rfl
  | cons i l ih => simp only [List.flatMap_cons, List.foldlM_append, List.foldlM_cons, ih]

theorem overQuadrant_eq_foldlM (d : Quadrant) (C : Nat) (f : Nat → σ → Except ErrCode σ) (x : σ) :
    overQuadrant d C f x = (quadrantCells d C).foldlM (fun x a => f a x) x := by
  simp only [overQuadrant, quadrantCells, loopUp_eq_foldlM, foldlM_flatMap, List.foldlM_map]

theorem applySigns_eq_foldlM (src : Source) (R C : Nat) (x : BitReader × Memory 32) :
    applySigns src R C x = (signOrder R C).foldlM (fun x a => signCell src a x) x := by
  simp only [applySigns, signOrder, loopUp_eq_foldlM, foldlM_flatMap, overQuadrant_eq_foldlM]

/-! ## The visits of a grid -/

theorem quadrantRange_c1_le (R C : Nat) (q : BitVec 2) : (quadrantRange R C q).c1 ≤ C := by
  rcases quadrant_cases q with rfl | rfl | rfl | rfl
  · exact ceilShift_le C 1
  · exact le_rfl
  · exact ceilShift_le C 1
  · exact le_rfl

theorem quadrantRange_r1_le (R C : Nat) (q : BitVec 2) : (quadrantRange R C q).r1 ≤ R := by
  rcases quadrant_cases q with rfl | rfl | rfl | rfl
  · exact ceilShift_le R 1
  · exact ceilShift_le R 1
  · exact le_rfl
  · exact le_rfl

theorem quadrantCells_nodup (hd : d.c1 ≤ C) : (quadrantCells d C).Nodup := by
  have hcell : ∀ {i j i' j'}, j < d.width → j' < d.width → d.cell C i j = d.cell C i' j' → i = i' ∧ j = j' := by
    intro i j i' j' hj hj' h
    unfold Quadrant.width at hj hj'
    obtain ⟨hi, hj⟩ := cell_inj (by omega) (by omega) h
    omega
  refine List.nodup_flatMap.2 ⟨fun i _ => ?_, ?_⟩
  · refine List.Nodup.map_on (fun j hj j' hj' h => ?_) List.nodup_range
    exact (hcell (List.mem_range.1 hj) (List.mem_range.1 hj') h).2
  · refine List.nodup_range.imp fun {i i'} hne a ha ha' => ?_
    obtain ⟨j, hj, rfl⟩ := List.mem_map.1 ha
    obtain ⟨j', hj', h⟩ := List.mem_map.1 ha'
    exact hne (hcell (List.mem_range.1 hj) (List.mem_range.1 hj') h.symm).1

theorem mem_quadrantCells (hd : d.c1 ≤ C) (ha : a ∈ quadrantCells d C) :
    d.r0 ≤ a / C ∧ a / C < d.r1 ∧ d.c0 ≤ a % C ∧ a % C < d.c1 := by
  simp only [quadrantCells, List.mem_flatMap, List.mem_map, List.mem_range] at ha
  obtain ⟨i, hi, j, hj, rfl⟩ := ha
  unfold Quadrant.height at hi
  unfold Quadrant.width at hj
  rw [Quadrant.cell, cell_div (by omega), cell_mod (by omega)]
  omega

theorem signOrder_lt (ha : a ∈ signOrder R C) : a < R * C := by
  simp only [signOrder, List.mem_flatMap] at ha
  obtain ⟨q, -, ha⟩ := ha
  obtain ⟨-, hrow, -, hcol⟩ := mem_quadrantCells (quadrantRange_c1_le R C _) ha
  have hlt := cell_lt (hrow.trans_le (quadrantRange_r1_le R C _)) (hcol.trans_le (quadrantRange_c1_le R C _))
  rwa [← (eq_cell_iff (hcol.trans_le (quadrantRange_c1_le R C _))).2 ⟨rfl, rfl⟩] at hlt

/-- No word is visited twice: the quadrants share out the cells. -/
theorem signOrder_nodup (R C : Nat) : (signOrder R C).Nodup := by
  refine List.nodup_flatMap.2 ⟨fun q _ => quadrantCells_nodup (quadrantRange_c1_le R C _), ?_⟩
  have hfour : (List.range 4).Pairwise fun q q' => BitVec.ofNat 2 q ≠ BitVec.ofNat 2 q' := by decide
  refine hfour.imp fun {q q'} hne a ha ha' => hne ?_
  have hcell := mem_quadrantCells (quadrantRange_c1_le R C _) ha
  have hcell' := mem_quadrantCells (quadrantRange_c1_le R C _) ha'
  have hR := quadrantRange_r1_le R C (BitVec.ofNat 2 q)
  have hC := quadrantRange_c1_le R C (BitVec.ofNat 2 q)
  rw [(mem_quadrantRange_iff (by omega) (by omega) _).1 hcell, (mem_quadrantRange_iff (by omega) (by omega) _).1 hcell']

/-! ## The sign bits -/

/-- How many words of the list are not 0. -/
def nonzeroCount (c : Memory 32) (l : List Nat) : Nat := (l.filter fun a => decide (coefInt c a ≠ 0)).length

theorem nonzeroCount_cons (c : Memory 32) (a : Nat) (l : List Nat) :
    nonzeroCount c (a :: l) = nonzeroCount c [a] + nonzeroCount c l := by
  unfold nonzeroCount
  rw [← List.length_append, ← List.filter_append, List.singleton_append]

theorem nonzeroCount_congr (h : ∀ a ∈ l, coefInt c' a = coefInt c a) : nonzeroCount c' l = nonzeroCount c l := by
  unfold nonzeroCount
  rw [List.filter_congr fun a ha => by rw [h a ha]]

/-- The word `a` once it has taken its sign, its bit being number t of the stream if it takes one. -/
def signedWord (src : Source) (r : BitReader) (c : Memory 32) (t a : Nat) : Int :=
  if coefInt c a ≠ 0 ∧ streamBit src r t = true then -coefInt c a else coefInt c a

/-- What one visit does. -/
theorem signCell_spec (hc : c.wf = true) (hcnt : r.cnt.toNat ≤ 7) (hleft : nonzeroCount c [a] ≤ bitsLeft src r)
    (hmin : coefInt c a ≠ -2147483648) :
    ∃ c', signCell src a (r, c) = .ok (readerAfter src r (nonzeroCount c [a]), c') ∧ c'.wf = true ∧
      coefInt c' a = signedWord src r c 0 a ∧ ∀ b, b ≠ a → c'.read b = c.read b := by
  by_cases hzero : coefInt c a = 0
  · have hcount : nonzeroCount c [a] = 0 := by simp [nonzeroCount, hzero]
    have hreader : readerAfter src r 0 = r := by simp [readerAfter]
    refine ⟨c, ?_, hc, by simp [signedWord, hzero], fun _ _ => rfl⟩
    rw [hcount, hreader, signCell, if_pos hzero]
  · have hcount : nonzeroCount c [a] = 1 := by simp [nonzeroCount, hzero]
    rw [hcount] at hleft ⊢
    have hfits := coefInt_fits c a
    unfold Fits at hfits
    have hcell : signCell src a (r, c) = if streamBit src r 0 then
        .ok (readerAfter src r 1, c.write a (BitVec.ofInt 32 (-coefInt c a))) else .ok (readerAfter src r 1, c) := by
      have hstore : store a (-coefInt c a) c = _ := store_ok.2 ⟨by omega, by omega, rfl⟩
      rw [signCell, if_neg hzero, getBit_of_left hcnt hleft, ok_bind, hstore]
      rfl
    rw [hcell]
    split_ifs with hbit
    · refine ⟨_, rfl, Memory.write_wf _ _ hc, ?_, fun b hb => Memory.read_write_other _ hb _⟩
      rw [signedWord, if_pos ⟨hzero, hbit⟩, coefInt, Memory.read_write_same hc,
        toInt_ofInt_of_fits (by omega) (by omega)]
    · exact ⟨c, rfl, hc, by simp [signedWord, hbit], fun _ _ => rfl⟩

/-- A pass over a list of different words: each takes the bit whose number is the count of words before it that are
not 0. -/
theorem foldlM_signCell (hl : l.Nodup) (hc : c.wf = true) (hcnt : r.cnt.toNat ≤ 7)
    (hleft : nonzeroCount c l ≤ bitsLeft src r) (hmin : ∀ a, coefInt c a ≠ -2147483648) :
    ∃ c', l.foldlM (fun x a => signCell src a x) (r, c) = .ok (readerAfter src r (nonzeroCount c l), c') ∧
      (∀ p a, l[p]? = some a → coefInt c' a = signedWord src r c (nonzeroCount c (l.take p)) a) ∧
      ∀ a, a ∉ l → c'.read a = c.read a := by
  induction l generalizing r c with
  | nil =>
    have hreader : readerAfter src r 0 = r := by simp [readerAfter]
    exact ⟨c, by simp [nonzeroCount, hreader]; rfl, by simp, fun _ _ => rfl⟩
  | cons a l ih =>
    obtain ⟨ha, hl⟩ := List.nodup_cons.1 hl
    rw [nonzeroCount_cons] at hleft ⊢
    obtain ⟨c₁, hcell, hc₁, hword, hother⟩ := signCell_spec (src := src) hc hcnt (by omega) (hmin a)
    obtain ⟨hcnt₁, hleft₁, hbit, hreader⟩ := readerAfter_spec (src := src) (nonzeroCount c [a]) hcnt (by omega)
    have hsame : ∀ b, b ≠ a → coefInt c₁ b = coefInt c b := fun b hb => by rw [coefInt, hother b hb, coefInt]
    have hcount : ∀ m, m ⊆ l → nonzeroCount c₁ m = nonzeroCount c m := fun m hm =>
      nonzeroCount_congr fun b hb => hsame b fun h => ha (h ▸ hm hb)
    have hmin₁ : ∀ b, coefInt c₁ b ≠ -2147483648 := fun b => by
      by_cases hb : b = a
      · have hfits := coefInt_fits c a
        have := hmin a
        unfold Fits at hfits
        rw [hb, hword, signedWord]
        split_ifs <;> omega
      · exact hsame b hb ▸ hmin b
    obtain ⟨c', hpass, hwords, hrest⟩ := ih hl hc₁ hcnt₁ (by rw [hcount l (List.Subset.refl l)]; omega) hmin₁
    refine ⟨c', ?_, fun p b hb => ?_, fun b hb => ?_⟩
    · rw [List.foldlM_cons, hcell, ok_bind, hpass, hcount l (List.Subset.refl l), hreader _ hleft]
    · cases p with
      | zero =>
        obtain rfl : a = b := by simpa using hb
        rw [coefInt, hrest a ha, ← coefInt, hword]
        rfl
      | succ p =>
        have hmem : b ∈ l := List.mem_of_getElem? (by simpa using hb)
        have hne : b ≠ a := fun h => ha (h ▸ hmem)
        rw [hwords p b (by simpa using hb), List.take_succ_cons, nonzeroCount_cons c a (l.take p), signedWord,
          signedWord, hsame b hne, hbit, hcount _ (List.take_subset p l)]
    · rw [hrest b fun h => hb (List.mem_cons_of_mem _ h), hother b fun h => hb (h ▸ List.mem_cons_self)]

/-- Settles O47: SIGNS is one pass over `signOrder`, which visits no word twice and none outside the grid. -/
theorem signsFollowTheVisitOrder : Obligations.SignsFollowTheVisitOrder := by
  intro s hs hgrid hwf hcnt hleft hmin
  obtain ⟨c, hpass, hwords, hrest⟩ := foldlM_signCell (signOrder_nodup (gridRows s) (gridCols s)) hwf hcnt hleft hmin
  refine ⟨c, ?_, hwords, fun a ha => hrest a fun hmem => (signOrder_lt hmem).not_ge ha⟩
  refine submit_finished hs (gridCheck_none.2 hgrid) ?_
  rw [← applySigns_eq_foldlM] at hpass
  change applySigns (source s) (gridRows s) (gridCols s) (s.rd, s.coef) >>= _ = _
  rw [hpass]
  rfl

end Sys2Proof.Machine
end

section
/-! Proofs of the family `42_transform.md`: the words of small grids, from what each level leaves in each cell. -/

namespace Sys2Proof.Machine

variable {c c' : Memory 32} {C R L k n p : Nat} {s : State}

/-! ## HTRANS and HINV on a grid of given size -/

/-- HTRANS of an R×C grid of samples within B, B within the bound of R166. -/
theorem htrans_of_bound {B : Nat} (hs : s.err = .none) (hwf : s.coef.wf = true) (hrows : gridRows s = R)
    (hcols : gridCols s = C) (hR : 0 < R) (hC : 0 < C) (hroom : R * C ≤ s.params.coefWords)
    (hsamples : ∀ a, a < R * C → (coefInt s.coef a).natAbs ≤ B)
    (hB : forwardBound B (levelCount R C) ≤ 2147483647) :
    ∃ c, exec .htrans s = .next (finished 0x30#8 { s with coef := c }) ∧ forwardTransform R C s.coef = .ok c ∧
      ∀ a, R * C ≤ a → c.read a = s.coef.read a := by
  subst hrows hcols
  have hsamples' : ∀ i j, i < gridRows s → j < gridCols s → Within B (gridWord (gridCols s) s.coef i j) :=
    fun i j hi hj => by
      have hword := hsamples _ (cell_lt hi hj)
      unfold Within gridWord
      omega
  obtain ⟨c, hc⟩ := forwardTransform_completes (Int.natCast_nonneg B) hB hwf hsamples'
  exact ⟨c, exec_htrans hs ⟨hR.ne', hC.ne', hroom⟩ hc, hc, fun a ha =>
    ((yields_iff.1 (forwardTransform_writesCoef _ _)).1 c hc).read_other (.inr ha)⟩

/-- HINV of an R×C grid of words within 536870911. -/
theorem hinv_of_bound (hs : s.err = .none) (hwf : s.coef.wf = true) (hrows : gridRows s = R)
    (hcols : gridCols s = C) (hR : 0 < R) (hC : 0 < C) (hroom : R * C ≤ s.params.coefWords)
    (hwords : ∀ a, a < R * C → (coefInt s.coef a).natAbs ≤ 536870911) :
    ∃ c, exec .hinv s = .next (finished 0x31#8 { s with coef := c }) ∧ inverseTransform R C s.coef = .ok c ∧
      ∀ a, R * C ≤ a → c.read a = s.coef.read a := by
  subst hrows hcols
  obtain ⟨c, hc⟩ := inverseTransform_completes hR hC (levelCount_le s) hwf fun a ha => (hwords a ha).trans (by decide)
  exact ⟨c, exec_hinv hs ⟨hR.ne', hC.ne', hroom⟩ hc, hc, fun a => inverseTransform_outside (Nat.mul_pos hR hC) hc⟩

/-! ## A 2×2 grid -/

/-- Settles O31: the one level of a 2×2 grid is one full block. -/
theorem htransTwoByTwo : Obligations.HtransTwoByTwo := by
  intro s A B C D hs hwf hrows hcols hroom hA hB hC hD hA' hB' hC' hD'
  obtain ⟨c, hexec, hforward, hrest⟩ := htrans_of_bound (R := 2) (C := 2) (B := 536870911) hs hwf
    (by rw [gridRows, hrows]; rfl) (by rw [gridCols, hcols]; rfl) (by decide) (by decide) hroom
    (fun a ha => by
      interval_cases a
      exacts [hA ▸ hA', hB ▸ hB', hC ▸ hC', hD ▸ hD'])
    (by decide)
  obtain ⟨-, hstep⟩ := forwardLevel_ok (R := 2) (C := 2) (k := 0) hwf hforward
  have h0 : coefInt c 0 = sumRounded (2 * 1) ((coefInt s.coef 3 + coefInt s.coef 2 + coefInt s.coef 1 +
      coefInt s.coef 0) / 1) := hstep.inside (i := 0) (j := 0) (by decide) (by decide)
  have h1 : coefInt c 1 = diffRounded 1 ((coefInt s.coef 3 - coefInt s.coef 2 + coefInt s.coef 1 -
      coefInt s.coef 0) / 1) := hstep.inside (i := 0) (j := 1) (by decide) (by decide)
  have h2 : coefInt c 2 = diffRounded 1 ((coefInt s.coef 3 + coefInt s.coef 2 - coefInt s.coef 1 -
      coefInt s.coef 0) / 1) := hstep.inside (i := 1) (j := 0) (by decide) (by decide)
  have h3 : coefInt c 3 = (coefInt s.coef 3 - coefInt s.coef 2 - coefInt s.coef 1 + coefInt s.coef 0) / 1 :=
    hstep.inside (i := 1) (j := 1) (by decide) (by decide)
  rw [hA, hB, hC, hD, Int.ediv_one] at h0 h1 h2 h3
  refine ⟨c, hexec, ?_, h1, h2, h3, hrest⟩
  rw [h0, sumRounded]
  split_ifs <;> omega

/-- What the pre-rounding leaves (R153). -/
theorem preRound_ok (hc : c.wf = true) (h : preRound L c = .ok c') :
    c'.wf = true ∧ coefInt c' 0 = reRounded (pow2 L) (coefInt c 0) ∧ ∀ a, a ≠ 0 → coefInt c' a = coefInt c a := by
  rw [preRound_eq] at h
  obtain ⟨hlo, hhi, rfl⟩ := store_ok.1 h
  refine ⟨Memory.write_wf _ _ hc, ?_, fun a ha => ?_⟩
  · rw [coefInt, Memory.read_write_same hc, toInt_ofInt_of_fits hlo hhi]
  · rw [coefInt, Memory.read_write_other _ ha, coefInt]

/-- A transform with levels is the pre-rounding and then the levels, the last one first (R159). -/
theorem inverseTransform_ok (hL : levelCount R C = L + 1) (h : inverseTransform R C c = .ok c') :
    ∃ c₀, preRound (L + 1) c = .ok c₀ ∧ loopDown (L + 1) (inverseLevel R C) c₀ = .ok c' := by
  unfold inverseTransform at h
  simp only [hL, if_neg (Nat.succ_ne_zero L)] at h
  exact bind_ok.1 h

/-- Settles O32: the one level of a 2×2 grid is one full block, of the pre-rounded sum and the three differences. -/
theorem hinvTwoByTwo : Obligations.HinvTwoByTwo := by
  intro s v0 v1 v2 v3 h0 hx hy hx' hy' h0' lb0 lb1 hs hwf hrows hcols hroom hv0 hv1 hv2 hv3 hb0 hb1 hb2 hb3 hh0 hhx hhy
    hlb0 hhx' hhy' hlb1 hh0'
  obtain ⟨c, hexec, hinverse, hrest⟩ := hinv_of_bound (R := 2) (C := 2) hs hwf
    (by rw [gridRows, hrows]; rfl) (by rw [gridCols, hcols]; rfl) (by decide) (by decide) hroom
    fun a ha => by
      interval_cases a
      exacts [hv0 ▸ hb0, hv1 ▸ hb1, hv2 ▸ hb2, hv3 ▸ hb3]
  obtain ⟨c₀, hround, hlevel⟩ := inverseTransform_ok (L := 0) rfl hinverse
  obtain ⟨hc₀, hfirst, hothers⟩ := preRound_ok hwf hround
  obtain ⟨c₁, hlevel, hend⟩ := bind_ok.1 hlevel
  cases hend
  have hstep := inverseLevel_ok hc₀ hlevel
  have hblock : inverseFour 1 4 (coefInt c₀ 0) (coefInt c₀ 2) (coefInt c₀ 1) (reRoundCross 0 (coefInt c₀ 3)) =
      ((h0' - hx' - hy' + v3) / 4, (h0' - hx' + hy' - v3) / 4, (h0' + hx' - hy' - v3) / 4,
        (h0' + hx' + hy' + v3) / 4) := by
    have hsum : reRounded (pow2 (0 + 1)) v0 = h0 := hh0.symm
    have hright : reRounded 1 v1 = hy := hhy.symm
    have hbelow : reRounded 1 v2 = hx := hhx.symm
    have hbit : (v3 / 2 + hx' / 2 + hy' / 2) % 2 * 2 = lb1 := by omega
    rw [hfirst, hothers 1 (by decide), hothers 2 (by decide), hothers 3 (by decide), hv0, hv1, hv2, hv3, hsum,
      reRoundCross_level_zero]
    simp only [inverseFour, hright, hbelow, Int.ediv_one, mul_one, ← hlb0, ← hhx', ← hhy', hbit, ← hh0']
  have h0 : coefInt c 0 = (inverseFour 1 4 (coefInt c₀ 0) (coefInt c₀ 2) (coefInt c₀ 1)
      (reRoundCross 0 (coefInt c₀ 3))).1 := hstep.inside (i := 0) (j := 0) (by decide) (by decide)
  have h1 : coefInt c 1 = (inverseFour 1 4 (coefInt c₀ 0) (coefInt c₀ 2) (coefInt c₀ 1)
      (reRoundCross 0 (coefInt c₀ 3))).2.1 := hstep.inside (i := 0) (j := 1) (by decide) (by decide)
  have h2 : coefInt c 2 = (inverseFour 1 4 (coefInt c₀ 0) (coefInt c₀ 2) (coefInt c₀ 1)
      (reRoundCross 0 (coefInt c₀ 3))).2.2.1 := hstep.inside (i := 1) (j := 0) (by decide) (by decide)
  have h3 : coefInt c 3 = (inverseFour 1 4 (coefInt c₀ 0) (coefInt c₀ 2) (coefInt c₀ 1)
      (reRoundCross 0 (coefInt c₀ 3))).2.2.2 := hstep.inside (i := 1) (j := 1) (by decide) (by decide)
  rw [hblock] at h0 h1 h2 h3
  exact ⟨c, hexec, h0, h1, h2, h3, hrest⟩

end Sys2Proof.Machine
end

section
/-! Proofs of the family `42_transform.md`: grids of one row or one column, whose blocks are all leftover pairs, and the
words of five in a line (R147 to R149, R155 to R157). -/

namespace Sys2Proof.Machine

variable {c c' c₁ c₂ : Memory 32} {k n p m : Nat} {W v : Nat → Int} {s : State}

/-! ## Lines -/

/-- The words of a line given pair by pair. -/
def fromPairs (F : Nat → Int × Int) (p : Nat) : Int := if p % 2 = 0 then (F (p / 2)).1 else (F (p / 2)).2

/-- The two words of a leftover pair from its words A and B, with bit0 = b and division by q (R147, R148). -/
def forwardTwo (b q A B : Int) : Int × Int := (sumRounded (2 * b) (2 * (B + A) / q), diffRounded b (2 * (B - A) / q))

/-- What forward level k stores in word p of the first `m` words of a line, its last word standing for one that is not
there. -/
def forwardLine (k m : Nat) (v : Nat → Int) : Nat → Int :=
  fromPairs fun pp => forwardTwo (pow2 k) (pow2 (forwardShift k)) (v (min (2 * pp) (m - 1)))
    (v (min (2 * pp + 1) (m - 1)))

/-- What inverse level k stores in word p of the first `m` words of a line, with 0 for a word that is not there. -/
def inverseLine (k m : Nat) (v : Nat → Int) : Nat → Int :=
  fromPairs fun pp => inverseTwo (pow2 k) (pow2 (inverseShift k)) (if 2 * pp < m then v (2 * pp) else 0)
    (if 2 * pp + 1 < m then v (2 * pp + 1) else 0)

/-- `c'` is `c` with the words of a line of `n` that level k works on replaced by `W`. -/
structure LineStep (n k : Nat) (W : Nat → Int) (c c' : Memory 32) : Prop where
  wf : c'.wf = true
  inside : ∀ {p}, p < ceilShift n k → coefInt c' p = W p
  outside : ∀ {p}, p < n → ceilShift n k ≤ p → coefInt c' p = coefInt c p

theorem ceilShift_one (k : Nat) : ceilShift 1 k = 1 := le_antisymm (ceilShift_le 1 k) (ceilShift_pos Nat.one_pos k)

theorem gridWord_row (n : Nat) (c : Memory 32) (p : Nat) : gridWord n c 0 p = coefInt c p := by
  rw [gridWord, Nat.zero_mul, Nat.zero_add]

theorem gridWord_column (c : Memory 32) (p : Nat) : gridWord 1 c p 0 = coefInt c p := by
  rw [gridWord, Nat.mul_one, Nat.add_zero]

theorem LevelStep.row {W : Nat → Nat → Int} (h : LevelStep 1 n k W c c') : LineStep n k (W 0) c c' := by
  refine ⟨h.wf, fun {p} hp => ?_, fun {p} hp hout => ?_⟩
  · rw [← gridWord_row n, h.inside (by rw [ceilShift_one]; exact Nat.one_pos) hp]
  · have hread := h.outside (i := 0) hp fun hin => hin.2.not_ge hout
    rw [Nat.zero_mul, Nat.zero_add] at hread
    rw [coefInt, hread, coefInt]

theorem LevelStep.column {W : Nat → Nat → Int} (h : LevelStep n 1 k W c c') : LineStep n k (fun p => W p 0) c c' := by
  refine ⟨h.wf, fun {p} hp => ?_, fun {p} hp hout => ?_⟩
  · rw [← gridWord_column, h.inside hp (by rw [ceilShift_one]; exact Nat.one_pos)]
  · have hread := h.outside (j := 0) Nat.one_pos fun hin => hin.1.not_ge hout
    rw [Nat.mul_one, Nat.add_zero] at hread
    rw [coefInt, hread, coefInt]

theorem fromBlocks_row {F : Nat → Nat → Int × Int × Int × Int} {G : Nat → Int × Int}
    (h : ∀ pp, (F 0 pp).1 = (G pp).1 ∧ (F 0 pp).2.1 = (G pp).2) (p : Nat) : fromBlocks F 0 p = fromPairs G p := by
  simp [fromBlocks, fromPairs, h]

theorem fromBlocks_column {F : Nat → Nat → Int × Int × Int × Int} {G : Nat → Int × Int}
    (h : ∀ pp, (F pp 0).1 = (G pp).1 ∧ (F pp 0).2.2.1 = (G pp).2) (p : Nat) : fromBlocks F p 0 = fromPairs G p := by
  simp [fromBlocks, fromPairs, h]

theorem forwardValue_row (n k : Nat) (c : Memory 32) (p : Nat) :
    forwardValue 1 n k c 0 p = forwardLine k (ceilShift n k) (coefInt c) p := by
  refine fromBlocks_row (fun pp => ?_) p
  simp only [forwardBlocks, forwardFour, forwardTwo, mirrored, ceilShift_one, Nat.sub_self, Nat.min_zero, gridWord_row]
  constructor <;> ring_nf

theorem forwardValue_column (n k : Nat) (c : Memory 32) (p : Nat) :
    forwardValue n 1 k c p 0 = forwardLine k (ceilShift n k) (coefInt c) p := by
  refine fromBlocks_column (fun pp => ?_) p
  simp only [forwardBlocks, forwardFour, forwardTwo, mirrored, ceilShift_one, Nat.sub_self, Nat.min_zero,
    gridWord_column]
  constructor <;> ring_nf

theorem inverseValue_row (n k : Nat) (c : Memory 32) (p : Nat) : inverseValue 1 n k c 0 p =
    inverseLine k (ceilShift n k) (fun p => coefInt c (unshuffleSource (ceilShift n k) p)) p := by
  refine fromBlocks_row (fun pp => ?_) p
  simp [inverseBlocks, within, ceilShift_one, reRoundCross_zero, inverseFour_rowPair (pow2_pos k), unshuffleSource,
    gridWord_row]

theorem inverseValue_column (n k : Nat) (c : Memory 32) (p : Nat) : inverseValue n 1 k c p 0 =
    inverseLine k (ceilShift n k) (fun p => coefInt c (unshuffleSource (ceilShift n k) p)) p := by
  refine fromBlocks_column (fun pp => ?_) p
  simp [inverseBlocks, within, ceilShift_one, reRoundCross_zero, inverseFour_columnPair (pow2_pos k), unshuffleSource,
    gridWord_column]

/-- An R×C grid of `n` words in one row or one column. -/
def IsLine (n R C : Nat) : Prop := R = 1 ∧ C = n ∨ R = n ∧ C = 1

theorem shuffleSource_one : shuffleSource 1 0 = 0 := rfl

theorem forwardLevel_line {R C : Nat} (hline : IsLine n R C) (hc : c.wf = true)
    (h : forwardLevel R C k c = .ok c') : LineStep n k (fun p =>
      forwardLine k (ceilShift n k) (coefInt c) (shuffleSource (ceilShift n k) p)) c c' := by
  have hstep := (forwardLevel_ok hc h).2
  rcases hline with ⟨rfl, rfl⟩ | ⟨rfl, rfl⟩
  · simpa only [ceilShift_one, shuffleSource_one, forwardValue_row] using hstep.row
  · simpa only [ceilShift_one, shuffleSource_one, forwardValue_column] using hstep.column

theorem inverseLevel_line {R C : Nat} (hline : IsLine n R C) (hc : c.wf = true)
    (h : inverseLevel R C k c = .ok c') : LineStep n k
      (inverseLine k (ceilShift n k) fun p => coefInt c (unshuffleSource (ceilShift n k) p)) c c' := by
  have hstep := inverseLevel_ok hc h
  rcases hline with ⟨rfl, rfl⟩ | ⟨rfl, rfl⟩
  · exact funext (inverseValue_row _ k c) ▸ hstep.row
  · exact funext (inverseValue_column _ k c) ▸ hstep.column

/-! ## Five words in a line -/

/-- A difference that counts twice is not rounded at level 0 (R147, R148). -/
theorem diffRounded_one_of_even (x : Int) : diffRounded 1 (x * 2) = x * 2 :=
  diffRounded_of_dvd one_pos (dvd_mul_left 2 x)

theorem levelCount_five {R C : Nat} (hline : IsLine 5 R C) : levelCount R C = 3 := by
  rcases hline with ⟨rfl, rfl⟩ | ⟨rfl, rfl⟩ <;> rfl

/-- The three forward levels of five words: pairs and a corner, a pair and a corner, a pair. -/
theorem forwardTransform_five {R C : Nat} {h0 h1 h : Int} (hline : IsLine 5 R C) (hc : c.wf = true)
    (hok : forwardTransform R C c = .ok c') (hh0 : h0 = sumRounded 2 ((coefInt c 1 + coefInt c 0) * 2))
    (hh1 : h1 = sumRounded 2 ((coefInt c 3 + coefInt c 2) * 2)) (hh : h = sumRounded 4 (h1 + h0)) :
    coefInt c' 0 = sumRounded 8 (coefInt c 4 * 8 + h) ∧ coefInt c' 1 = diffRounded 4 (coefInt c 4 * 8 - h) ∧
      coefInt c' 2 = diffRounded 2 (h1 - h0) ∧ coefInt c' 3 = (coefInt c 1 - coefInt c 0) * 2 ∧
      coefInt c' 4 = (coefInt c 3 - coefInt c 2) * 2 := by
  rw [forwardTransform, levelCount_five hline] at hok
  obtain ⟨c₂, hok, hok₂⟩ := bind_ok.1 hok
  obtain ⟨c₁, hok₀, hok₁⟩ := bind_ok.1 hok
  have hstep₀ := forwardLevel_line (k := 0) hline hc hok₀
  have hstep₁ := forwardLevel_line hline hstep₀.wf hok₁
  have hstep₂ := forwardLevel_line hline hstep₁.wf hok₂
  have ha0 : coefInt c₁ 0 = sumRounded 2 (2 * (coefInt c 1 + coefInt c 0) / 1) := hstep₀.inside (by decide)
  have ha1 : coefInt c₁ 1 = sumRounded 2 (2 * (coefInt c 3 + coefInt c 2) / 1) := hstep₀.inside (by decide)
  have ha2 : coefInt c₁ 2 = sumRounded 2 (2 * (coefInt c 4 + coefInt c 4) / 1) := hstep₀.inside (by decide)
  have ha3 : coefInt c₁ 3 = diffRounded 1 (2 * (coefInt c 1 - coefInt c 0) / 1) := hstep₀.inside (by decide)
  have ha4 : coefInt c₁ 4 = diffRounded 1 (2 * (coefInt c 3 - coefInt c 2) / 1) := hstep₀.inside (by decide)
  have hb0 : coefInt c₂ 0 = sumRounded 4 (2 * (coefInt c₁ 1 + coefInt c₁ 0) / 2) := hstep₁.inside (by decide)
  have hb1 : coefInt c₂ 1 = sumRounded 4 (2 * (coefInt c₁ 2 + coefInt c₁ 2) / 2) := hstep₁.inside (by decide)
  have hb2 : coefInt c₂ 2 = diffRounded 2 (2 * (coefInt c₁ 1 - coefInt c₁ 0) / 2) := hstep₁.inside (by decide)
  have hd0 : coefInt c' 0 = sumRounded 8 (2 * (coefInt c₂ 1 + coefInt c₂ 0) / 2) := hstep₂.inside (by decide)
  have hd1 : coefInt c' 1 = diffRounded 4 (2 * (coefInt c₂ 1 - coefInt c₂ 0) / 2) := hstep₂.inside (by decide)
  have hd2 := hstep₂.outside (p := 2) (by decide) (by decide)
  have hd3 := (hstep₂.outside (p := 3) (by decide) (by decide)).trans (hstep₁.outside (by decide) (by decide))
  have hd4 := (hstep₂.outside (p := 4) (by decide) (by decide)).trans (hstep₁.outside (by decide) (by decide))
  have hhalf : ∀ x : Int, 2 * x / 2 = x := fun x => Int.mul_ediv_cancel_left x two_ne_zero
  rw [Int.ediv_one, mul_comm] at ha0 ha1 ha3 ha4
  rw [Int.ediv_one, sumRounded_of_dvd two_pos ⟨coefInt c 4, by ring⟩] at ha2
  rw [diffRounded_one_of_even] at ha3 ha4
  rw [hhalf, ha0, ha1, ← hh0, ← hh1] at hb0 hb2
  rw [hhalf, ha2, sumRounded_of_dvd four_pos ⟨coefInt c 4, by ring⟩] at hb1
  rw [← hh] at hb0
  have hlast : 2 * (coefInt c 4 + coefInt c 4) + 2 * (coefInt c 4 + coefInt c 4) = coefInt c 4 * 8 := by ring
  rw [hhalf, hb0, hb1, hlast] at hd0 hd1
  exact ⟨hd0, hd1, hd2.trans hb2, hd3.trans ha3, hd4.trans ha4⟩

/-- The three inverse levels of five words: a pair, a pair and a corner, pairs and a corner. -/
theorem inverseTransform_five {R C : Nat} {x0 x1 y0 y1 z0 z1 z2 z3 : Int} (hline : IsLine 5 R C) (hc : c.wf = true)
    (hok : inverseTransform R C c = .ok c')
    (hx : (x0, x1) = inverseTwo 4 2 (reRounded 8 (coefInt c 0)) (coefInt c 1))
    (hy : (y0, y1) = inverseTwo 2 2 x0 (coefInt c 2)) (hz : (z0, z1) = inverseTwo 1 4 y0 (coefInt c 3))
    (hz' : (z2, z3) = inverseTwo 1 4 y1 (coefInt c 4)) :
    coefInt c' 0 = z0 ∧ coefInt c' 1 = z1 ∧ coefInt c' 2 = z2 ∧ coefInt c' 3 = z3 ∧ coefInt c' 4 = x1 / 2 / 4 := by
  obtain ⟨c₀, hround, hok⟩ := inverseTransform_ok (levelCount_five hline) hok
  obtain ⟨c₁, hok₂, hok⟩ := bind_ok.1 hok
  obtain ⟨c₂, hok₁, hok⟩ := bind_ok.1 hok
  obtain ⟨c₃, hok₀, hend⟩ := bind_ok.1 hok
  cases hend
  obtain ⟨hc₀, hfirst, hothers⟩ := preRound_ok hc hround
  have hstep₂ := inverseLevel_line hline hc₀ hok₂
  have hstep₁ := inverseLevel_line hline hstep₂.wf hok₁
  have hstep₀ := inverseLevel_line hline hstep₁.wf hok₀
  have ha0 : coefInt c₁ 0 = (inverseTwo 4 2 (coefInt c₀ 0) (coefInt c₀ 1)).1 := hstep₂.inside (by decide)
  have ha1 : coefInt c₁ 1 = (inverseTwo 4 2 (coefInt c₀ 0) (coefInt c₀ 1)).2 := hstep₂.inside (by decide)
  have hb0 : coefInt c₂ 0 = (inverseTwo 2 2 (coefInt c₁ 0) (coefInt c₁ 2)).1 := hstep₁.inside (by decide)
  have hb1 : coefInt c₂ 1 = (inverseTwo 2 2 (coefInt c₁ 0) (coefInt c₁ 2)).2 := hstep₁.inside (by decide)
  have hb2 : coefInt c₂ 2 = (inverseTwo 2 2 (coefInt c₁ 1) 0).1 := hstep₁.inside (by decide)
  have hd0 : coefInt c' 0 = (inverseTwo 1 4 (coefInt c₂ 0) (coefInt c₂ 3)).1 := hstep₀.inside (by decide)
  have hd1 : coefInt c' 1 = (inverseTwo 1 4 (coefInt c₂ 0) (coefInt c₂ 3)).2 := hstep₀.inside (by decide)
  have hd2 : coefInt c' 2 = (inverseTwo 1 4 (coefInt c₂ 1) (coefInt c₂ 4)).1 := hstep₀.inside (by decide)
  have hd3 : coefInt c' 3 = (inverseTwo 1 4 (coefInt c₂ 1) (coefInt c₂ 4)).2 := hstep₀.inside (by decide)
  have hd4 : coefInt c' 4 = (inverseTwo 1 4 (coefInt c₂ 2) 0).1 := hstep₀.inside (by decide)
  have hv2 : coefInt c₁ 2 = coefInt c 2 := (hstep₂.outside (by decide) (by decide)).trans (hothers 2 (by decide))
  have hv3 : coefInt c₂ 3 = coefInt c 3 := ((hstep₁.outside (by decide) (by decide)).trans
    (hstep₂.outside (by decide) (by decide))).trans (hothers 3 (by decide))
  have hv4 : coefInt c₂ 4 = coefInt c 4 := ((hstep₁.outside (by decide) (by decide)).trans
    (hstep₂.outside (by decide) (by decide))).trans (hothers 4 (by decide))
  have hround8 : reRounded (pow2 (2 + 1)) (coefInt c 0) = reRounded 8 (coefInt c 0) := rfl
  rw [hfirst, hround8, hothers 1 (by decide), ← hx] at ha0 ha1
  rw [ha0, hv2, ← hy] at hb0 hb1
  rw [ha1, inverseTwo_corner two_pos] at hb2
  rw [hb0, hv3, ← hz] at hd0 hd1
  rw [hb1, hv4, ← hz'] at hd2 hd3
  rw [hb2, inverseTwo_corner one_pos] at hd4
  exact ⟨hd0, hd1, hd2, hd3, hd4⟩

/-! ## A 3×3 grid -/

/-- Forward level 0 of a 3×3 grid: all four kinds of block, and the shuffles. -/
theorem forwardStep_three_zero (h : ForwardStep 3 3 0 c c') :
    coefInt c' 0 = sumRounded 2 (coefInt c 4 + coefInt c 3 + coefInt c 1 + coefInt c 0) ∧
      coefInt c' 1 = sumRounded 2 ((coefInt c 5 + coefInt c 2) * 2) ∧
      coefInt c' 2 = diffRounded 1 (coefInt c 4 - coefInt c 3 + coefInt c 1 - coefInt c 0) ∧
      coefInt c' 3 = sumRounded 2 ((coefInt c 7 + coefInt c 6) * 2) ∧ coefInt c' 4 = coefInt c 8 * 4 ∧
      coefInt c' 5 = (coefInt c 7 - coefInt c 6) * 2 ∧
      coefInt c' 6 = diffRounded 1 (coefInt c 4 + coefInt c 3 - coefInt c 1 - coefInt c 0) ∧
      coefInt c' 7 = (coefInt c 5 - coefInt c 2) * 2 ∧
      coefInt c' 8 = coefInt c 4 - coefInt c 3 - coefInt c 1 + coefInt c 0 := by
  have h0 : coefInt c' 0 = sumRounded 2 ((coefInt c 4 + coefInt c 3 + coefInt c 1 + coefInt c 0) / 1) :=
    h.inside (i := 0) (j := 0) (by decide) (by decide)
  have h1 : coefInt c' 1 = sumRounded 2 ((coefInt c 5 + coefInt c 5 + coefInt c 2 + coefInt c 2) / 1) :=
    h.inside (i := 0) (j := 1) (by decide) (by decide)
  have h2 : coefInt c' 2 = diffRounded 1 ((coefInt c 4 - coefInt c 3 + coefInt c 1 - coefInt c 0) / 1) :=
    h.inside (i := 0) (j := 2) (by decide) (by decide)
  have h3 : coefInt c' 3 = sumRounded 2 ((coefInt c 7 + coefInt c 6 + coefInt c 7 + coefInt c 6) / 1) :=
    h.inside (i := 1) (j := 0) (by decide) (by decide)
  have h4 : coefInt c' 4 = sumRounded 2 ((coefInt c 8 + coefInt c 8 + coefInt c 8 + coefInt c 8) / 1) :=
    h.inside (i := 1) (j := 1) (by decide) (by decide)
  have h5 : coefInt c' 5 = diffRounded 1 ((coefInt c 7 - coefInt c 6 + coefInt c 7 - coefInt c 6) / 1) :=
    h.inside (i := 1) (j := 2) (by decide) (by decide)
  have h6 : coefInt c' 6 = diffRounded 1 ((coefInt c 4 + coefInt c 3 - coefInt c 1 - coefInt c 0) / 1) :=
    h.inside (i := 2) (j := 0) (by decide) (by decide)
  have h7 : coefInt c' 7 = diffRounded 1 ((coefInt c 5 + coefInt c 5 - coefInt c 2 - coefInt c 2) / 1) :=
    h.inside (i := 2) (j := 1) (by decide) (by decide)
  have h8 : coefInt c' 8 = (coefInt c 4 - coefInt c 3 - coefInt c 1 + coefInt c 0) / 1 :=
    h.inside (i := 2) (j := 2) (by decide) (by decide)
  rw [Int.ediv_one] at h0 h1 h2 h3 h4 h5 h6 h7 h8
  have hsum : ∀ x y : Int, x + x + y + y = (x + y) * 2 := fun x y => by ring
  have hsum' : ∀ x y : Int, x + y + x + y = (x + y) * 2 := fun x y => by ring
  have hdiff : ∀ x y : Int, x + x - y - y = (x - y) * 2 := fun x y => by ring
  have hdiff' : ∀ x y : Int, x - y + x - y = (x - y) * 2 := fun x y => by ring
  have hcorner : ∀ x : Int, x + x + x + x = x * 4 := fun x => by ring
  rw [hcorner, sumRounded_of_dvd two_pos (dvd_mul_left 4 _)] at h4
  rw [hdiff', diffRounded_one_of_even] at h5
  rw [hdiff, diffRounded_one_of_even] at h7
  exact ⟨h0, hsum _ _ ▸ h1, h2, hsum' _ _ ▸ h3, h4, h5, h6, h7, h8⟩

/-- Forward level 1 of a 3×3 grid: one full block. -/
theorem forwardStep_three_one (h : ForwardStep 3 3 1 c c') :
    coefInt c' 0 = sumRounded 4 ((coefInt c 4 + coefInt c 3 + coefInt c 1 + coefInt c 0) / 2) ∧
      coefInt c' 1 = diffRounded 2 ((coefInt c 4 - coefInt c 3 + coefInt c 1 - coefInt c 0) / 2) ∧
      coefInt c' 3 = diffRounded 2 ((coefInt c 4 + coefInt c 3 - coefInt c 1 - coefInt c 0) / 2) ∧
      coefInt c' 4 = (coefInt c 4 - coefInt c 3 - coefInt c 1 + coefInt c 0) / 2 :=
  ⟨h.inside (i := 0) (j := 0) (by decide) (by decide), h.inside (i := 0) (j := 1) (by decide) (by decide),
    h.inside (i := 1) (j := 0) (by decide) (by decide), h.inside (i := 1) (j := 1) (by decide) (by decide)⟩

/-- Level 1 of a 3×3 grid leaves the five words outside its 2×2 corner. -/
theorem levelStep_three_one_outside {W : Nat → Nat → Int} (h : LevelStep 3 3 1 W c c') :
    coefInt c' 2 = coefInt c 2 ∧ coefInt c' 5 = coefInt c 5 ∧ coefInt c' 6 = coefInt c 6 ∧
      coefInt c' 7 = coefInt c 7 ∧ coefInt c' 8 = coefInt c 8 :=
  ⟨h.word_outside (i := 0) (j := 2) (by decide) (by decide), h.word_outside (i := 1) (j := 2) (by decide) (by decide),
    h.word_outside (i := 2) (j := 0) (by decide) (by decide), h.word_outside (i := 2) (j := 1) (by decide) (by decide),
    h.word_outside (i := 2) (j := 2) (by decide) (by decide)⟩

theorem forwardTransform_three {A B C D : Int} (hc : c.wf = true) (hok : forwardTransform 3 3 c = .ok c')
    (hA : A = sumRounded 2 (coefInt c 4 + coefInt c 3 + coefInt c 1 + coefInt c 0))
    (hB : B = sumRounded 2 ((coefInt c 5 + coefInt c 2) * 2)) (hC : C = sumRounded 2 ((coefInt c 7 + coefInt c 6) * 2))
    (hD : D = coefInt c 8 * 4) :
    coefInt c' 0 = sumRounded 4 ((D + C + B + A) / 2) ∧ coefInt c' 1 = diffRounded 2 ((D - C + B - A) / 2) ∧
      coefInt c' 2 = diffRounded 1 (coefInt c 4 - coefInt c 3 + coefInt c 1 - coefInt c 0) ∧
      coefInt c' 3 = diffRounded 2 ((D + C - B - A) / 2) ∧ coefInt c' 4 = (D - C - B + A) / 2 ∧
      coefInt c' 5 = (coefInt c 7 - coefInt c 6) * 2 ∧
      coefInt c' 6 = diffRounded 1 (coefInt c 4 + coefInt c 3 - coefInt c 1 - coefInt c 0) ∧
      coefInt c' 7 = (coefInt c 5 - coefInt c 2) * 2 ∧
      coefInt c' 8 = coefInt c 4 - coefInt c 3 - coefInt c 1 + coefInt c 0 := by
  obtain ⟨c₁, hok₀, hok₁⟩ := bind_ok.1 hok
  have hstep₀ := (forwardLevel_ok (k := 0) hc hok₀).2
  have hstep₁ := (forwardLevel_ok (k := 1) hstep₀.wf hok₁).2
  obtain ⟨h0, h1, h2, h3, h4, h5, h6, h7, h8⟩ := forwardStep_three_zero hstep₀
  obtain ⟨k2, k5, k6, k7, k8⟩ := levelStep_three_one_outside hstep₁
  have hblock := forwardStep_three_one hstep₁
  rw [h0, h1, h3, h4, ← hA, ← hB, ← hC, ← hD] at hblock
  obtain ⟨k0, k1, k3, k4⟩ := hblock
  exact ⟨k0, k1, k2.trans h2, k3, k4, k5.trans h5, k6.trans h6, k7.trans h7, k8.trans h8⟩

/-- Inverse level 1 of a 3×3 grid: one full block. -/
theorem inverseStep_three_one {x0 x1 x2 x3 : Int} (h : LevelStep 3 3 1 (inverseValue 3 3 1 c) c c')
    (hx : (x0, x1, x2, x3) =
      inverseFour 2 2 (coefInt c 0) (coefInt c 3) (coefInt c 1) (reRoundCross 1 (coefInt c 4))) :
    coefInt c' 0 = x0 ∧ coefInt c' 1 = x1 ∧ coefInt c' 3 = x2 ∧ coefInt c' 4 = x3 := by
  have hword : ∀ i j, i < 2 → j < 2 → gridWord 3 c' i j = inverseValue 3 3 1 c i j := fun i j hi hj => h.inside hi hj
  have h0 : coefInt c' 0 = (inverseFour 2 2 (coefInt c 0) (coefInt c 3) (coefInt c 1)
      (reRoundCross 1 (coefInt c 4))).1 := hword 0 0 (by decide) (by decide)
  have h1 : coefInt c' 1 = (inverseFour 2 2 (coefInt c 0) (coefInt c 3) (coefInt c 1)
      (reRoundCross 1 (coefInt c 4))).2.1 := hword 0 1 (by decide) (by decide)
  have h3 : coefInt c' 3 = (inverseFour 2 2 (coefInt c 0) (coefInt c 3) (coefInt c 1)
      (reRoundCross 1 (coefInt c 4))).2.2.1 := hword 1 0 (by decide) (by decide)
  have h4 : coefInt c' 4 = (inverseFour 2 2 (coefInt c 0) (coefInt c 3) (coefInt c 1)
      (reRoundCross 1 (coefInt c 4))).2.2.2 := hword 1 1 (by decide) (by decide)
  rw [← hx] at h0 h1 h3 h4
  exact ⟨h0, h1, h3, h4⟩

/-- Inverse level 0 of a 3×3 grid: the unshuffles, and all four kinds of block. -/
theorem inverseStep_three_zero {z0 z1 z2 z3 z4 z5 z6 z7 : Int} (h : LevelStep 3 3 0 (inverseValue 3 3 0 c) c c')
    (hfull : (z0, z1, z3, z4) = inverseFour 1 4 (coefInt c 0) (coefInt c 6) (coefInt c 2) (coefInt c 8))
    (hcolumn : (z2, z5) = inverseTwo 1 4 (coefInt c 1) (coefInt c 7))
    (hrow : (z6, z7) = inverseTwo 1 4 (coefInt c 3) (coefInt c 5)) :
    coefInt c' 0 = z0 ∧ coefInt c' 1 = z1 ∧ coefInt c' 2 = z2 ∧ coefInt c' 3 = z3 ∧ coefInt c' 4 = z4 ∧
      coefInt c' 5 = z5 ∧ coefInt c' 6 = z6 ∧ coefInt c' 7 = z7 ∧ coefInt c' 8 = coefInt c 4 / 4 := by
  have hword : ∀ i j, i < 3 → j < 3 → gridWord 3 c' i j = inverseValue 3 3 0 c i j := fun i j hi hj => h.inside hi hj
  have h0 : coefInt c' 0 = (inverseFour 1 4 (coefInt c 0) (coefInt c 6) (coefInt c 2)
      (reRoundCross 0 (coefInt c 8))).1 := hword 0 0 (by decide) (by decide)
  have h1 : coefInt c' 1 = (inverseFour 1 4 (coefInt c 0) (coefInt c 6) (coefInt c 2)
      (reRoundCross 0 (coefInt c 8))).2.1 := hword 0 1 (by decide) (by decide)
  have h3 : coefInt c' 3 = (inverseFour 1 4 (coefInt c 0) (coefInt c 6) (coefInt c 2)
      (reRoundCross 0 (coefInt c 8))).2.2.1 := hword 1 0 (by decide) (by decide)
  have h4 : coefInt c' 4 = (inverseFour 1 4 (coefInt c 0) (coefInt c 6) (coefInt c 2)
      (reRoundCross 0 (coefInt c 8))).2.2.2 := hword 1 1 (by decide) (by decide)
  have h2 : coefInt c' 2 = (inverseFour 1 4 (coefInt c 1) (coefInt c 7) 0 (reRoundCross 0 0)).1 :=
    hword 0 2 (by decide) (by decide)
  have h5 : coefInt c' 5 = (inverseFour 1 4 (coefInt c 1) (coefInt c 7) 0 (reRoundCross 0 0)).2.2.1 :=
    hword 1 2 (by decide) (by decide)
  have h6 : coefInt c' 6 = (inverseFour 1 4 (coefInt c 3) 0 (coefInt c 5) (reRoundCross 0 0)).1 :=
    hword 2 0 (by decide) (by decide)
  have h7 : coefInt c' 7 = (inverseFour 1 4 (coefInt c 3) 0 (coefInt c 5) (reRoundCross 0 0)).2.1 :=
    hword 2 1 (by decide) (by decide)
  have h8 : coefInt c' 8 = (inverseFour 1 4 (coefInt c 4) 0 0 (reRoundCross 0 0)).1 :=
    hword 2 2 (by decide) (by decide)
  obtain ⟨hfirst, hsecond⟩ := inverseFour_columnPair one_pos 4 (coefInt c 1) (coefInt c 7)
  obtain ⟨hfirst', hsecond'⟩ := inverseFour_rowPair one_pos 4 (coefInt c 3) (coefInt c 5)
  rw [reRoundCross_level_zero] at h0 h1 h2 h3 h4 h5 h6 h7 h8
  rw [← hfull] at h0 h1 h3 h4
  rw [hfirst, ← hcolumn] at h2
  rw [hsecond, ← hcolumn] at h5
  rw [hfirst', ← hrow] at h6
  rw [hsecond', ← hrow] at h7
  rw [inverseFour_corner one_pos] at h8
  exact ⟨h0, h1, h2, h3, h4, h5, h6, h7, h8⟩

theorem inverseTransform_three {x0 x1 x2 x3 z0 z1 z2 z3 z4 z5 z6 z7 : Int} (hc : c.wf = true)
    (hok : inverseTransform 3 3 c = .ok c')
    (hx : (x0, x1, x2, x3) =
      inverseFour 2 2 (reRounded 4 (coefInt c 0)) (coefInt c 3) (coefInt c 1) (reRounded 1 (coefInt c 4)))
    (hfull : (z0, z1, z3, z4) = inverseFour 1 4 x0 (coefInt c 6) (coefInt c 2) (coefInt c 8))
    (hcolumn : (z2, z5) = inverseTwo 1 4 x1 (coefInt c 7)) (hrow : (z6, z7) = inverseTwo 1 4 x2 (coefInt c 5)) :
    coefInt c' 0 = z0 ∧ coefInt c' 1 = z1 ∧ coefInt c' 2 = z2 ∧ coefInt c' 3 = z3 ∧ coefInt c' 4 = z4 ∧
      coefInt c' 5 = z5 ∧ coefInt c' 6 = z6 ∧ coefInt c' 7 = z7 ∧ coefInt c' 8 = x3 / 4 := by
  obtain ⟨c₀, hround, hok⟩ := inverseTransform_ok (L := 1) rfl hok
  obtain ⟨c₁, hok₁, hok⟩ := bind_ok.1 hok
  obtain ⟨c₂, hok₀, hend⟩ := bind_ok.1 hok
  cases hend
  obtain ⟨hc₀, hfirst, hothers⟩ := preRound_ok hc hround
  have hstep₁ := inverseLevel_ok hc₀ hok₁
  have hstep₀ := inverseLevel_ok hstep₁.wf hok₀
  have hround4 : reRounded (pow2 (1 + 1)) (coefInt c 0) = reRounded 4 (coefInt c 0) := rfl
  have hcross : reRoundCross 1 (coefInt c 4) = reRounded 1 (coefInt c 4) := reRoundCross_level_succ 0 _
  rw [← hround4, ← hfirst, ← hcross, ← hothers 1 (by decide), ← hothers 3 (by decide), ← hothers 4 (by decide)] at hx
  obtain ⟨h0, h1, h3, h4⟩ := inverseStep_three_one hstep₁ hx
  obtain ⟨h2, h5, h6, h7, h8⟩ := levelStep_three_one_outside hstep₁
  rw [hothers _ (by decide)] at h2 h5 h6 h7 h8
  rw [← h0, ← h2, ← h6, ← h8] at hfull
  rw [← h1, ← h7] at hcolumn
  rw [← h3, ← h5] at hrow
  rw [← h4]
  exact inverseStep_three_zero hstep₀ hfull hcolumn hrow

/-! ## HTRANS and HINV of these grids -/

theorem gridDims_of_line (h : s.rows = 1 ∧ s.cols = 5 ∨ s.rows = 5 ∧ s.cols = 1) :
    IsLine 5 (gridRows s) (gridCols s) := by
  unfold IsLine gridRows gridCols
  rcases h with ⟨hrows, hcols⟩ | ⟨hrows, hcols⟩ <;> rw [hrows, hcols] <;> decide

theorem gridDims_of_three (hrows : s.rows = 3) (hcols : s.cols = 3) : gridRows s = 3 ∧ gridCols s = 3 := by
  rw [gridRows, gridCols, hrows, hcols]
  decide

theorem IsLine.size {R C : Nat} (h : IsLine n R C) : R * C = n := by
  rcases h with ⟨rfl, rfl⟩ | ⟨rfl, rfl⟩
  · exact Nat.one_mul C
  · exact Nat.mul_one R

theorem IsLine.pos {R C : Nat} (h : IsLine n R C) (hn : 0 < n) : 0 < R ∧ 0 < C := by
  rcases h with ⟨rfl, rfl⟩ | ⟨rfl, rfl⟩
  · exact ⟨Nat.one_pos, hn⟩
  · exact ⟨hn, Nat.one_pos⟩

/-- Settles O58: by the levels of five words in a line and of a 3×3 grid. -/
theorem htransOfOddGrids : Obligations.HtransOfOddGrids := by
  refine ⟨fun s v h0 h1 h hs hwf hdims hroom hv hh0 hh1 hh => ?line, fun s v A B C D hs hwf hrows hcols hroom hv hA hB
    hC hD => ?square⟩
  case line =>
    have hline := gridDims_of_line hdims
    obtain ⟨hR, hCpos⟩ := hline.pos (by decide)
    have hsize := hline.size
    obtain ⟨c, hexec, hforward, hrest⟩ := htrans_of_bound (B := 134217726) hs hwf rfl rfl hR hCpos (by omega)
      (fun a ha => (hv a (by omega)).1 ▸ (hv a (by omega)).2) (by rw [levelCount_five hline]; decide)
    have hword : ∀ p, p < 5 → v p = coefInt s.coef p := fun p hp => (hv p hp).1.symm
    simp (disch := decide) only [hword] at hh0 hh1 ⊢
    obtain ⟨h0, h1, h2, h3, h4⟩ := forwardTransform_five hline hwf hforward hh0 hh1 hh
    exact ⟨c, hexec, h0, h1, h2, h3, h4, hsize ▸ hrest⟩
  case square =>
    obtain ⟨hR, hC'⟩ := gridDims_of_three hrows hcols
    obtain ⟨c, hexec, hforward, hrest⟩ := htrans_of_bound (B := 268435454) hs hwf hR hC' (by decide) (by decide) hroom
      (fun a ha => (hv a ha).1 ▸ (hv a ha).2) (by decide)
    have hword : ∀ p, p < 9 → v p = coefInt s.coef p := fun p hp => (hv p hp).1.symm
    simp (disch := decide) only [hword] at hA hB hC hD ⊢
    obtain ⟨h0, h1, h2, h3, h4, h5, h6, h7, h8⟩ := forwardTransform_three hwf hforward hA hB hC hD
    exact ⟨c, hexec, h0, h1, h2, h3, h4, h5, h6, h7, h8, hrest⟩

/-- Settles O59: by the levels of five words in a line and of a 3×3 grid. -/
theorem hinvOfOddGrids : Obligations.HinvOfOddGrids := by
  refine ⟨fun s v x0 x1 y0 y1 z0 z1 z2 z3 hs hwf hdims hroom hv hx hy hz hz' => ?line,
    fun s v x0 x1 x2 x3 z0 z1 z2 z3 z4 z5 z6 z7 hs hwf hrows hcols hroom hv hx hfull hcolumn hrow => ?square⟩
  case line =>
    have hline := gridDims_of_line hdims
    obtain ⟨hR, hC⟩ := hline.pos (by decide)
    have hsize := hline.size
    obtain ⟨c, hexec, hinverse, hrest⟩ := hinv_of_bound hs hwf rfl rfl hR hC (by omega)
      fun a ha => (hv a (by omega)).1 ▸ (hv a (by omega)).2
    have hword : ∀ p, p < 5 → v p = coefInt s.coef p := fun p hp => (hv p hp).1.symm
    simp (disch := decide) only [hword] at hx hy hz hz'
    obtain ⟨h0, h1, h2, h3, h4⟩ := inverseTransform_five hline hwf hinverse hx hy hz hz'
    exact ⟨c, hexec, h0, h1, h2, h3, h4, hsize ▸ hrest⟩
  case square =>
    obtain ⟨hR, hC⟩ := gridDims_of_three hrows hcols
    obtain ⟨c, hexec, hinverse, hrest⟩ := hinv_of_bound hs hwf hR hC (by decide) (by decide) hroom
      fun a ha => (hv a ha).1 ▸ (hv a ha).2
    have hword : ∀ p, p < 9 → v p = coefInt s.coef p := fun p hp => (hv p hp).1.symm
    simp (disch := decide) only [hword] at hx hfull hcolumn hrow
    obtain ⟨h0, h1, h2, h3, h4, h5, h6, h7, h8⟩ := inverseTransform_three hwf hinverse hx hfull hcolumn hrow
    exact ⟨c, hexec, h0, h1, h2, h3, h4, h5, h6, h7, h8, hrest⟩

end Sys2Proof.Machine
end

section
/-! Proofs of the family `43_huffman_quadtree.md`: reads of the bit stream as readings of a given sequence of bits, and
as readings of a bounded number of bits (R112, R113); with these, HUFFSYM and TERM (R170 to R174, R182, R187). -/

namespace Sys2Proof.Machine

variable {α β : Type} {src : Source} {r : BitReader} {bits bits' : List Bool} {a : α} {b : β} {m n l v sym : Nat}
  {codes : List HuffCode} {s : State} {f : BitReader → Except ErrCode (α × BitReader)}
  {g : α → BitReader → Except ErrCode (β × BitReader)}

/-! ## Reading a given sequence of bits -/

/-- The computation, where the next bits are those of the list, reads exactly these and answers `a`. -/
def Takes (src : Source) (bits : List Bool) (a : α) (f : BitReader → Except ErrCode (α × BitReader)) : Prop :=
  ∀ r : BitReader, r.cnt.toNat ≤ 7 → streamHas src r bits → f r = .ok (a, readerAfter src r bits.length)

@[simp] theorem readerAfter_zero (src : Source) (r : BitReader) : readerAfter src r 0 = r := by simp [readerAfter]

theorem takes_pure (src : Source) (a : α) : Takes src [] a fun r => .ok (a, r) := fun r _ _ => by simp

theorem streamHas_of_append (h : streamHas src r (bits ++ bits')) : streamHas src r bits := by
  obtain ⟨hlen, hbits⟩ := h
  rw [List.length_append] at hlen hbits
  exact ⟨by omega, fun t ht => by rw [hbits t (by omega), List.getD_append _ _ _ _ ht]⟩

/-- A reading followed by another one, of the bits that come next. -/
theorem Takes.bind (hf : Takes src bits a f) (hg : Takes src bits' b (g a)) :
    Takes src (bits ++ bits') b fun r => f r >>= fun p => g p.1 p.2 := by
  intro r hcnt h
  have hlen := h.1
  rw [List.length_append] at hlen
  obtain ⟨hcnt', -, -, hreader⟩ := readerAfter_spec (src := src) bits.length hcnt (by omega)
  simp only [hf r hcnt (streamHas_of_append h), ok_bind]
  rw [hg _ hcnt' (streamHas_after_append hcnt h), hreader _ hlen, List.length_append]

theorem Takes.map (hf : Takes src bits a f) (h : α → β) :
    Takes src bits (h a) fun r => f r >>= fun p => .ok (h p.1, p.2) :=
  List.append_nil bits ▸ hf.bind (g := fun a r => .ok (h a, r)) (takes_pure src (h a))

theorem takes_getBit (b : Bool) : Takes src [b] b (getBit src) := fun r hcnt ⟨hlen, hbits⟩ => by
  rw [getBit_of_left hcnt hlen, hbits 0 Nat.one_pos]
  rfl

theorem takes_getBits (hv : v < 2 ^ n) : Takes src (valueBits v n) v (getBits src n) := fun r hcnt h => by
  rw [getBits_of_valueBits (bits := []) hcnt (by rwa [List.append_nil]), Nat.mod_eq_of_lt hv, valueBits_length]

/-! ## Reading a bounded number of bits -/

/-- The computation, where `n` bits are left, reads at most `n` and answers. -/
def ReadsAtMost (src : Source) (n : Nat) (f : BitReader → Except ErrCode (α × BitReader)) : Prop :=
  ∀ r : BitReader, r.cnt.toNat ≤ 7 → n ≤ bitsLeft src r → ∃ a m, m ≤ n ∧ f r = .ok (a, readerAfter src r m)

theorem readsAtMost_pure (src : Source) (a : α) : ReadsAtMost src 0 fun r => .ok (a, r) := fun r _ _ =>
  ⟨a, 0, le_rfl, by simp⟩

theorem ReadsAtMost.bind (hf : ReadsAtMost src m f) (hg : ∀ a, ReadsAtMost src n (g a)) :
    ReadsAtMost src (m + n) fun r => f r >>= fun p => g p.1 p.2 := by
  intro r hcnt hleft
  obtain ⟨a, m', hm, hfr⟩ := hf r hcnt (by omega)
  obtain ⟨hcnt', hleft', -, hreader⟩ := readerAfter_spec (src := src) m' hcnt (by omega)
  obtain ⟨b, n', hn, hgr⟩ := hg a (readerAfter src r m') hcnt' (by omega)
  refine ⟨b, m' + n', by omega, ?_⟩
  simp only [hfr, ok_bind]
  rw [hgr, hreader n' (by omega)]

theorem ReadsAtMost.map (hf : ReadsAtMost src n f) (h : α → β) :
    ReadsAtMost src n fun r => f r >>= fun p => .ok (h p.1, p.2) :=
  hf.bind (g := fun a r => .ok (h a, r)) fun a => readsAtMost_pure src (h a)

theorem ReadsAtMost.mono (hf : ReadsAtMost src m f) (h : m ≤ n) : ReadsAtMost src n f := fun r hcnt hleft => by
  obtain ⟨a, m', hm, hfr⟩ := hf r hcnt (by omega)
  exact ⟨a, m', by omega, hfr⟩

theorem readsAtMost_getBit (src : Source) : ReadsAtMost src 1 (getBit src) := fun _ hcnt hleft =>
  ⟨_, 1, le_rfl, getBit_of_left hcnt hleft⟩

theorem readsAtMost_getBits (src : Source) (n : Nat) : ReadsAtMost src n (getBits src n) := fun _ hcnt hleft =>
  ⟨_, n, le_rfl, getBits_of_left hcnt hleft⟩

/-! ## `HuffDecode` reads the bits of a code (R170) -/

/-- The symbol that `HuffDecode`, with the `l` bits of `v` read, answers after exactly the bits of the list. -/
def huffFollow (codes : List HuffCode) : Nat → Nat → List Bool → Option Nat
  | l, v, [] => huffLookup codes 0 v l
  | l, v, b :: bits => if huffLookup codes 0 v l = none then huffFollow codes (l + 1) (2 * v + b.toNat) bits else none

theorem huffLoop_of_found (h : huffLookup codes 0 v l = some sym) : huffLoop codes src m l v r = .ok (sym, r) := by
  cases m <;> simp only [huffLoop, h]

theorem huffLoop_of_not_found (h : huffLookup codes 0 v l = none) :
    huffLoop codes src (m + 1) l v =
      fun r => getBit src r >>= fun p => huffLoop codes src m (l + 1) (2 * v + p.1.toNat) p.2 := by
  funext r
  simp only [huffLoop, h]

theorem takes_huffLoop (hm : bits.length ≤ m) (h : huffFollow codes l v bits = some sym) :
    Takes src bits sym (huffLoop codes src m l v) := by
  induction bits generalizing m l v with
  | nil => exact fun r _ _ => by rw [huffLoop_of_found h, List.length_nil, readerAfter_zero]
  | cons b bits ih =>
    obtain ⟨m, rfl⟩ := Nat.exists_eq_add_of_le' (Nat.one_le_of_lt hm)
    unfold huffFollow at h
    split at h
    case isFalse => cases h
    case isTrue hnone =>
      rw [huffLoop_of_not_found hnone]
      exact (takes_getBit b).bind (g := fun b => huffLoop codes src m (l + 1) (2 * v + b.toNat))
        (ih (Nat.le_of_succ_le_succ hm) h)

/-- The first bits of a value, then the rest. -/
theorem valueBits_add (v m n : Nat) : valueBits v (m + n) = valueBits (v / 2 ^ n) m ++ valueBits v n := by
  induction m with
  | zero => rw [Nat.zero_add, valueBits, List.nil_append]
  | succ m ih => rw [Nat.succ_add, valueBits, ih, valueBits, Nat.testBit_div_two_pow, List.cons_append]

/-- The code is one of 3 to 6 bits that `HuffDecode` follows to the symbol. -/
abbrev LeadsTo (codes : List HuffCode) (c : HuffCode) (sym : Nat) : Prop :=
  3 ≤ c.len ∧ c.len ≤ 6 ∧ c.code / 2 ^ (c.len - 3) < 8 ∧
    huffFollow codes 3 (c.code / 2 ^ (c.len - 3)) (valueBits c.code (c.len - 3)) = some sym

theorem takes_huffDecode (h : LeadsTo codes (codes.getD sym ⟨0, 0⟩) sym) :
    Takes src (huffBits codes sym) sym (huffDecode codes src) := by
  obtain ⟨h3, h6, hfirst, hfollow⟩ := h
  obtain ⟨n, hn⟩ := Nat.exists_eq_add_of_le h3
  rw [hn, Nat.add_sub_cancel_left] at hfirst hfollow
  rw [huffBits, hn, valueBits_add]
  exact (takes_getBits hfirst).bind (takes_huffLoop (by rw [valueBits_length]; omega) hfollow)

/-! ## `HuffDecode` with a complete table (R187) -/

/-- Whatever at most `m` bits come after the `l` bits of `v`, a code is found. -/
def huffCovers (codes : List HuffCode) : Nat → Nat → Nat → Bool
  | 0, l, v => (huffLookup codes 0 v l).isSome
  | m + 1, l, v => (huffLookup codes 0 v l).isSome ||
    (huffCovers codes m (l + 1) (2 * v) && huffCovers codes m (l + 1) (2 * v + 1))

/-- A table with a code for whatever bits come never raises FORMAT. -/
theorem huffLoop_error_of_covers {e : ErrCode} (hc : huffCovers codes m l v = true)
    (h : huffLoop codes src m l v r = .error e) : e = .truncated := by
  induction m generalizing l v r with
  | zero =>
    obtain ⟨sym, hsym⟩ := Option.isSome_iff_exists.1 hc
    rw [huffLoop_of_found hsym] at h
    cases h
  | succ m ih =>
    cases hlook : huffLookup codes 0 v l with
    | some sym =>
      rw [huffLoop_of_found hlook] at h
      cases h
    | none =>
      rw [huffLoop_of_not_found hlook] at h
      simp only [huffCovers, hlook, Option.isSome_none, Bool.false_or, Bool.and_eq_true] at hc
      rcases bind_error.1 h with h | ⟨⟨b, r'⟩, -, h⟩
      · exact getBit_error h
      · cases b with
        | false => exact ih hc.1 h
        | true => exact ih hc.2 h

/-- A table with a code for whatever bits come answers within them. -/
theorem readsAtMost_huffLoop (hc : huffCovers codes m l v = true) : ReadsAtMost src m (huffLoop codes src m l v) := by
  induction m generalizing l v with
  | zero =>
    obtain ⟨sym, hsym⟩ := Option.isSome_iff_exists.1 hc
    exact fun r _ _ => ⟨sym, 0, le_rfl, by rw [huffLoop_of_found hsym, readerAfter_zero]⟩
  | succ m ih =>
    cases hlook : huffLookup codes 0 v l with
    | some sym => exact fun r _ _ => ⟨sym, 0, Nat.zero_le _, by rw [huffLoop_of_found hlook, readerAfter_zero]⟩
    | none =>
      simp only [huffCovers, hlook, Option.isSome_none, Bool.false_or, Bool.and_eq_true] at hc
      rw [huffLoop_of_not_found hlook, Nat.add_comm m 1]
      refine (readsAtMost_getBit src).bind (g := fun b => huffLoop codes src m (l + 1) (2 * v + b.toNat)) fun b => ?_
      cases b with
      | false => exact ih hc.1
      | true => exact ih hc.2

theorem huffLookup_lt (h : huffLookup codes n v l = some sym) : sym < n + codes.length := by
  induction codes generalizing n with
  | nil => cases h
  | cons c codes ih =>
    rw [List.length_cons]
    unfold huffLookup at h
    split at h
    · cases h
      omega
    · have := ih h
      omega

/-- What `HuffDecode` answers is one of the table's symbols. -/
theorem huffLoop_lt {p : Nat × BitReader} (h : huffLoop codes src m l v r = .ok p) : p.1 < codes.length := by
  induction m generalizing l v r with
  | zero =>
    cases hlook : huffLookup codes 0 v l with
    | some sym =>
      rw [huffLoop_of_found hlook] at h
      cases h
      simpa using huffLookup_lt hlook
    | none => simp [huffLoop, hlook] at h
  | succ m ih =>
    cases hlook : huffLookup codes 0 v l with
    | some sym =>
      rw [huffLoop_of_found hlook] at h
      cases h
      simpa using huffLookup_lt hlook
    | none =>
      rw [huffLoop_of_not_found hlook] at h
      obtain ⟨q, -, h⟩ := bind_ok.1 h
      exact ih h

/-! ## The named tables (R172, R173) -/

/-- The table is one of the two the spec names (R171). -/
abbrev NamedTable (t : HuffTable) : Prop := t = .docDefault ∨ t = .hcompress

variable {t : HuffTable}

theorem NamedTable.length_codes (h : NamedTable t) : (huffCodes t).length = 16 := by
  rcases h with rfl | rfl <;> rfl

theorem NamedTable.takes (h : NamedTable t) (hsym : sym < 16) :
    Takes src (huffBits (huffCodes t) sym) sym (huffDecode (huffCodes t) src) := by
  have hcodes : ∀ sym < 16, LeadsTo (huffCodes t) ((huffCodes t).getD sym ⟨0, 0⟩) sym := by
    rcases h with rfl | rfl
    · decide
    · decide
  exact takes_huffDecode (hcodes sym hsym)

/-- The named tables are complete (R187). -/
theorem NamedTable.covers (h : NamedTable t) (hv : v < 8) : huffCovers (huffCodes t) 3 3 v = true := by
  rcases h with rfl | rfl
  · revert v
    decide
  · revert v
    decide

theorem streamValue_lt (src : Source) (r : BitReader) (t n : Nat) : streamValue src r t n < 2 ^ n := by
  induction n with
  | zero => exact Nat.one_pos
  | succ n ih =>
    have := Bool.toNat_le (streamBit src r (t + n))
    rw [streamValue, Nat.pow_succ]
    omega

/-- With a named table `HuffDecode` raises nothing but TRUNCATED (R187). -/
theorem NamedTable.error (h : NamedTable t) (hcnt : r.cnt.toNat ≤ 7) {e : ErrCode}
    (he : huffDecode (huffCodes t) src r = .error e) : e = .truncated := by
  by_cases hleft : 3 ≤ bitsLeft src r
  · rw [huffDecode, getBits_of_left hcnt hleft, ok_bind] at he
    exact huffLoop_error_of_covers (h.covers (streamValue_lt src r 0 3)) he
  · rw [huffDecode, getBits, getBitsFrom_of_short 3 0 hcnt (by omega), error_bind] at he
    cases he
    rfl

/-- With a named table and six bits left `HuffDecode` answers a symbol after 3 to 6 bits (R187). -/
theorem NamedTable.completes (h : NamedTable t) (hcnt : r.cnt.toNat ≤ 7) (hleft : 6 ≤ bitsLeft src r) :
    ∃ sym n, sym < 16 ∧ 3 ≤ n ∧ n ≤ 6 ∧ huffDecode (huffCodes t) src r = .ok (sym, readerAfter src r n) := by
  obtain ⟨hcnt', hleft', -, hreader⟩ := readerAfter_spec (src := src) 3 hcnt (by omega)
  have hcovers := h.covers (streamValue_lt src r 0 3)
  obtain ⟨sym, n, hn, hloop⟩ := readsAtMost_huffLoop (src := src) hcovers _ hcnt' (by omega)
  refine ⟨sym, 3 + n, h.length_codes ▸ huffLoop_lt hloop, by omega, by omega, ?_⟩
  rw [huffDecode, getBits_of_left hcnt (by omega), ok_bind, hloop, hreader n (by omega)]

theorem NamedTable.readsAtMost (h : NamedTable t) (src : Source) :
    ReadsAtMost src 6 (huffDecode (huffCodes t) src) := fun _ hcnt hleft => by
  obtain ⟨sym, n, -, -, hn, hdecode⟩ := h.completes hcnt hleft
  exact ⟨sym, n, hn, hdecode⟩

/-! ## HUFFSYM (R174) -/

/-- HUFFSYM's pseudocode. -/
def huffsymBody (s : State) : Except ErrCode State :=
  huffDecode (huffCodes s.params.huffTable) (source s) s.rd >>= fun p =>
    .ok { s with rd := p.2, result := BitVec.ofNat 32 p.1 }

theorem exec_huffsym : exec .huffsym s = submit 0x40 { reader := true } noCheck huffsymBody s := rfl

theorem huffsymBody_accept {op : BitVec 8} : huffsymBody (accept op s) =
    huffDecode (huffCodes s.params.huffTable) (source s) s.rd >>= fun p =>
      .ok (accept op { s with rd := p.2, result := BitVec.ofNat 32 p.1 }) :=
  rfl

theorem exec_huffsym_of_ok {p : Nat × BitReader} (hs : s.err = .none)
    (h : huffDecode (huffCodes s.params.huffTable) (source s) s.rd = .ok p) :
    exec .huffsym s = .next (finished 0x40 { s with rd := p.2, result := BitVec.ofNat 32 p.1 }) := by
  rw [exec_huffsym]
  exact submit_finished hs rfl (by rw [huffsymBody_accept, h, ok_bind])

theorem exec_huffsym_of_error {e : ErrCode} (hs : s.err = .none)
    (h : huffDecode (huffCodes s.params.huffTable) (source s) s.rd = .error e) :
    ∃ t, exec .huffsym s = .next t ∧ t.err = e := by
  rw [exec_huffsym]
  exact submit_raises_err hs rfl (by rw [huffsymBody_accept, h, error_bind])
    ((yields_iff.1 (huffDecode_reads _)).2 e h).ne_early.1

/-- Settles O40: the code of a symbol is followed bit by bit to the symbol. -/
theorem huffsymDecodesEachCode : Obligations.HuffsymDecodesEachCode := fun s _ hs hcnt hnamed hsym h =>
  exec_huffsym_of_ok hs (NamedTable.takes hnamed hsym s.rd hcnt h)

/-- Settles O41: the named tables are complete. -/
theorem namedTablesNeverRaiseFormat : Obligations.NamedTablesNeverRaiseFormat := by
  refine fun s hs hcnt hnamed => ⟨fun t hexec hformat => ?format, fun hleft => ?completes⟩
  case format =>
    cases hdecode : huffDecode (huffCodes s.params.huffTable) (source s) s.rd with
    | ok p =>
      cases (exec_huffsym_of_ok hs hdecode).symm.trans hexec
      cases hs.symm.trans hformat
    | error e =>
      obtain ⟨t', hexec', rfl⟩ := exec_huffsym_of_error hs hdecode
      cases hexec'.symm.trans hexec
      cases (NamedTable.error hnamed hcnt hdecode).symm.trans hformat
  case completes =>
    obtain ⟨sym, n, hsym, h3, h6, hdecode⟩ := NamedTable.completes hnamed hcnt hleft
    exact ⟨sym, n, hsym, h3, h6, exec_huffsym_of_ok hs hdecode⟩

/-! ## TERM (R182) -/

/-- TERM's pseudocode after acceptance. -/
def termBody (s : State) : Except ErrCode State :=
  getBits (source s) 4 s.rd >>= fun p => if p.1 ≠ 0 then .error .format else .ok { s with rd := p.2 }

theorem exec_term : exec .term s = submit 0x42 { reader := true } noCheck termBody s := rfl

theorem termBody_of_left {op : BitVec 8} (hcnt : s.rd.cnt.toNat ≤ 7) (hleft : 4 ≤ bitsLeft (source s) s.rd) :
    termBody (accept op s) = if streamValue (source s) s.rd 0 4 ≠ 0 then .error .format
      else .ok (accept op { s with rd := readerAfter (source s) s.rd 4 }) := by
  change getBits (source s) 4 s.rd >>= _ = _
  rw [getBits_of_left hcnt hleft]
  rfl

/-- Settles O46: four bits are left, and then are all 0 or not, or fewer are left. -/
theorem termChecksFourZeroBits : Obligations.TermChecksFourZeroBits := by
  simp only [Obligations.TermChecksFourZeroBits, exec_term]
  refine ⟨decode_ok.2 ⟨rfl, rfl⟩, fun s hs hcnt => ⟨fun hleft hzero => ?zero, fun hleft hother => ?format,
    fun hshort => ?truncated⟩⟩
  case zero => exact submit_finished hs rfl ((termBody_of_left hcnt hleft).trans (if_neg (not_not.2 hzero)))
  case format => exact submit_raises_err hs rfl ((termBody_of_left hcnt hleft).trans (if_pos hother)) (by decide)
  case truncated =>
    exact submit_raises_err hs rfl (bind_error.2 (.inl (getBitsFrom_of_short 4 0 hcnt hshort))) (by decide)

end Sys2Proof.Machine
end

section
/-! Proofs of the family `43_huffman_quadtree.md`: the code arrays of a bit-plane, as its encoder writes them, are read
back in either form and with either flag (R175 to R179, R181); and with a named table and the one-bit flag no plane
reads more than the codes of all its levels. -/

namespace Sys2Proof.Machine

variable {α : Type} {src : Source} {codes : List HuffCode} {t : HuffTable} {h w i j m n : Nat} {b : Nat → Nat → Bool}

/-! ## Arrays in raster order -/

/-- The values of `f` on an array of `h` rows of `w`, in raster order. -/
def raster (h w : Nat) (f : Nat → Nat → α) : List α := (List.range (h * w)).map fun k => f (k / w) (k % w)

theorem raster_length (h w : Nat) (f : Nat → Nat → α) : (raster h w f).length = h * w := by
  rw [raster, List.length_map, List.length_range]

theorem raster_getD (f : Nat → Nat → Nat) (hi : i < h) (hj : j < w) : (raster h w f).getD (i * w + j) 0 = f i j := by
  have hk := cell_lt hi hj
  rw [raster, List.getD_eq_getElem _ _ (by simpa using hk), List.getElem_map, List.getElem_range, cell_div hj,
    cell_mod hj]

/-- A loop over the rows and one over each row's cells take the array in raster order. -/
theorem flatMap_rows {β : Type} (f : Nat → Nat → α) (g : α → List β) :
    ((List.range h).flatMap fun i => (List.range w).flatMap fun j => g (f i j)) = (raster h w f).flatMap g := by
  induction h with
  | zero => simp [raster]
  | succ h ih =>
    have hrow : (List.range w).flatMap (fun j => g (f h j)) =
        (List.range w).flatMap fun j => g (f ((h * w + j) / w) ((h * w + j) % w)) :=
      List.flatMap_congr fun j hj => by rw [cell_div (List.mem_range.1 hj), cell_mod (List.mem_range.1 hj)]
    rw [List.range_succ, List.flatMap_append, ih, List.flatMap_singleton, hrow, raster, raster, Nat.succ_mul,
      List.range_add, List.map_append, List.flatMap_append, List.map_map,
      List.flatMap_map (α := Nat) (l := List.range w)]
    rfl

/-! ## Blocks of a plane and their codes (R176) -/

theorem blockAny_iff : blockAny h w b m i j = true ↔
    ∃ y x, y / 2 ^ m = i ∧ x / 2 ^ m = j ∧ y < h ∧ x < w ∧ b y x = true := by
  simp only [blockAny, List.any_eq_true, List.mem_range, Bool.and_eq_true, decide_eq_true_eq]
  constructor
  · rintro ⟨y, hy, x, hx, ⟨hyh, hxw⟩, hb⟩
    exact ⟨i * 2 ^ m + y, j * 2 ^ m + x, cell_div hy, cell_div hx, hyh, hxw, hb⟩
  · rintro ⟨y, x, rfl, rfl, hy, hx, hb⟩
    have hpow := Nat.two_pow_pos m
    refine ⟨y % 2 ^ m, Nat.mod_lt _ hpow, x % 2 ^ m, Nat.mod_lt _ hpow, ?_⟩
    rw [Nat.div_add_mod', Nat.div_add_mod']
    exact ⟨⟨hy, hx⟩, hb⟩

/-- A cell is a block of its own. -/
theorem blockAny_zero (hi : i < h) (hj : j < w) : blockAny h w b 0 i j = b i j := by simp [blockAny, hi, hj]

/-- A block with a bit set lies in a larger one with a bit set. -/
theorem blockAny_succ (hany : blockAny h w b m i j = true) : blockAny h w b (m + 1) (i / 2) (j / 2) = true := by
  obtain ⟨y, x, rfl, rfl, hy, hx, hb⟩ := blockAny_iff.1 hany
  refine blockAny_iff.2 ⟨y, x, ?_, ?_, hy, hx, hb⟩ <;> rw [Nat.pow_succ, Nat.div_div_eq_div_mul]

/-- The bits of a code, one for each of the four blocks it covers. -/
theorem fourBits_testBit (b₃ b₂ b₁ b₀ : Bool) :
    (8 * b₃.toNat + 4 * b₂.toNat + 2 * b₁.toNat + b₀.toNat).testBit 3 = b₃ ∧
      (8 * b₃.toNat + 4 * b₂.toNat + 2 * b₁.toNat + b₀.toNat).testBit 2 = b₂ ∧
      (8 * b₃.toNat + 4 * b₂.toNat + 2 * b₁.toNat + b₀.toNat).testBit 1 = b₁ ∧
      (8 * b₃.toNat + 4 * b₂.toNat + 2 * b₁.toNat + b₀.toNat).testBit 0 = b₀ := by
  revert b₃ b₂ b₁ b₀
  decide

/-- Each bit of a block's code is that of one of the four blocks of the next finer level. -/
theorem nodeCode_testBit {y x : Nat} (hy : y < 2) (hx : x < 2) :
    (nodeCode h w b m i j).testBit (3 - 2 * y - x) = blockAny h w b m (2 * i + y) (2 * j + x) := by
  obtain ⟨h3, h2, h1, h0⟩ := fourBits_testBit (blockAny h w b m (2 * i) (2 * j)) (blockAny h w b m (2 * i) (2 * j + 1))
    (blockAny h w b m (2 * i + 1) (2 * j)) (blockAny h w b m (2 * i + 1) (2 * j + 1))
  interval_cases y <;> interval_cases x
  exacts [h3, h2, h1, h0]

theorem nodeCode_lt (h w : Nat) (b : Nat → Nat → Bool) (m i j : Nat) : nodeCode h w b m i j < 16 := by
  have h3 := Bool.toNat_le (blockAny h w b m (2 * i) (2 * j))
  have h2 := Bool.toNat_le (blockAny h w b m (2 * i) (2 * j + 1))
  have h1 := Bool.toNat_le (blockAny h w b m (2 * i + 1) (2 * j))
  have h0 := Bool.toNat_le (blockAny h w b m (2 * i + 1) (2 * j + 1))
  unfold nodeCode
  omega

/-- The code of a block with no bit set. -/
theorem nodeCode_of_blockAny (hany : blockAny h w b (m + 1) i j = false) : nodeCode h w b m i j = 0 := by
  have hchild : ∀ y x, y / 2 = i → x / 2 = j → blockAny h w b m y x = false := fun y x hy hx =>
    Bool.eq_false_iff.2 fun hc => by
      have hbig := blockAny_succ hc
      rw [hy, hx, hany] at hbig
      cases hbig
  rw [nodeCode, hchild _ _ (by omega) (by omega), hchild _ _ (by omega) (by omega), hchild _ _ (by omega) (by omega),
    hchild _ _ (by omega) (by omega)]
  rfl

/-! ## The code arrays of a plane (R175) -/

/-- The code array whose codes cover blocks of 2^(m+1) by 2^(m+1) cells. -/
def levelArray (h w : Nat) (b : Nat → Nat → Bool) (m : Nat) : CodeArray :=
  ⟨ceilShift w (m + 1), raster (ceilShift h (m + 1)) (ceilShift w (m + 1)) (nodeCode h w b m)⟩

theorem half_lt_ceilShift (hi : i < ceilShift n m) : i / 2 < ceilShift n (m + 1) := by
  rw [ceilShift_succ]
  unfold ceilShift at *
  omega

theorem codeBit_levelArray (hi : i < ceilShift h m) (hj : j < ceilShift w m) :
    codeBit (levelArray h w b m) i j = blockAny h w b m i j := by
  rw [codeBit, CodeArray.at, levelArray, raster_getD _ (half_lt_ceilShift hi) (half_lt_ceilShift hj),
    nodeCode_testBit (Nat.mod_lt _ two_pos) (Nat.mod_lt _ two_pos), Nat.div_add_mod, Nat.div_add_mod]

/-- The finest array gives the plane's own bits. -/
theorem codeBit_levelArray_zero (hi : i < h) (hj : j < w) : codeBit (levelArray h w b 0) i j = b i j := by
  rw [codeBit_levelArray (by rwa [ceilShift_zero]) (by rwa [ceilShift_zero]), blockAny_zero hi hj]

theorem le_clog2From {fuel L : Nat} (hn : n ≤ 2 ^ (L + fuel)) : n ≤ 2 ^ clog2From fuel L n := by
  induction fuel generalizing L with
  | zero => exact hn
  | succ fuel ih =>
    unfold clog2From
    split
    · assumption
    · exact ih (by rwa [Nat.add_right_comm])

/-- The root covers the whole quadrant. -/
theorem le_two_pow_codeLevels (h w : Nat) : max h w ≤ 2 ^ codeLevels h w :=
  (le_clog2From (by rw [Nat.zero_add]; exact Nat.lt_two_pow_self.le)).trans
    (Nat.pow_le_pow_right two_pos (le_max_right _ _))

theorem ceilShift_eq_one (hn : 1 ≤ n) (hm : n ≤ 2 ^ m) : ceilShift n m = 1 :=
  Nat.div_eq_of_lt_le (by omega) (by omega)

theorem codeLevels_eq (h w : Nat) : codeLevels h w - 1 + 1 = codeLevels h w :=
  Nat.sub_add_cancel (le_max_left _ _)

theorem ceilShift_codeLevels (hh : 1 ≤ h) (hw : 1 ≤ w) :
    ceilShift h (codeLevels h w - 1 + 1) = 1 ∧ ceilShift w (codeLevels h w - 1 + 1) = 1 := by
  have hle := le_two_pow_codeLevels h w
  rw [codeLevels_eq]
  exact ⟨ceilShift_eq_one hh (by omega), ceilShift_eq_one hw (by omega)⟩

/-- The root's array. -/
theorem levelArray_root (hh : 1 ≤ h) (hw : 1 ≤ w) : levelArray h w b (codeLevels h w - 1) =
    ⟨1, [nodeCode h w b (codeLevels h w - 1) 0 0]⟩ := by
  obtain ⟨hh1, hw1⟩ := ceilShift_codeLevels hh hw
  rw [levelArray, hh1, hw1]
  rfl

/-! ## Reading a plane that its encoder wrote -/

/-- One level below its parent, the positions in reverse raster order (R178). -/
theorem takes_readLevel {parent : CodeArray} {width idx : Nat} (ht : NamedTable t)
    (hparent : ∀ k < idx, codeBit parent (k / width) (k % width) = blockAny h w b (m + 1) (k / width) (k % width))
    (acc : List Nat) :
    Takes src (levelBits (huffCodes t) h w b m width idx)
      (((List.range idx).map fun k => nodeCode h w b m (k / width) (k % width)) ++ acc)
      (readLevel (huffCodes t) src parent width idx acc) := by
  induction idx generalizing acc with
  | zero => exact takes_pure src acc
  | succ idx ih =>
    have hrest := ih fun k hk => hparent k (by omega)
    simp only [readLevel, hparent idx (Nat.lt_succ_self idx), levelBits, List.range_succ, List.map_append,
      List.append_assoc]
    cases hany : blockAny h w b (m + 1) (idx / width) (idx % width) with
    | false =>
      rw [List.map_singleton, nodeCode_of_blockAny hany]
      exact hrest (0 :: acc)
    | true =>
      exact (ht.takes (nodeCode_lt h w b m _ _)).bind
        (g := fun c => readLevel (huffCodes t) src parent width idx (c :: acc)) (hrest _)

/-- All the levels below one of them, the coarsest first. -/
theorem takes_expandLevels (ht : NamedTable t) (m : Nat) :
    Takes src (levelsBits (huffCodes t) h w b m) (levelArray h w b 0)
      (expandLevels (huffCodes t) src h w m (levelArray h w b m)) := by
  induction m with
  | zero => exact takes_pure src _
  | succ m ih =>
    have hparent : ∀ k < ceilShift h (m + 1) * ceilShift w (m + 1),
        codeBit (levelArray h w b (m + 1)) (k / ceilShift w (m + 1)) (k % ceilShift w (m + 1)) =
          blockAny h w b (m + 1) (k / ceilShift w (m + 1)) (k % ceilShift w (m + 1)) := fun k hk =>
      codeBit_levelArray (Nat.div_lt_of_lt_mul (Nat.mul_comm _ _ ▸ hk))
        (Nat.mod_lt _ (Nat.pos_of_mul_pos_left (Nat.zero_lt_of_lt hk)))
    have hlevel := takes_readLevel (src := src) ht hparent []
    rw [List.append_nil] at hlevel
    exact hlevel.bind (g := fun l => expandLevels (huffCodes t) src h w m ⟨ceilShift w (m + 1), l⟩) ih

theorem takes_decodeQuadtreePlane (ht : NamedTable t) (hh : 1 ≤ h) (hw : 1 ≤ w) :
    Takes src (planeBits (huffCodes t) h w b) (levelArray h w b 0) (decodeQuadtreePlane (huffCodes t) src h w) := by
  have hlevels := takes_expandLevels (src := src) (h := h) (w := w) (b := b) ht (codeLevels h w - 1)
  rw [levelArray_root hh hw] at hlevels
  exact (ht.takes (nodeCode_lt h w b _ 0 0)).bind
    (g := fun c => expandLevels (huffCodes t) src h w (codeLevels h w - 1) ⟨1, [c]⟩) hlevels

theorem takes_readNybbles {l : List Nat} (hl : ∀ v ∈ l, v < 16) :
    Takes src (l.flatMap fun v => valueBits v 4) l (readNybbles src l.length) := by
  induction l with
  | nil => exact takes_pure src []
  | cons v l ih =>
    obtain ⟨hv, hl⟩ := List.forall_mem_cons.1 hl
    exact (takes_getBits (n := 4) hv).bind
      (g := fun v r => readNybbles src l.length r >>= fun q => .ok (v :: q.1, q.2)) ((ih hl).map (v :: ·))

theorem takes_decodeDirectPlane (src : Source) (h w : Nat) (b : Nat → Nat → Bool) :
    Takes src (directBits h w b) (levelArray h w b 0) (decodeDirectPlane src h w) := by
  have hcodes : ∀ v ∈ raster (ceilShift h 1) (ceilShift w 1) (nodeCode h w b 0), v < 16 := fun v hv => by
    obtain ⟨k, -, rfl⟩ := List.mem_map.1 hv
    exact nodeCode_lt h w b 0 _ _
  have hread := (takes_readNybbles (src := src) hcodes).map fun l => (⟨ceilShift w 1, l⟩ : CodeArray)
  rw [raster_length, ← flatMap_rows] at hread
  exact hread

theorem takes_readPlaneFlag (src : Source) (wide quadtree : Bool) :
    Takes src (flagBits wide quadtree) quadtree (readPlaneFlag wide src) := by
  cases wide with
  | false => exact takes_getBit quadtree
  | true =>
    intro r hcnt hhas
    cases quadtree with
    | false =>
      have hread : getBits src 4 r = _ := takes_getBits (src := src) (n := 4) (v := 0) (by decide) r hcnt hhas
      simp only [readPlaneFlag, if_true, hread, ok_bind]
      rfl
    | true =>
      have hread : getBits src 4 r = _ := takes_getBits (src := src) (n := 4) (v := 15) (by decide) r hcnt hhas
      simp only [readPlaneFlag, if_true, hread, ok_bind]
      rfl

/-- A plane is its flag and then its codes in the form of the flag (R181). -/
theorem takes_decodePlane {wide quadtree : Bool} {bits : List Bool} {g : CodeArray}
    (hg : Takes src bits g (if quadtree then decodeQuadtreePlane codes src h w else decodeDirectPlane src h w)) :
    Takes src (flagBits wide quadtree ++ bits) g (decodePlane codes wide src h w) := by
  have hplane := (takes_readPlaneFlag src wide quadtree).bind
    (g := fun f => if f then decodeQuadtreePlane codes src h w else decodeDirectPlane src h w) hg
  intro r hcnt hhas
  rw [← hplane r hcnt hhas, decodePlane]
  congr 1
  funext f
  exact (ite_apply (P := f.1 = true) _ _ _).symm

/-! ## How many bits a plane can take -/

theorem readsAtMost_readLevel (ht : NamedTable t) (src : Source) (parent : CodeArray) (width idx : Nat)
    (acc : List Nat) : ReadsAtMost src (6 * idx) (readLevel (huffCodes t) src parent width idx acc) := by
  induction idx generalizing acc with
  | zero => exact readsAtMost_pure src acc
  | succ idx ih =>
    cases hbit : codeBit parent (idx / width) (idx % width) with
    | false =>
      simp only [readLevel, hbit]
      exact (ih (0 :: acc)).mono (by omega)
    | true =>
      simp only [readLevel, hbit, Nat.mul_succ, Nat.add_comm (6 * idx)]
      exact (ht.readsAtMost src).bind (g := fun c => readLevel (huffCodes t) src parent width idx (c :: acc))
        fun c => ih (c :: acc)

/-- How many codes the finest `m` levels of a plane can hold (R175). -/
def levelCodes (h w m : Nat) : Nat := ((List.range m).map fun m => ceilShift h (m + 1) * ceilShift w (m + 1)).sum

theorem levelCodes_succ (h w m : Nat) :
    levelCodes h w (m + 1) = levelCodes h w m + ceilShift h (m + 1) * ceilShift w (m + 1) :=
  List.sum_range_succ _ m

theorem readsAtMost_expandLevels (ht : NamedTable t) (src : Source) (h w m : Nat) (parent : CodeArray) :
    ReadsAtMost src (6 * levelCodes h w m) (expandLevels (huffCodes t) src h w m parent) := by
  induction m generalizing parent with
  | zero => exact readsAtMost_pure src parent
  | succ m ih =>
    rw [levelCodes_succ, Nat.mul_add, Nat.add_comm]
    exact (readsAtMost_readLevel ht src parent _ _ []).bind
      (g := fun l => expandLevels (huffCodes t) src h w m ⟨ceilShift w (m + 1), l⟩) fun l => ih _

theorem readsAtMost_readNybbles (src : Source) (n : Nat) : ReadsAtMost src (4 * n) (readNybbles src n) := by
  induction n with
  | zero => exact readsAtMost_pure src []
  | succ n ih =>
    rw [Nat.mul_succ, Nat.add_comm]
    exact (readsAtMost_getBits src 4).bind
      (g := fun v r => readNybbles src n r >>= fun q => .ok (v :: q.1, q.2)) fun v => ih.map (v :: ·)

theorem planeCodes_eq_root (hh : 1 ≤ h) (hw : 1 ≤ w) : planeCodes h w = levelCodes h w (codeLevels h w - 1) + 1 := by
  obtain ⟨hh1, hw1⟩ := ceilShift_codeLevels hh hw
  have hsucc := levelCodes_succ h w (codeLevels h w - 1)
  rwa [hh1, hw1, codeLevels_eq] at hsucc

theorem finest_le_planeCodes (h w : Nat) : ceilShift h 1 * ceilShift w 1 ≤ planeCodes h w :=
  List.le_sum_of_mem (List.mem_map.2 ⟨0, List.mem_range.2 (Nat.lt_of_lt_of_le Nat.one_pos (le_max_left _ _)), rfl⟩)

/-- With a named table and the one-bit flag a plane reads at most its flag and 6 bits for each code of its levels. -/
theorem readsAtMost_decodePlane (ht : NamedTable t) (src : Source) (hh : 1 ≤ h) (hw : 1 ≤ w) :
    ReadsAtMost src (1 + 6 * planeCodes h w) (decodePlane (huffCodes t) false src h w) := by
  refine (readsAtMost_getBit src).bind
    (g := fun f r => if f then decodeQuadtreePlane (huffCodes t) src h w r else decodeDirectPlane src h w r) fun f => ?_
  cases f with
  | true =>
    rw [planeCodes_eq_root hh hw, Nat.mul_succ, Nat.add_comm]
    exact (ht.readsAtMost src).bind
      (g := fun c => expandLevels (huffCodes t) src h w (codeLevels h w - 1) ⟨1, [c]⟩)
      fun c => readsAtMost_expandLevels ht src h w _ _
  | false =>
    have hdirect := (readsAtMost_readNybbles src (ceilShift h 1 * ceilShift w 1)).map
      fun l => (⟨ceilShift w 1, l⟩ : CodeArray)
    have hle := finest_le_planeCodes h w
    exact hdirect.mono (by omega)

end Sys2Proof.Machine
end

section
/-! Proofs of the family `43_huffman_quadtree.md`: QTDEC as setting bits of COEF (R180). A plane sets one bit of the
words its finest codes name; the planes are read one after another; with what a plane's reading answers this gives each
statement about QTDEC. -/

namespace Sys2Proof.Machine

variable {c c' c'' : Memory 32} {T T' : Nat → Nat → Prop} {src : Source} {r : BitReader} {d : Quadrant}
  {g : Nat → CodeArray} {a i j n p v C : Nat} {codes : List HuffCode} {wide : Bool} {bits : Nat → List Bool}
  {s : State} {q : BitVec 2}

/-! ## Setting bits of COEF -/

/-- `c'` is `c` with bit `t` of word `a` set wherever `T a t`, in canonical form. -/
structure SetsBits (T : Nat → Nat → Prop) (c c' : Memory 32) : Prop where
  wf : c'.wf = true
  bit : ∀ a t, (c'.read a).getLsbD t = true ↔ (c.read a).getLsbD t = true ∨ T a t

theorem SetsBits.refl (hc : c.wf = true) : SetsBits (fun _ _ => False) c c := ⟨hc, fun _ _ => (or_iff_left id).symm⟩

theorem SetsBits.trans (h : SetsBits T c c') (h' : SetsBits T' c' c'') : SetsBits (fun a t => T a t ∨ T' a t) c c'' :=
  ⟨h'.wf, fun a t => by rw [h'.bit, h.bit, or_assoc]⟩

theorem SetsBits.congr (h : SetsBits T c c') (hT : ∀ a t, T a t ↔ T' a t) : SetsBits T' c c' :=
  ⟨h.wf, fun a t => (h.bit a t).trans (or_congr_right (hT a t))⟩

/-- A word none of whose bits is set keeps its value. -/
theorem SetsBits.read_of_not (h : SetsBits T c c') (ha : ∀ t, ¬ T a t) : c'.read a = c.read a :=
  BitVec.eq_of_getLsbD_eq fun t _ => Bool.eq_iff_iff.2 ((h.bit a t).trans (or_iff_left (ha t)))

theorem setsBits_write (hc : c.wf = true) (hp : p < 32) (x : Nat) :
    SetsBits (fun a t => t = p ∧ a = x) c (c.write x (c.read x ||| BitVec.ofNat 32 (2 ^ p))) := by
  refine ⟨Memory.write_wf _ _ hc, fun a t => ?_⟩
  rw [Memory.read_write hc]
  by_cases ha : a = x
  · simp only [ha, if_true, and_true, BitVec.getLsbD_or, BitVec.getLsbD_ofNat, Nat.testBit_two_pow, Bool.or_eq_true,
      Bool.and_eq_true, decide_eq_true_eq]
    exact or_congr_right ⟨fun h => h.2.symm, fun h => ⟨by omega, h.symm⟩⟩
  · simp [ha]

theorem setsBits_foldUp {T : Nat → Nat → Nat → Prop} {f : Nat → Memory 32 → Memory 32} (hc : c.wf = true)
    (hf : ∀ i c, c.wf = true → SetsBits (T i) c (f i c)) :
    SetsBits (fun a t => ∃ i < n, T i a t) c (foldUp n f c) := by
  induction n with
  | zero => exact (SetsBits.refl hc).congr fun a t => by simp
  | succ n ih => exact (ih.trans (hf n _ ih.wf)).congr fun a t => (Nat.exists_lt_succ_right (p := (T · a t))).symm

/-- Word `a` is one of the quadrant's that the code array has a bit for (R176). -/
def CodesName (d : Quadrant) (C : Nat) (g : CodeArray) (a : Nat) : Prop :=
  ∃ i < d.height, ∃ j < d.width, codeBit g i j = true ∧ a = d.cell C i j

theorem CodesName.mem_quadrantCells {g : CodeArray} (h : CodesName d C g a) : a ∈ quadrantCells d C := by
  obtain ⟨i, hi, j, hj, -, rfl⟩ := h
  exact List.mem_flatMap.2 ⟨i, List.mem_range.2 hi, List.mem_map.2 ⟨j, List.mem_range.2 hj, rfl⟩⟩

/-- No other cell of the quadrant is the same word. -/
theorem codesName_cell {g : CodeArray} (hd : d.c1 ≤ C) (hi : i < d.height) (hj : j < d.width) :
    CodesName d C g (d.cell C i j) ↔ codeBit g i j = true := by
  constructor
  · rintro ⟨i', hi', j', hj', hbit, h⟩
    unfold Quadrant.width at hj hj'
    obtain ⟨hrow, hcol⟩ := cell_inj (by omega) (by omega) h
    rwa [Nat.add_left_cancel hrow, Nat.add_left_cancel hcol]
  · exact fun hbit => ⟨i, hi, j, hj, hbit, rfl⟩

/-- A plane sets its own bit, in the words its codes name. -/
theorem applyPlane_setsBits (hc : c.wf = true) (hp : p < 32) (d : Quadrant) (C : Nat) (g : CodeArray) :
    SetsBits (fun a t => t = p ∧ CodesName d C g a) c (applyPlane d C p g c) := by
  have hcell : ∀ i j (c : Memory 32), c.wf = true →
      SetsBits (fun a t => codeBit g i j = true ∧ t = p ∧ a = d.cell C i j) c
        (if codeBit g i j then c.write (d.cell C i j) (c.read (d.cell C i j) ||| BitVec.ofNat 32 (2 ^ p)) else c) :=
    fun i j c hc => by
      cases codeBit g i j with
      | false => simpa only [Bool.false_eq_true, if_false, false_and] using SetsBits.refl hc
      | true => simpa only [if_true, true_and] using setsBits_write hc hp _
  refine (setsBits_foldUp hc fun i c hc => setsBits_foldUp (n := d.width) hc (hcell i)).congr fun a t => ?_
  constructor
  · rintro ⟨i, hi, j, hj, hbit, ht, ha⟩
    exact ⟨ht, i, hi, j, hj, hbit, ha⟩
  · rintro ⟨ht, i, hi, j, hj, hbit, ha⟩
    exact ⟨i, hi, j, hj, hbit, ht, ha⟩

/-! ## The planes of a quadrant, the highest first -/

/-- What the planes below `n` set. -/
def PlanesSet (d : Quadrant) (C : Nat) (g : Nat → CodeArray) (n a t : Nat) : Prop := t < n ∧ CodesName d C (g t) a

theorem planesSet_succ (a t : Nat) :
    (t = n ∧ CodesName d C (g n) a) ∨ PlanesSet d C g n a t ↔ PlanesSet d C g (n + 1) a t := by
  unfold PlanesSet
  constructor
  · rintro (⟨rfl, hname⟩ | ⟨ht, hname⟩)
    · exact ⟨Nat.lt_succ_self t, hname⟩
    · exact ⟨by omega, hname⟩
  · rintro ⟨ht, hname⟩
    rcases Nat.lt_succ_iff_lt_or_eq.1 ht with ht | rfl
    · exact .inr ⟨ht, hname⟩
    · exact .inl ⟨rfl, hname⟩

theorem SetsBits.read_outside (h : SetsBits (PlanesSet d C g n) c c') (ha : a ∉ quadrantCells d C) :
    c'.read a = c.read a :=
  h.read_of_not fun _ ⟨_, hname⟩ => ha hname.mem_quadrantCells

/-- The bits the planes have for a cell are OR-ed into its word. -/
theorem SetsBits.read_cell (h : SetsBits (PlanesSet d C g n) c c') (hd : d.c1 ≤ C) (hi : i < d.height)
    (hj : j < d.width) (hv : v < 2 ^ n) (hbits : ∀ t < n, codeBit (g t) i j = v.testBit t) :
    c'.read (d.cell C i j) = c.read (d.cell C i j) ||| BitVec.ofNat 32 v := by
  refine BitVec.eq_of_getLsbD_eq fun t ht => Bool.eq_iff_iff.2 ((h.bit _ t).trans ?_)
  simp only [PlanesSet, codesName_cell hd hi hj, BitVec.getLsbD_or, BitVec.getLsbD_ofNat, ht, decide_true,
    Bool.true_and, Bool.or_eq_true]
  refine or_congr_right ⟨fun ⟨htn, hbit⟩ => hbits t htn ▸ hbit, fun hbit => ?_⟩
  have htn : t < n := by
    by_contra hge
    have hpow := Nat.pow_le_pow_right two_pos (Nat.le_of_not_lt hge)
    rw [Nat.testBit_lt_two_pow (hv.trans_le hpow)] at hbit
    cases hbit
  exact ⟨htn, hbits t htn ▸ hbit⟩

/-- The bits of the planes, one after another. -/
def planeStack (bits : Nat → List Bool) : Nat → List Bool
  | 0 => []
  | p + 1 => bits p ++ planeStack bits p

/-- Each plane is read from its own bits and then applied. -/
theorem loopDown_qtdecPlane (hplanes : ∀ p < n, Takes src (bits p) (g p) (decodePlane codes wide src d.height d.width))
    (hn : n ≤ 31) (hcnt : r.cnt.toNat ≤ 7) (hc : c.wf = true) (hhas : streamHas src r (planeStack bits n)) (C : Nat) :
    ∃ c', loopDown n (qtdecPlane codes wide src d C) (r, c) =
      .ok (readerAfter src r (planeStack bits n).length, c') ∧ SetsBits (PlanesSet d C g n) c c' := by
  induction n generalizing r c with
  | zero =>
    refine ⟨c, ?_, (SetsBits.refl hc).congr fun a t => by simp [PlanesSet]⟩
    rw [planeStack, List.length_nil, readerAfter_zero]
    rfl
  | succ n ih =>
    have hlen := hhas.1
    rw [planeStack, List.length_append] at hlen
    obtain ⟨hcnt', -, -, hreader⟩ := readerAfter_spec (src := src) (bits n).length hcnt (by omega)
    have hfirst := applyPlane_setsBits hc (show n < 32 by omega) d C (g n)
    obtain ⟨c', hloop, hsets⟩ := ih (fun p hp => hplanes p (by omega)) (by omega) hcnt' hfirst.wf
      (streamHas_after_append hcnt hhas)
    refine ⟨c', ?_, (hfirst.trans hsets).congr planesSet_succ⟩
    simp only [loopDown, qtdecPlane, hplanes n (Nat.lt_succ_self n) r hcnt (streamHas_of_append hhas), ok_bind]
    rw [hloop, hreader _ hlen, planeStack, List.length_append]

theorem planesBits_eq_planeStack (codes : List HuffCode) (wide : Bool) (quadtree : Nat → Bool) (h w : Nat)
    (mag : Nat → Nat → Nat) (n : Nat) : planesBits codes wide quadtree h w mag n =
      planeStack (fun p => flagBits wide (quadtree p) ++
        if quadtree p then planeBits codes h w fun i j => (mag i j).testBit p
        else directBits h w fun i j => (mag i j).testBit p) n := by
  induction n with
  | zero => rfl
  | succ n ih => rw [planesBits, planeStack, ih, List.append_assoc]

/-! ## How QTDEC ends (R180) -/

theorem planeCheck_of_fits (hgrid : gridFits s) :
    planeCheck q s = if 31 < planeCount s q then some .format else none := by
  rw [planeCheck, gridCheck_none.2 hgrid]

/-- QTDEC's pseudocode. -/
def qtdecBody (q : BitVec 2) : State → Except ErrCode State :=
  onStreamGrid fun s => qtdecQuadrant (huffCodes s.params.huffTable) s.flagW (source s)
    (quadrantRange (gridRows s) (gridCols s) q) (gridCols s) (planeCount s q)

theorem exec_qtdec :
    exec (.qtdec q) s = submit 0x41 { reader := true, grid := true } (planeCheck q) (qtdecBody q) s := rfl

theorem qtdecBody_accept {op : BitVec 8} : qtdecBody q (accept op s) =
    qtdecQuadrant (huffCodes s.params.huffTable) s.flagW (source s) (quadrantRange (gridRows s) (gridCols s) q)
      (gridCols s) (planeCount s q) (s.rd, s.coef) >>= fun x => .ok (accept op { s with rd := x.1, coef := x.2 }) :=
  rfl

theorem exec_qtdec_of_ok (hs : s.err = .none) (hgrid : gridFits s) (hcount : planeCount s q ≤ 31)
    (h : qtdecQuadrant (huffCodes s.params.huffTable) s.flagW (source s) (quadrantRange (gridRows s) (gridCols s) q)
      (gridCols s) (planeCount s q) (s.rd, s.coef) = .ok (r, c)) :
    exec (.qtdec q) s = .next (finished 0x41 { s with rd := r, coef := c }) := by
  rw [exec_qtdec]
  exact submit_finished hs ((planeCheck_of_fits (s := accept 0x41 s) hgrid).trans (if_neg hcount.not_gt))
    (by rw [qtdecBody_accept, h, ok_bind])

theorem exec_qtdec_of_error {e : ErrCode} (hs : s.err = .none) (hgrid : gridFits s) (hcount : planeCount s q ≤ 31)
    (h : qtdecQuadrant (huffCodes s.params.huffTable) s.flagW (source s) (quadrantRange (gridRows s) (gridCols s) q)
      (gridCols s) (planeCount s q) (s.rd, s.coef) = .error e) (he : e ≠ .none) :
    ∃ t, exec (.qtdec q) s = .next t ∧ t.err = e := by
  rw [exec_qtdec]
  exact submit_raises_err hs ((planeCheck_of_fits (s := accept 0x41 s) hgrid).trans (if_neg hcount.not_gt))
    (by rw [qtdecBody_accept, h, error_bind]) he

theorem qtdecQuadrant_of_nothing {x : BitReader × Memory 32} (h : n = 0 ∨ d.height = 0 ∨ d.width = 0) :
    qtdecQuadrant codes wide src d C n x = .ok x := by
  unfold qtdecQuadrant
  split_ifs with hempty
  · rfl
  · obtain rfl : n = 0 := h.resolve_right hempty
    rfl

theorem qtdecQuadrant_of_cells {x : BitReader × Memory 32} (hh : 1 ≤ d.height) (hw : 1 ≤ d.width) :
    qtdecQuadrant codes wide src d C n x = loopDown n (qtdecPlane codes wide src d C) x := if_neg (by omega)

/-- Settles O11: the plane count is checked before any effect. -/
theorem planeCountAbove31RaisesFormat : Obligations.PlaneCountAbove31RaisesFormat := fun q s hs hgrid hcount => by
  rw [exec_qtdec]
  exact submit_failed hs (by decide) ((planeCheck_of_fits (s := accept 0x41 s) hgrid).trans (if_pos hcount))

/-- Settles O42: with no plane or no cell there is no pass of a loop. -/
theorem qtdecOfNothingReadsNothing : Obligations.QtdecOfNothingReadsNothing := fun _ _ hs hgrid hcount hnothing =>
  exec_qtdec_of_ok hs hgrid hcount (qtdecQuadrant_of_nothing hnothing)

/-- QTDEC on planes each of which is read from its own bits. -/
theorem exec_qtdec_of_takes (hs : s.err = .none) (hgrid : gridFits s) (hwf : s.coef.wf = true)
    (hcnt : s.rd.cnt.toNat ≤ 7) (hcount : planeCount s q ≤ 31) (hq : quadrantRange (gridRows s) (gridCols s) q = d)
    (hh : 1 ≤ d.height) (hw : 1 ≤ d.width)
    (hplanes : ∀ p < planeCount s q,
      Takes (source s) (bits p) (g p) (decodePlane (huffCodes s.params.huffTable) s.flagW (source s) d.height d.width))
    (hhas : streamHas (source s) s.rd (planeStack bits (planeCount s q))) :
    ∃ c, exec (.qtdec q) s = .next (finished 0x41 { s with
        rd := readerAfter (source s) s.rd (planeStack bits (planeCount s q)).length, coef := c }) ∧
      SetsBits (PlanesSet d (gridCols s) g (planeCount s q)) s.coef c := by
  obtain ⟨c, hloop, hsets⟩ := loopDown_qtdecPlane hplanes hcount hcnt hwf hhas (gridCols s)
  subst hq
  exact ⟨c, exec_qtdec_of_ok hs hgrid hcount ((qtdecQuadrant_of_cells hh hw).trans hloop), hsets⟩

/-- Settles O45: each plane's array is read back from the bits its encoder wrote. -/
theorem qtdecDecodesEncodedPlanes : Obligations.QtdecDecodesEncodedPlanes := by
  intro q s d mag quadtree hs hgrid hwf hcnt hcount hnamed hq hh hw hmag hhas
  have hd : d.c1 ≤ gridCols s := hq ▸ quadrantRange_c1_le _ _ q
  rw [planesBits_eq_planeStack] at hhas ⊢
  obtain ⟨c, hexec, hsets⟩ := exec_qtdec_of_takes
    (g := fun p => levelArray d.height d.width (fun i j => (mag i j).testBit p) 0) hs hgrid hwf hcnt hcount hq hh hw
    (fun p _ => takes_decodePlane (by
      cases quadtree p with
      | true => exact takes_decodeQuadtreePlane hnamed hh hw
      | false => exact takes_decodeDirectPlane _ _ _ _)) hhas
  exact ⟨c, hexec, fun i j hi hj => hsets.read_cell hd hi hj (hmag i j) fun t _ => codeBit_levelArray_zero hi hj,
    fun a ha => hsets.read_outside ha⟩

/-! ## One plane of a small quadrant -/

section
variable {h w code : Nat}

theorem codeLevels_of_small (hh : h = 1 ∨ h = 2) (hw : w = 1 ∨ w = 2) :
    codeLevels h w = 1 ∧ ceilShift h 1 = 1 ∧ ceilShift w 1 = 1 := by
  rcases hh with rfl | rfl <;> rcases hw with rfl | rfl <;> decide

/-- A quadrant of at most 2×2 cells has one code. -/
theorem takes_decodePlane_of_small {t : HuffTable} (quadtree : Bool) (ht : NamedTable t) (hh : h = 1 ∨ h = 2)
    (hw : w = 1 ∨ w = 2) (hcode : code < 16) :
    Takes src (flagBits wide quadtree ++ if quadtree then huffBits (huffCodes t) code else valueBits code 4)
      ⟨1, [code]⟩ (decodePlane (huffCodes t) wide src h w) := by
  obtain ⟨hlevels, hh1, hw1⟩ := codeLevels_of_small hh hw
  refine takes_decodePlane ?_
  cases quadtree with
  | true =>
    have hroot : decodeQuadtreePlane (huffCodes t) src h w =
        fun r => huffDecode (huffCodes t) src r >>= fun p => .ok (⟨1, [p.1]⟩, p.2) := by
      funext r
      rw [decodeQuadtreePlane, hlevels]
      rfl
    simpa only [if_true, hroot] using (ht.takes hcode).map fun c => (⟨1, [c]⟩ : CodeArray)
  | false =>
    have hnybble := (takes_readNybbles (src := src) (l := [code]) (by simpa using hcode)).map
      fun l => (⟨ceilShift w 1, l⟩ : CodeArray)
    rw [List.flatMap_singleton, hw1] at hnybble
    have hdirect : decodeDirectPlane src h w =
        fun r => readNybbles src [code].length r >>= fun p => .ok (⟨1, p.1⟩, p.2) := by
      funext r
      rw [decodeDirectPlane, hh1, hw1]
      rfl
    simpa only [Bool.false_eq_true, if_false, hdirect] using hnybble

theorem codeBit_of_small (hi : i < 2) (hj : j < 2) : codeBit ⟨1, [code]⟩ i j = code.testBit (3 - 2 * i - j) := by
  interval_cases i <;> interval_cases j <;> rfl

end

/-- A 4-bit flag that is neither of its two values raises FORMAT (R177). -/
theorem decodePlane_of_bad_flag {h w : Nat} (hcnt : r.cnt.toNat ≤ 7) (hleft : 4 ≤ bitsLeft src r)
    (h0 : streamValue src r 0 4 ≠ 0) (h15 : streamValue src r 0 4 ≠ 15) :
    decodePlane codes true src h w r = .error .format := by
  have hflag : readPlaneFlag true src r = .error .format := by
    rw [readPlaneFlag, if_pos rfl, getBits_of_left hcnt hleft, ok_bind, if_neg h15, if_neg h0]
  rw [decodePlane, hflag, error_bind]

/-- Settles O44: the one plane's array is its one code, or its flag is bad. -/
theorem qtdecOfOneSmallPlane : Obligations.QtdecOfOneSmallPlane := by
  intro q s d code quadtree flag codeBits hs hgrid hwf hcnt hcount hnamed hq hh hw hcode hflag hbits
  have hd : d.c1 ≤ gridCols s := hq ▸ quadrantRange_c1_le _ _ q
  refine ⟨fun hhas => ?plane, fun hwide hleft h0 h15 => ?format⟩
  case plane =>
    have hstack : flag ++ codeBits = planeStack (fun _ => flag ++ codeBits) (planeCount s q) := by
      rw [hcount, planeStack, planeStack, List.append_nil]
    have hflagBits : flag = flagBits s.flagW quadtree := by
      rw [hflag, flagBits]
      cases s.flagW <;> rfl
    rw [hstack] at hhas ⊢
    obtain ⟨c, hexec, hsets⟩ := exec_qtdec_of_takes (g := fun _ => ⟨1, [code]⟩) hs hgrid hwf hcnt (by omega) hq
      (by omega) (by omega) (fun p _ => hflagBits ▸ hbits ▸ takes_decodePlane_of_small quadtree hnamed hh hw hcode) hhas
    refine ⟨c, hexec, fun i j hi hj => ?_, fun a ha => hsets.read_outside ha⟩
    rw [hsets.read_cell hd hi hj (v := (code.testBit (3 - 2 * i - j)).toNat) (by rw [hcount]; exact Bool.toNat_lt _)
      fun t ht => ?_]
    · cases code.testBit (3 - 2 * i - j) <;> rfl
    · obtain rfl : t = 0 := by omega
      rw [codeBit_of_small (by omega) (by omega)]
      cases code.testBit (3 - 2 * i - j) <;> rfl
  case format =>
    refine exec_qtdec_of_error hs hgrid (by omega) ?_ (by decide)
    rw [hq, hcount, hwide, qtdecQuadrant_of_cells (by omega) (by omega)]
    exact bind_error.2 (.inl (bind_error.2 (.inl (decodePlane_of_bad_flag hcnt hleft h0 h15))))

/-! ## Any bits -/

/-- Whatever bits come, if they are enough the planes are read and set bits of their own in the quadrant only. -/
theorem loopDown_qtdecPlane_of_left {k : Nat} (hread : ReadsAtMost src k (decodePlane codes wide src d.height d.width))
    (hn : n ≤ 31) (hcnt : r.cnt.toNat ≤ 7) (hc : c.wf = true) (hleft : n * k ≤ bitsLeft src r) (C : Nat) :
    ∃ r' c' g, loopDown n (qtdecPlane codes wide src d C) (r, c) = .ok (r', c') ∧
      SetsBits (PlanesSet d C g n) c c' := by
  induction n generalizing r c with
  | zero => exact ⟨r, c, fun _ => ⟨0, []⟩, rfl, (SetsBits.refl hc).congr fun a t => by simp [PlanesSet]⟩
  | succ n ih =>
    rw [Nat.succ_mul] at hleft
    obtain ⟨plane, m, hm, hplane⟩ := hread r hcnt (by omega)
    obtain ⟨hcnt', hleft', -, -⟩ := readerAfter_spec (src := src) m hcnt (by omega)
    have hfirst := applyPlane_setsBits hc (show n < 32 by omega) d C plane
    obtain ⟨r', c', g, hloop, hsets⟩ := ih (by omega) hcnt' hfirst.wf (by omega)
    refine ⟨r', c', Function.update g n plane, ?_, ((hfirst.trans hsets).congr fun a t => ?_)⟩
    · simp only [loopDown, qtdecPlane, hplane, ok_bind]
      exact hloop
    · have hbelow : PlanesSet d C g n a t ↔ PlanesSet d C (Function.update g n plane) n a t :=
        and_congr_right fun ht => by rw [Function.update_of_ne ht.ne]
      rw [hbelow, ← planesSet_succ, Function.update_self]

theorem qtdecQuadrant_of_left {k : Nat}
    (hread : 1 ≤ d.height → 1 ≤ d.width → ReadsAtMost src k (decodePlane codes wide src d.height d.width)) (hn : n ≤ 31)
    (hcnt : r.cnt.toNat ≤ 7) (hc : c.wf = true) (hleft : n * k ≤ bitsLeft src r) (C : Nat) :
    ∃ r' c' g, qtdecQuadrant codes wide src d C n (r, c) = .ok (r', c') ∧ SetsBits (PlanesSet d C g n) c c' := by
  by_cases hempty : d.height = 0 ∨ d.width = 0
  · have hnone : ∀ a t, ¬ PlanesSet d C (fun _ => ⟨0, []⟩) n a t := fun a t ⟨_, i, hi, j, hj, _⟩ => by omega
    exact ⟨r, c, _, qtdecQuadrant_of_nothing (.inr hempty), (SetsBits.refl hc).congr fun a t =>
      iff_of_false id (hnone a t)⟩
  · have hh : 1 ≤ d.height := by omega
    have hw : 1 ≤ d.width := by omega
    rw [qtdecQuadrant_of_cells hh hw]
    exact loopDown_qtdecPlane_of_left (hread hh hw) hn hcnt hc hleft C

/-- Settles O43: with bits enough every plane is read, and it sets its own bit in words of the quadrant. -/
theorem qtdecSetsPlaneBitsOnly : Obligations.QtdecSetsPlaneBitsOnly := by
  intro q s hs hgrid hwf hflag hcnt hcount hnamed hleft
  obtain ⟨r, c, g, hok, hsets⟩ := qtdecQuadrant_of_left
    (fun hh hw => readsAtMost_decodePlane hnamed (source s) hh hw) hcount hcnt hwf hleft (gridCols s)
  rw [← hflag] at hok
  refine ⟨r, c, exec_qtdec_of_ok hs hgrid hcount hok, fun a ha => hsets.read_outside ha, fun a t ht => ?_,
    fun a t hold => (hsets.bit a t).2 (.inl hold)⟩
  exact Bool.eq_iff_iff.2 ((hsets.bit a t).trans (or_iff_left fun hset => ht.not_gt hset.1))

end Sys2Proof.Machine
end

section
/-! Proofs of the family `44_rice.md`: ZigZag and UnZig (R200), and the reading of a Rice code (R201 to R203), which
answers its value or raises FORMAT. -/

namespace Sys2Proof.Machine

variable {α β : Type} {src : Source} {r : BitReader} {bits bits' : List Bool} {a : α} {e : ErrCode} {k m n u z : Nat}
  {v : Int} {f : BitReader → Except ErrCode (α × BitReader)} {g : α → BitReader → Except ErrCode (β × BitReader)}

/-! ## ZigZag and UnZig (R200) -/

theorem zigZag_of_pos (h : 0 < v) : zigZag v = 2 * v.natAbs - 1 := by rw [zigZag, if_pos h]

theorem zigZag_of_nonpos (h : v ≤ 0) : zigZag v = 2 * v.natAbs := by rw [zigZag, if_neg h.not_gt, Nat.sub_zero]

theorem unZig_of_odd (h : u % 2 = 1) : unZig u = ((u + 1) / 2 : Nat) := if_pos h

theorem unZig_of_even (h : u % 2 = 0) : unZig u = -((u / 2 : Nat) : Int) := if_neg (by omega)

theorem unZig_zigZag (v : Int) : unZig (zigZag v) = v := by
  rcases lt_or_ge 0 v with h | h
  · rw [zigZag_of_pos h, unZig_of_odd (by omega)]
    omega
  · rw [zigZag_of_nonpos h, unZig_of_even (by omega)]
    omega

theorem zigZag_unZig (u : Nat) : zigZag (unZig u) = u := by
  rcases Nat.mod_two_eq_zero_or_one u with h | h
  · rw [unZig_of_even h, zigZag_of_nonpos (by omega)]
    omega
  · rw [unZig_of_odd h, zigZag_of_pos (by omega)]
    omega

theorem zigZag_of_fits (h : Fits v) : zigZag v ≤ 2 ^ 32 ∧ (zigZag v = 2 ^ 32 ↔ v = -2147483648) := by
  obtain ⟨hlo, hhi⟩ := h
  rcases lt_or_ge 0 v with hv | hv
  · rw [zigZag_of_pos hv]
    omega
  · rw [zigZag_of_nonpos hv]
    omega

/-- Settles O48: positive values and the others map to the odd numbers and the even ones. -/
theorem zigZagAndUnZigAreInverse : Obligations.ZigZagAndUnZigAreInverse :=
  ⟨unZig_zigZag, zigZag_unZig, fun _ hlo hhi => zigZag_of_fits ⟨hlo, hhi⟩⟩

/-- The code of a value that fits is within the bound of its run of zeros (R202). -/
theorem quotient_le_of_fits (hk : k ≤ 32) (hu : Fits (unZig u)) : u / 2 ^ k ≤ 2 ^ (32 - k) := by
  have hle : zigZag (unZig u) ≤ 2 ^ (k + (32 - k)) := by rw [Nat.add_sub_cancel' hk]; exact (zigZag_of_fits hu).1
  rw [zigZag_unZig, Nat.pow_add] at hle
  exact Nat.div_le_of_le_mul hle

/-! ## Raising an error on a given sequence of bits -/

/-- The computation, where the next bits are those of the list, raises `e`. -/
def RaisesOn (src : Source) (bits : List Bool) (e : ErrCode) (f : BitReader → Except ErrCode (α × BitReader)) : Prop :=
  ∀ r : BitReader, r.cnt.toNat ≤ 7 → streamHas src r bits → f r = .error e

theorem RaisesOn.append (h : RaisesOn src bits e f) (bits' : List Bool) : RaisesOn src (bits ++ bits') e f :=
  fun r hcnt hhas => h r hcnt (streamHas_of_append hhas)

theorem RaisesOn.bind (h : RaisesOn src bits e f) (g : α → BitReader → Except ErrCode (β × BitReader)) :
    RaisesOn src bits e fun r => f r >>= fun p => g p.1 p.2 := fun r hcnt hhas => by
  simp only [h r hcnt hhas, error_bind]

/-- A reading followed by an error on the bits that come next. -/
theorem Takes.bind_raisesOn (hf : Takes src bits a f) (hg : RaisesOn src bits' e (g a)) :
    RaisesOn src (bits ++ bits') e fun r => f r >>= fun p => g p.1 p.2 := fun r hcnt hhas => by
  have hlen := hhas.1
  rw [List.length_append] at hlen
  obtain ⟨hcnt', -⟩ := readerAfter_spec (src := src) bits.length hcnt (by omega)
  simp only [hf r hcnt (streamHas_of_append hhas), ok_bind]
  exact hg _ hcnt' (streamHas_after_append hcnt hhas)

/-! ## The run of zeros (R201, R202, R203) -/

/-- What the run does after its next bit. -/
def riceRunNext (src : Source) (room z : Nat) (b : Bool) (r : BitReader) : Except ErrCode (Nat × BitReader) :=
  if b then .ok (z, r)
  else
    match room with
    | 0 => .error .format
    | room + 1 => riceRun src room (z + 1) r

theorem riceRun_eq (src : Source) (room z : Nat) :
    riceRun src room z = fun r => getBit src r >>= fun p => riceRunNext src room z p.1 p.2 := by
  cases room <;> rfl

/-- A run within the bound is counted. -/
theorem takes_riceRun (h : n ≤ m) : Takes src (List.replicate n false ++ [true]) (z + n) (riceRun src m z) := by
  induction n generalizing m z with
  | zero =>
    rw [riceRun_eq]
    exact (takes_getBit true).bind (takes_pure src z)
  | succ n ih =>
    obtain ⟨m, rfl⟩ := Nat.exists_eq_add_of_le' (Nat.one_le_of_lt h)
    rw [riceRun_eq, List.replicate_succ, ← Nat.succ_add_eq_add_succ]
    exact (takes_getBit false).bind (g := riceRunNext src (m + 1) z) (ih (Nat.le_of_succ_le_succ h))

/-- One zero more than the bound is an error. -/
theorem raisesOn_riceRun (src : Source) (m z : Nat) :
    RaisesOn src (List.replicate (m + 1) false) .format (riceRun src m z) := by
  induction m generalizing z with
  | zero =>
    rw [riceRun_eq]
    exact (takes_getBit false).bind_raisesOn (bits' := []) fun _ _ _ => rfl
  | succ m ih =>
    rw [riceRun_eq, List.replicate_succ]
    exact (takes_getBit false).bind_raisesOn (g := riceRunNext src (m + 1) z) (ih (z + 1))

/-! ## `RiceValue` (R202) -/

/-- `RiceValue`'s answer: the value, or FORMAT when it does not fit 32 bits. -/
def riceAnswer (v : Int) (r : BitReader) : Except ErrCode (Int × BitReader) :=
  if v < -2147483648 ∨ 2147483647 < v then .error .format else .ok (v, r)

theorem riceAnswer_of_fits (h : Fits v) : riceAnswer v r = .ok (v, r) :=
  if_neg (by unfold Fits at h; omega)

theorem riceAnswer_of_not_fits (h : ¬ Fits v) : riceAnswer v r = .error .format :=
  if_pos (by unfold Fits at h; omega)

/-- What `RiceValue` does after a run of `z` zeros. -/
def riceLow (src : Source) (k z : Nat) (r : BitReader) : Except ErrCode (Int × BitReader) :=
  getBits src k r >>= fun low => riceAnswer (unZig (z * 2 ^ k + low.1)) low.2

theorem riceValue_eq (src : Source) (k : Nat) :
    riceValue src k = fun r => riceRun src (2 ^ (32 - k)) 0 r >>= fun p => riceLow src k p.1 p.2 := rfl

theorem riceBits_eq (k u : Nat) :
    riceBits k u = (List.replicate (u / 2 ^ k) false ++ [true]) ++ valueBits u k := by
  rw [riceBits, List.append_assoc, List.singleton_append]

theorem riceBits_length (k u : Nat) : (riceBits k u).length = u / 2 ^ k + 1 + k := by
  rw [riceBits_eq, List.length_append, List.length_append, List.length_replicate, List.length_singleton,
    valueBits_length]

/-- The low bits of a code complete its value. -/
theorem riceLow_of_valueBits (hcnt : r.cnt.toNat ≤ 7) (hhas : streamHas src r (valueBits u k)) :
    riceLow src k (u / 2 ^ k) r = riceAnswer (unZig u) (readerAfter src r k) := by
  rw [riceLow, getBits_of_valueBits (bits := []) hcnt (by rwa [List.append_nil]), ok_bind, Nat.div_add_mod']

/-- The run of a code that the bound admits, as the reader counts it. -/
theorem takes_riceRun_quotient (h : u / 2 ^ k ≤ 2 ^ (32 - k)) :
    Takes src (List.replicate (u / 2 ^ k) false ++ [true]) (u / 2 ^ k) (riceRun src (2 ^ (32 - k)) 0) := by
  have hrun := takes_riceRun (src := src) (z := 0) h
  rwa [Nat.zero_add] at hrun

theorem takes_riceValue (hk : k ≤ 32) (hu : Fits (unZig u)) :
    Takes src (riceBits k u) (unZig u) (riceValue src k) := by
  have hlow : Takes src (valueBits u k) (unZig u) (riceLow src k (u / 2 ^ k)) := fun r hcnt hhas => by
    rw [riceLow_of_valueBits hcnt hhas, riceAnswer_of_fits hu, valueBits_length]
  rw [riceValue_eq, riceBits_eq]
  exact (takes_riceRun_quotient (quotient_le_of_fits hk hu)).bind hlow

/-- A run above the bound is an error, whatever follows (R203). -/
theorem raisesOn_riceValue_of_run (src : Source) (k : Nat) :
    RaisesOn src (List.replicate (2 ^ (32 - k) + 1) false) .format (riceValue src k) :=
  (raisesOn_riceRun src _ 0).bind (riceLow src k)

/-- A code whose value does not fit is an error: of its run, or else of its value (R203). -/
theorem raisesOn_riceValue_of_not_fits (src : Source) (k : Nat) (hu : ¬ Fits (unZig u)) :
    RaisesOn src (riceBits k u) .format (riceValue src k) := by
  rcases le_or_gt (u / 2 ^ k) (2 ^ (32 - k)) with hrun | hrun
  · have hlow : RaisesOn src (valueBits u k) .format (riceLow src k (u / 2 ^ k)) := fun r hcnt hhas => by
      rw [riceLow_of_valueBits hcnt hhas, riceAnswer_of_not_fits hu]
    rw [riceValue_eq, riceBits_eq]
    exact (takes_riceRun_quotient hrun).bind_raisesOn hlow
  · obtain ⟨rest, hrest⟩ := Nat.exists_eq_add_of_le (Nat.succ_le_of_lt hrun)
    rw [riceBits, hrest, List.replicate_add, List.append_assoc]
    exact (raisesOn_riceValue_of_run src k).append _

end Sys2Proof.Machine
end

section
/-! Proofs of the family `44_rice.md`, the commands: RICEVAL (R204), and RICEDEC as one pass over the cells of its
quadrant (R205, R206, R209). -/

namespace Sys2Proof.Machine

variable {src : Source} {r : BitReader} {c : Memory 32} {a k u : Nat} {n : BitVec 5} {q : BitVec 2} {s : State}
  {op : BitVec 8} {cells us : List Nat}

/-! ## RICEVAL (R204) -/

/-- RICEVAL's pseudocode. -/
def ricevalBody (k : Nat) (s : State) : Except ErrCode State :=
  riceValue (source s) k s.rd >>= fun p => .ok { s with rd := p.2, result := BitVec.ofInt 32 p.1 }

theorem exec_riceval : exec (.riceval n) s =
    submit 0x50 { reader := true } (fun _ => countCheck riceKMax n) (ricevalBody n.toNat) s := rfl

theorem ricevalBody_accept : ricevalBody k (accept op s) = riceValue (source s) k s.rd >>= fun p =>
    .ok (accept op { s with rd := p.2, result := BitVec.ofInt 32 p.1 }) := rfl

theorem exec_riceval_of_ok {p : Int × BitReader} (hs : s.err = .none) (hn : n.toNat ≤ 15)
    (h : riceValue (source s) n.toNat s.rd = .ok p) :
    exec (.riceval n) s = .next (finished 0x50 { s with rd := p.2, result := BitVec.ofInt 32 p.1 }) := by
  rw [exec_riceval]
  exact submit_finished hs (if_pos hn) (by rw [ricevalBody_accept, h, ok_bind])

theorem exec_riceval_of_format (hs : s.err = .none) (hn : n.toNat ≤ 15)
    (h : riceValue (source s) n.toNat s.rd = .error .format) :
    ∃ t, exec (.riceval n) s = .next t ∧ t.err = .format := by
  rw [exec_riceval]
  exact submit_raises_err hs (if_pos hn) (by rw [ricevalBody_accept, h, error_bind]) (by decide)

/-- Settles O49: k is checked first; then the code is that of a value that fits, or of one that does not, or its run is
too long. -/
theorem ricevalDecodesItsCode : Obligations.RicevalDecodesItsCode := by
  intro k u s hs hcnt
  refine ⟨fun hk => ?decode, fun hk hhas hlo hhi => ?value, fun hk hhas hout => ?tooLarge, fun hk hhas => ?run,
    fun hk => ?illegal⟩
  case decode => exact decode_ok.2 ⟨decide_eq_true hk, encode_of_quadrant_zero rfl⟩
  case value =>
    have hvalue := takes_riceValue (by omega) ⟨hlo, hhi⟩ s.rd hcnt hhas
    rw [riceBits_length] at hvalue
    exact exec_riceval_of_ok hs hk hvalue
  case tooLarge =>
    have hu : ¬ Fits (unZig u) := by unfold Fits; omega
    exact exec_riceval_of_format hs hk (raisesOn_riceValue_of_not_fits _ _ hu s.rd hcnt hhas)
  case run => exact exec_riceval_of_format hs hk (raisesOn_riceValue_of_run _ _ s.rd hcnt hhas)
  case illegal => exact submit_failed hs (by decide) (if_neg (by simp only [riceKMax]; omega))

/-! ## A pass over cells (R206) -/

/-- COEF with the values of the codes in the words of the list, in order. -/
def putValues : List Nat → List Nat → Memory 32 → Memory 32
  | a :: cells, u :: us, c => putValues cells us (c.write a (BitVec.ofInt 32 (unZig u)))
  | _, _, c => c

theorem putValues_outside (us : List Nat) (c : Memory 32) (ha : a ∉ cells) :
    (putValues cells us c).read a = c.read a := by
  induction cells generalizing us c with
  | nil => rfl
  | cons b cells ih =>
    cases us with
    | nil => rfl
    | cons u us =>
      rw [putValues, ih _ _ (List.not_mem_of_not_mem_cons ha), Memory.read_write_other _ (List.ne_of_not_mem_cons ha)]

theorem putValues_inside (hcells : cells.Nodup) (hc : c.wf = true) (hus : ∀ u ∈ us, Fits (unZig u)) {p : Nat}
    (ha : cells[p]? = some a) (hu : us[p]? = some u) : coefInt (putValues cells us c) a = unZig u := by
  induction cells generalizing us c p with
  | nil => cases ha
  | cons b cells ih =>
    obtain ⟨hb, hcells⟩ := List.nodup_cons.1 hcells
    cases us with
    | nil => cases hu
    | cons v us =>
      obtain ⟨hv, hus⟩ := List.forall_mem_cons.1 hus
      cases p with
      | zero =>
        obtain rfl : b = a := by simpa using ha
        obtain rfl : v = u := by simpa using hu
        rw [coefInt, putValues, putValues_outside _ _ hb, Memory.read_write_same hc, toInt_ofInt_of_fits hv.1 hv.2]
      | succ p => exact ih hcells (Memory.write_wf _ _ hc) hus ha hu

theorem riceCell_of_takes (hk : k ≤ 32) (hu : Fits (unZig u)) (hcnt : r.cnt.toNat ≤ 7)
    (hhas : streamHas src r (riceBits k u)) (a : Nat) (c : Memory 32) :
    riceCell src k a (r, c) =
      .ok (readerAfter src r (riceBits k u).length, c.write a (BitVec.ofInt 32 (unZig u))) := by
  rw [riceCell, takes_riceValue hk hu r hcnt hhas, ok_bind, store_ok.2 ⟨hu.1, hu.2, rfl⟩, ok_bind]

/-- A pass over a list of words reads one code for each and puts its value there. -/
theorem foldlM_riceCell (hk : k ≤ 32) (hlen : us.length = cells.length) (hus : ∀ u ∈ us, Fits (unZig u))
    (hcnt : r.cnt.toNat ≤ 7) (hhas : streamHas src r (us.flatMap (riceBits k))) (c : Memory 32) :
    cells.foldlM (fun x a => riceCell src k a x) (r, c) =
      .ok (readerAfter src r (us.flatMap (riceBits k)).length, putValues cells us c) := by
  induction cells generalizing us r c with
  | nil =>
    obtain rfl := List.length_eq_zero_iff.1 hlen
    rw [List.flatMap_nil, List.length_nil, readerAfter_zero]
    rfl
  | cons a cells ih =>
    obtain ⟨u, us, rfl⟩ := List.exists_cons_of_length_eq_add_one hlen
    obtain ⟨hu, hus⟩ := List.forall_mem_cons.1 hus
    rw [List.flatMap_cons] at hhas ⊢
    have hbits := hhas.1
    rw [List.length_append] at hbits
    obtain ⟨hcnt', -, -, hreader⟩ := readerAfter_spec (src := src) (riceBits k u).length hcnt (by omega)
    rw [List.foldlM_cons, riceCell_of_takes hk hu hcnt (streamHas_of_append hhas), ok_bind,
      ih (Nat.succ.inj hlen) hus hcnt' (streamHas_after_append hcnt hhas), hreader _ hbits, List.length_append, putValues]

/-! ## RICEDEC (R205, R206, R209) -/

/-- RICEDEC's pseudocode. -/
def ricedecBody (q : BitVec 2) (s : State) : Except ErrCode State :=
  getBits (source s) 4 s.rd >>= fun k =>
    overQuadrant (quadrantRange (gridRows s) (gridCols s) q) (gridCols s) (riceCell (source s) k.1) (k.2, s.coef) >>=
      fun x => .ok { s with rd := x.1, coef := x.2, ricek := BitVec.ofNat 4 k.1 }

theorem exec_ricedec : exec (.ricedec q) s =
    submit 0x51 { reader := true, grid := true, ricek := true } gridCheck (ricedecBody q) s := rfl

theorem ricedecBody_accept : ricedecBody q (accept op s) =
    getBits (source s) 4 s.rd >>= fun k =>
      overQuadrant (quadrantRange (gridRows s) (gridCols s) q) (gridCols s) (riceCell (source s) k.1) (k.2, s.coef) >>=
        fun x => .ok (accept op { s with rd := x.1, coef := x.2, ricek := BitVec.ofNat 4 k.1 }) := rfl

/-- Settles O50: the split parameter is read, then RICEDEC is one pass over the cells of its quadrant, all different. -/
theorem ricedecDecodesAQuadrant : Obligations.RicedecDecodesAQuadrant := by
  rintro q k us s _ _ hs hgrid hwf hcnt hk rfl hlen hus rfl hhas
  have hbits := hhas.1
  rw [List.length_append] at hbits
  obtain ⟨hcnt', -, -, hreader⟩ := readerAfter_spec (src := source s) (valueBits k 4).length hcnt (by omega)
  have hparam := takes_getBits (n := 4) (by omega) s.rd hcnt (streamHas_of_append hhas)
  have hpass := foldlM_riceCell (by omega) hlen hus hcnt' (streamHas_after_append hcnt hhas) s.coef
  rw [← overQuadrant_eq_foldlM, hreader _ hbits, ← List.length_append] at hpass
  refine ⟨_, ?_, fun _ _ _ => putValues_inside (quadrantCells_nodup (quadrantRange_c1_le _ _ q)) hwf hus,
    fun _ => putValues_outside us s.coef⟩
  rw [exec_ricedec]
  refine submit_finished hs (gridCheck_none.2 hgrid) ?_
  rw [ricedecBody_accept, hparam, ok_bind, hpass, ok_bind]

end Sys2Proof.Machine
end

section
/-! Proofs of the family `60_exceptions.md`: what a step with a write to CMD does, whatever ERR is (R220, R228, R252). -/

namespace Sys2Proof.Machine

variable {i : Instr} {s : State} {w : Word} {rest : List HostMove}

/-- While ERR is not 0 every command but SRST is ignored (R220). -/
theorem exec_ignored (hs : s.err ≠ .none) (hi : i ≠ .srst) : exec i s = .next s := by
  cases i with
  | srst => exact absurd rfl hi
  | nop | clr | rdu8 | rdu16 | rdu32 | wru8 | wru16 | wru32 | getbit | getbits n | bralign | putbit | putbits n
  | bwflush | htrans | hinv | digitize | undigitize | huffsym | qtdec q | term | signs | riceval k | ricedec q =>
    exact submit_ignored hs

theorem onCmdWrite_ignored (hs : s.err ≠ .none) (hw : w ≠ 0x00000001#32) : onCmdWrite w s = .next s :=
  if_pos ⟨hs, hw⟩

/-- A legal word is its command, also where it is ignored: the only word that is not is SRST's own (R220, R72). -/
theorem onCmdWrite_of_decode_ok (hdecode : decode w = .ok i) : onCmdWrite w s = exec i s := by
  by_cases hignored : s.err ≠ .none ∧ w ≠ 0x00000001#32
  · have hi : i ≠ .srst := by
      rintro rfl
      exact hignored.2 (decode_ok.1 hdecode).2.symm
    rw [onCmdWrite_ignored hignored.1 hignored.2, exec_ignored hignored.1 hi]
  · rw [onCmdWrite, if_neg hignored, hdecode]

/-- A write to CMD is allowed while HTDE is idle, and submits its word (R220, R257). -/
theorem hostMove_cmdMove (hs : s.busy = false) (w : Word) : hostMove (cmdMove w) s = onCmdWrite w s := by
  have hallowed : violation (cmdMove w) s = none := by
    simp [cmdMove, violation, busyViolation_of_idle hs, regViolation_of_aligned]
  rw [hostMove_of_allowed hallowed, cmdMove, hostEffect, if_pos rfl]

theorem step_cmdMove (hs : s.busy = false) (hhost : s.host = cmdMove w :: rest) :
    step s = onCmdWrite w { s with host := rest } := by
  simp only [step, hhost]
  exact hostMove_cmdMove (s := { s with host := rest }) hs w

/-- Settles O5: the step is the write to CMD, which is the command. -/
theorem stepRunsDecodedCommand : Obligations.StepRunsDecodedCommand := by
  refine ⟨fun s w i rest hs hhost hdecode => ?_, fun s hhost => ?_⟩
  · rw [step_cmdMove hs hhost, onCmdWrite_of_decode_ok hdecode]
  · simp only [step, hhost]

/-- Settles O6: the step is the write to CMD, which is ignored or is SRST. -/
theorem latchedErrorIgnoresCommands : Obligations.LatchedErrorIgnoresCommands := by
  refine fun s w rest hs hhost herr => ⟨fun hw => ?_, ?_⟩
  · rw [step_cmdMove hs hhost]
    exact onCmdWrite_ignored herr hw
  · rintro rfl
    have hdecode : decode 0x00000001#32 = .ok .srst := decode_ok.2 ⟨rfl, rfl⟩
    rw [step_cmdMove hs hhost, onCmdWrite_of_decode_ok hdecode]
    exact ⟨_, rfl, rfl, rfl, rfl⟩

end Sys2Proof.Machine
end

section
/-! Proofs of the family `60_exceptions.md`: which errors each operation, and then the pseudocode of each command, can
raise (R222); with these, the three ways in which a command's error comes about (R221, R223, R225). -/

namespace Sys2Proof.Machine

/-! ## Computations that raise only errors of a list -/

section
variable {α β σ : Type} {errs : List ErrCode}

/-- Every error the computation raises is in the list. -/
def RaisesOnly (errs : List ErrCode) (x : Except ErrCode α) : Prop := ∀ e, x = .error e → e ∈ errs

theorem raisesOnly_ok (a : α) : RaisesOnly errs (.ok a) := nofun

theorem raisesOnly_error {e : ErrCode} (he : e ∈ errs) : RaisesOnly (α := α) errs (.error e) := by
  rintro _ ⟨⟩
  exact he

theorem RaisesOnly.bind {x : Except ErrCode α} {f : α → Except ErrCode β} (hx : RaisesOnly errs x)
    (hf : ∀ a, RaisesOnly errs (f a)) : RaisesOnly errs (x >>= f) := by
  intro e h
  rcases bind_error.1 h with h | ⟨a, -, h⟩
  · exact hx e h
  · exact hf a e h

theorem raisesOnly_loopUp {n : Nat} {f : Nat → σ → Except ErrCode σ} {x : σ} (hf : ∀ i y, RaisesOnly errs (f i y)) :
    RaisesOnly errs (loopUp n f x) := by
  intro e h
  obtain ⟨i, y, -, hi⟩ := loopUp_error h
  exact hf i y e hi

theorem raisesOnly_loopDown {n : Nat} {f : Nat → σ → Except ErrCode σ} {x : σ}
    (hf : ∀ i y, RaisesOnly errs (f i y)) : RaisesOnly errs (loopDown n f x) := by
  intro e h
  obtain ⟨i, y, -, hi⟩ := loopDown_error h
  exact hf i y e hi

theorem raisesOnly_overQuadrant {d : Quadrant} {C : Nat} {f : Nat → σ → Except ErrCode σ} {x : σ}
    (hf : ∀ a y, RaisesOnly errs (f a y)) : RaisesOnly errs (overQuadrant d C f x) :=
  raisesOnly_loopUp fun _ _ => raisesOnly_loopUp fun _ _ => hf _ _

end

/-! ## Reads raise TRUNCATED -/

section
variable {errs : List ErrCode} {src : Source} {r : BitReader} (htruncated : ErrCode.truncated ∈ errs)
include htruncated

theorem readByte_raisesOnly : RaisesOnly errs (readByte src r) := fun _ h => (readByte_error.1 h).2 ▸ htruncated

theorem getBit_raisesOnly : RaisesOnly errs (getBit src r) := fun _ h => getBit_error h ▸ htruncated

theorem getBitsFrom_raisesOnly (n v : Nat) : RaisesOnly errs (getBitsFrom src n v r) := by
  induction n generalizing v r with
  | zero => exact raisesOnly_ok _
  | succ n ih => exact (getBit_raisesOnly htruncated).bind fun _ => ih _

theorem getBits_raisesOnly (n : Nat) : RaisesOnly errs (getBits src n r) := getBitsFrom_raisesOnly htruncated n 0

theorem readBytesFrom_raisesOnly (n v : Nat) : RaisesOnly errs (readBytesFrom src n v r) := by
  induction n generalizing v r with
  | zero => exact raisesOnly_ok _
  | succ n ih => exact (readByte_raisesOnly htruncated).bind fun _ => ih _

theorem readNybbles_raisesOnly (n : Nat) : RaisesOnly errs (readNybbles src n r) := by
  induction n generalizing r with
  | zero => exact raisesOnly_ok _
  | succ n ih => exact (getBits_raisesOnly htruncated 4).bind fun _ => ih.bind fun _ => raisesOnly_ok _

/-! ## Decoders raise TRUNCATED and FORMAT -/

variable (hformat : ErrCode.format ∈ errs)
include hformat

theorem huffLoop_raisesOnly (codes : List HuffCode) (more l v : Nat) :
    RaisesOnly errs (huffLoop codes src more l v r) := by
  induction more generalizing l v r with
  | zero =>
    unfold huffLoop
    split
    · exact raisesOnly_ok _
    · exact raisesOnly_error hformat
  | succ more ih =>
    unfold huffLoop
    split
    · exact raisesOnly_ok _
    · exact (getBit_raisesOnly htruncated).bind fun _ => ih _ _

theorem huffDecode_raisesOnly (codes : List HuffCode) : RaisesOnly errs (huffDecode codes src r) :=
  (getBits_raisesOnly htruncated 3).bind fun _ => huffLoop_raisesOnly htruncated hformat codes 3 3 _

theorem readPlaneFlag_raisesOnly (wide : Bool) : RaisesOnly errs (readPlaneFlag wide src r) := by
  cases wide with
  | false => exact getBit_raisesOnly htruncated
  | true =>
    refine (getBits_raisesOnly htruncated 4).bind fun p => ?_
    split
    · exact raisesOnly_ok _
    · split
      · exact raisesOnly_ok _
      · exact raisesOnly_error hformat

theorem readLevel_raisesOnly (codes : List HuffCode) (parent : CodeArray) (width idx : Nat) (acc : List Nat) :
    RaisesOnly errs (readLevel codes src parent width idx acc r) := by
  induction idx generalizing acc r with
  | zero => exact raisesOnly_ok _
  | succ idx ih =>
    unfold readLevel
    split
    · exact (huffDecode_raisesOnly htruncated hformat codes).bind fun _ => ih _
    · exact ih _

theorem expandLevels_raisesOnly (codes : List HuffCode) (nqx nqy todo : Nat) (parent : CodeArray) :
    RaisesOnly errs (expandLevels codes src nqx nqy todo parent r) := by
  induction todo generalizing parent r with
  | zero => exact raisesOnly_ok _
  | succ todo ih => exact (readLevel_raisesOnly htruncated hformat codes parent _ _ []).bind fun _ => ih _

theorem decodePlane_raisesOnly (codes : List HuffCode) (wide : Bool) (nqx nqy : Nat) :
    RaisesOnly errs (decodePlane codes wide src nqx nqy r) := by
  refine (readPlaneFlag_raisesOnly htruncated hformat wide).bind fun flag => ?_
  split
  · exact (huffDecode_raisesOnly htruncated hformat codes).bind fun _ =>
      expandLevels_raisesOnly htruncated hformat codes nqx nqy _ _
  · exact (readNybbles_raisesOnly htruncated _).bind fun _ => raisesOnly_ok _

theorem qtdecQuadrant_raisesOnly (codes : List HuffCode) (wide : Bool) (d : Quadrant) (C nbp : Nat)
    (x : BitReader × Memory 32) : RaisesOnly errs (qtdecQuadrant codes wide src d C nbp x) := by
  unfold qtdecQuadrant
  split
  · exact raisesOnly_ok _
  · exact raisesOnly_loopDown fun _ _ =>
      (decodePlane_raisesOnly htruncated hformat codes wide _ _).bind fun _ => raisesOnly_ok _

theorem riceRun_raisesOnly (room z : Nat) : RaisesOnly errs (riceRun src room z r) := by
  induction room generalizing z r with
  | zero =>
    refine (getBit_raisesOnly htruncated).bind fun p => ?_
    split
    · exact raisesOnly_ok _
    · exact raisesOnly_error hformat
  | succ room ih =>
    refine (getBit_raisesOnly htruncated).bind fun p => ?_
    split
    · exact raisesOnly_ok _
    · exact ih _

theorem riceValue_raisesOnly (k : Nat) : RaisesOnly errs (riceValue src k r) := by
  refine (riceRun_raisesOnly htruncated hformat _ 0).bind fun z =>
    (getBits_raisesOnly htruncated k).bind fun low => ?_
  dsimp only
  split
  · exact raisesOnly_error hformat
  · exact raisesOnly_ok _

end

/-! ## Writes raise OUTFULL -/

section
variable {errs : List ErrCode} {room : Nat} {k : Sink} (hfull : ErrCode.outFull ∈ errs)
include hfull

theorem emitBytes_raisesOnly (v : Word) (n : Nat) : RaisesOnly errs (emitBytes room v n k) :=
  raisesOnly_loopDown fun _ _ _ h => (emitByte_error.1 h).2 ▸ hfull

theorem putBits_raisesOnly (v : Word) (n : Nat) : RaisesOnly errs (putBits room v n k) :=
  raisesOnly_loopDown fun _ _ _ h => putBit_error h ▸ hfull

theorem flushWriter_raisesOnly : RaisesOnly errs (flushWriter room k) := by
  unfold flushWriter
  split
  · exact raisesOnly_ok _
  · exact putBits_raisesOnly hfull 0 _

end

/-! ## Stores raise RANGE, or nothing when the value fits -/

section
variable {errs : List ErrCode} {src : Source} {c : Memory 32}

theorem store_raisesOnly_of_fits {v : Int} (hv : Fits v) (a : Nat) : RaisesOnly errs (store a v c) := by
  rw [store_ok.2 ⟨hv.1, hv.2, rfl⟩]
  exact raisesOnly_ok _

/-- Quantizing makes no word larger, so it raises nothing (R160). -/
theorem digitizeGrid_raisesOnly (s n : Nat) : RaisesOnly errs (digitizeGrid s n c) := by
  unfold digitizeGrid
  split
  · exact raisesOnly_ok _
  · exact raisesOnly_loopUp fun a c => store_raisesOnly_of_fits (digitizeValue_fits (by omega) (coefInt_fits c a)) a

/-- `RiceValue` answers 32-bit values only (R202). -/
theorem riceValue_fits {k : Nat} {r : BitReader} {p : Int × BitReader} (h : riceValue src k r = .ok p) : Fits p.1 := by
  obtain ⟨z, -, h⟩ := bind_ok.1 h
  obtain ⟨low, -, h⟩ := bind_ok.1 h
  dsimp only at h
  split at h
  · cases h
  · cases h
    unfold Fits
    omega

theorem riceCell_raisesOnly (htruncated : ErrCode.truncated ∈ errs) (hformat : ErrCode.format ∈ errs) (k a : Nat)
    (x : BitReader × Memory 32) : RaisesOnly errs (riceCell src k a x) := by
  intro e h
  rcases bind_error.1 h with h | ⟨p, hp, h⟩
  · exact riceValue_raisesOnly htruncated hformat k e h
  · exact (store_raisesOnly_of_fits (riceValue_fits hp) a).bind (fun _ => raisesOnly_ok _) e h

/-- The blocks of a level raise what its three kinds of block raise (R150, R158). -/
theorem overBlocks_raisesOnly {C rt ct : Nat} {block pair : Nat → Nat → Memory 32 → Except ErrCode (Memory 32)}
    {corner : Nat → Memory 32 → Except ErrCode (Memory 32)} (hblock : ∀ i j c, RaisesOnly errs (block i j c))
    (hpair : ∀ a b c, RaisesOnly errs (pair a b c)) (hcorner : ∀ a c, RaisesOnly errs (corner a c)) :
    RaisesOnly errs (overBlocks C rt ct block pair corner c) := by
  have hlast : ∀ c, RaisesOnly errs
      (if rt % 2 = 1 ∧ ct % 2 = 1 then corner ((rt - 1) * C + (ct - 1)) c else .ok c) := by
    intro c
    split
    · exact hcorner _ c
    · exact raisesOnly_ok c
  refine RaisesOnly.bind (raisesOnly_loopUp fun ip c => ?rowPair) fun c => ?lastRow
  case rowPair =>
    refine (raisesOnly_loopUp fun jp => hblock _ _).bind fun c => ?_
    split
    · exact hpair _ _ c
    · exact raisesOnly_ok c
  case lastRow =>
    dsimp only
    split
    · exact (raisesOnly_loopUp fun jp => hpair _ _).bind hlast
    · exact hlast c

variable (hrange : ErrCode.range ∈ errs)
include hrange

theorem store_raisesOnly (a : Nat) (v : Int) : RaisesOnly errs (store a v c) := fun _ h =>
  (store_error.1 h).2 ▸ hrange

theorem undigitizeGrid_raisesOnly (s n : Nat) : RaisesOnly errs (undigitizeGrid s n c) := by
  unfold undigitizeGrid
  split
  · exact raisesOnly_ok _
  · exact raisesOnly_loopUp fun _ _ => store_raisesOnly hrange _ _

theorem signCell_raisesOnly (htruncated : ErrCode.truncated ∈ errs) (a : Nat) (x : BitReader × Memory 32) :
    RaisesOnly errs (signCell src a x) := by
  unfold signCell
  split
  · exact raisesOnly_ok _
  · refine (getBit_raisesOnly htruncated).bind fun b => ?_
    split
    · exact (store_raisesOnly hrange _ _).bind fun _ => raisesOnly_ok _
    · exact raisesOnly_ok _

/-- Storing the two words of a leftover pair (R147, R155). -/
theorem pairStores_raisesOnly (a b : Nat) (x y : Int) : RaisesOnly errs (store b y c >>= store a x) :=
  (store_raisesOnly hrange b y).bind fun _ => store_raisesOnly hrange a x

/-- Storing the four words of a full block (R146, R154). -/
theorem blockStores_raisesOnly (a₁ a₂ a₃ a₄ : Nat) (d z y x : Int) :
    RaisesOnly errs (store a₁ d c >>= fun c => store a₂ z c >>= fun c => store a₃ y c >>= store a₄ x) :=
  (store_raisesOnly hrange a₁ d).bind fun _ => (store_raisesOnly hrange a₂ z).bind fun _ =>
    pairStores_raisesOnly hrange a₄ a₃ x y

theorem forwardTransform_raisesOnly (R C : Nat) : RaisesOnly errs (forwardTransform R C c) :=
  raisesOnly_loopUp fun _ _ => (overBlocks_raisesOnly (fun _ _ _ => blockStores_raisesOnly hrange _ _ _ _ _ _ _ _)
    (fun _ _ _ => pairStores_raisesOnly hrange _ _ _ _) fun _ _ => store_raisesOnly hrange _ _).bind
      fun _ => raisesOnly_ok _

theorem inverseTransform_raisesOnly (R C : Nat) : RaisesOnly errs (inverseTransform R C c) := by
  unfold inverseTransform
  dsimp only
  split
  · exact raisesOnly_ok c
  · refine RaisesOnly.bind (store_raisesOnly hrange _ _) fun _ => raisesOnly_loopDown fun _ _ => ?_
    exact overBlocks_raisesOnly (fun _ _ _ => blockStores_raisesOnly hrange _ _ _ _ _ _ _ _)
      (fun _ _ _ => pairStores_raisesOnly hrange _ _ _ _) fun _ _ => store_raisesOnly hrange _ _

end

/-! ## The pseudocode of a command -/

section
variable {i : Instr} {check : State → Option ErrCode} {s t : State}

/-- The errors of a command's row of R222 that are raised part way through it (R223). -/
def lateErrors (i : Instr) : List ErrCode :=
  (mayRaise i).filter fun e => e ∈ [ErrCode.truncated, .format, .outFull, .range]

theorem mem_lateErrors {e : ErrCode} : e ∈ lateErrors i ↔ e ∈ mayRaise i ∧ e.Late := by
  simp [lateErrors, ErrCode.Late]

/-- The pseudocode of `i` raises late errors of the command's row only, and leaves ERR alone when it answers. -/
def ErrorsAs (i : Instr) (body : State → Except ErrCode State) : Prop :=
  ∀ s, RaisesOnly (lateErrors i) (body s) ∧ ∀ b, body s = .ok b → b.err = s.err

theorem errorsAs_ok {g : State → State} (hg : ∀ s, (g s).err = s.err) : ErrorsAs i fun s => .ok (g s) := by
  refine fun s => ⟨raisesOnly_ok _, ?_⟩
  rintro _ ⟨⟩
  exact hg s

theorem errorsAs_bind {α : Type} {x : State → Except ErrCode α} {f : State → α → Except ErrCode State}
    (hx : ∀ s, RaisesOnly (lateErrors i) (x s)) (hf : ∀ a, ErrorsAs i fun s => f s a) :
    ErrorsAs i fun s => x s >>= f s := by
  refine fun s => ⟨(hx s).bind fun a => (hf a s).1, fun b hb => ?_⟩
  obtain ⟨a, -, ha⟩ := bind_ok.1 hb
  exact (hf a s).2 b ha

/-- Pseudocode that computes a value and then stores it by `g`, the shape of most commands. -/
theorem errorsAs_store {α : Type} {x : State → Except ErrCode α} {g : State → α → State}
    (hx : ∀ s, RaisesOnly (lateErrors i) (x s)) (hg : ∀ a s, (g s a).err = s.err) :
    ErrorsAs i fun s => x s >>= fun a => .ok (g s a) :=
  errorsAs_bind hx fun a => errorsAs_ok (hg a)

theorem readBytes_errorsAs (h : ErrCode.truncated ∈ lateErrors i) (n : Nat) : ErrorsAs i (readBytes n) :=
  errorsAs_store (fun _ => readBytesFrom_raisesOnly h n 0) fun _ _ => rfl

theorem readBits_errorsAs (h : ErrCode.truncated ∈ lateErrors i) (n : Nat) : ErrorsAs i (readBits n) :=
  errorsAs_store (fun _ => getBits_raisesOnly h n) fun _ _ => rfl

theorem writeBytes_errorsAs (h : ErrCode.outFull ∈ lateErrors i) (n : Nat) : ErrorsAs i (writeBytes n) :=
  errorsAs_store (fun s => emitBytes_raisesOnly h s.arg n) fun _ _ => rfl

theorem writeBits_errorsAs (h : ErrCode.outFull ∈ lateErrors i) (n : Nat) : ErrorsAs i (writeBits n) :=
  errorsAs_store (fun s => putBits_raisesOnly h s.arg n) fun _ _ => rfl

theorem onGrid_errorsAs {f : State → Memory 32 → Except ErrCode (Memory 32)}
    (hf : ∀ s c, RaisesOnly (lateErrors i) (f s c)) : ErrorsAs i (onGrid f) :=
  errorsAs_store (fun s => hf s s.coef) fun _ _ => rfl

theorem onStreamGrid_errorsAs {f : State → BitReader × Memory 32 → Except ErrCode (BitReader × Memory 32)}
    (hf : ∀ s x, RaisesOnly (lateErrors i) (f s x)) : ErrorsAs i (onStreamGrid f) :=
  errorsAs_store (fun s => hf s (s.rd, s.coef)) fun _ _ => rfl

/-- The end of TERM's pseudocode: FORMAT unless the nybble it read is 0 (R182). -/
theorem termEnd_errorsAs (p : Nat × BitReader) :
    ErrorsAs .term fun s => if p.1 ≠ 0 then .error .format else .ok { s with rd := p.2 } := by
  by_cases hzero : p.1 = 0
  · simp only [hzero, ne_eq, not_true, if_false]
    exact errorsAs_ok fun _ => rfl
  · have hrow : ErrCode.format ∈ lateErrors .term := by decide
    simp only [ne_eq, hzero, not_false_iff, if_true]
    refine fun s => ⟨raisesOnly_error hrow, fun b hb => ?_⟩
    cases hb

/-! ## The checks made before any effect -/

/-- The check of a legal `i` answers errors of the command's row only (R222, R225). -/
def ChecksAs (i : Instr) (check : State → Option ErrCode) : Prop :=
  i.wellFormed = true → ∀ s e, check s = some e → e ∈ mayRaise i

theorem noCheck_checksAs : ChecksAs i noCheck := by
  intro _ s e he
  cases he

theorem gridCheck_checksAs (h : ErrCode.size ∈ mayRaise i) : ChecksAs i gridCheck := fun _ _ _ he =>
  (gridCheck_some.1 he).1 ▸ h

theorem planeCheck_checksAs (q : BitVec 2) : ChecksAs (.qtdec q) (planeCheck q) := by
  intro _ s e he
  unfold planeCheck at he
  split at he
  · rename_i hgrid
    cases he
    simp [(gridCheck_some.1 hgrid).1, mayRaise]
  · split at he
    · cases he
      simp [mayRaise]
    · cases he

theorem byteReadCheck_checksAs (h : ErrCode.seq ∈ mayRaise i) : ChecksAs i byteReadCheck := fun _ _ _ he =>
  Option.some.inj (Option.ite_none_left_eq_some.1 he).2 ▸ h

theorem byteWriteCheck_checksAs (h : ErrCode.seq ∈ mayRaise i) : ChecksAs i byteWriteCheck := fun _ _ _ he =>
  Option.some.inj (Option.ite_none_left_eq_some.1 he).2 ▸ h

/-- The count of a legal command passes its check (R73). -/
theorem countCheck_checksAs {limit : Nat} {n : BitVec 5} (h : i.wellFormed = decide (n.toNat ≤ limit)) :
    ChecksAs i fun _ => countCheck limit n := by
  intro hi _ _ he
  exact absurd (of_decide_eq_true (h ▸ hi)) (Option.ite_none_left_eq_some.1 he).1

/-! ## How a command's error comes about -/

/-- The ERR a command run with ERR = 0 ends with: none, that of its check, or one its pseudocode raised. -/
inductive ErrorOf (i : Instr) (s t : State) : Prop
  | none (h : t.err = .none)
  | early (ht : t = failed i.opcode t.err s) (hrow : i.wellFormed = true → t.err ∈ mayRaise i)
  | late (h : t.err ∈ lateErrors i)

theorem submit_errorOf {touches : Touches} {body : State → Except ErrCode State} (hs : s.err = .none)
    (h : submit i.opcode touches check body s = .next t) (hcheck : ChecksAs i check) (hbody : ErrorsAs i body) :
    ErrorOf i s t := by
  rcases submit_cases h with ⟨herr, -⟩ | ⟨-, e, he, rfl⟩ | ⟨-, -, b, hb, rfl⟩ | ⟨-, -, e, he, rfl⟩
  · exact absurd hs herr
  · by_cases hnone : e = .none
    · exact .none (by simp [hnone, hs])
    · rw [complete_accept_eq_failed hnone]
      exact .early rfl fun hi => hcheck hi _ e he
  · exact .none (by simp [(hbody _).2 b hb, hs])
  · have hlate := (hbody _).1 e he
    have hnone := (mem_lateErrors.1 hlate).2.ne_early.1
    exact .late (by simpa [hnone] using hlate)

theorem exec_errorOf (hs : s.err = .none) : ∀ {i : Instr}, exec i s = .next t → ErrorOf i s t
  | .nop, h => submit_errorOf hs h noCheck_checksAs (errorsAs_ok fun _ => rfl)
  | .srst, h => by
    cases h
    exact .none rfl
  | .clr, h => submit_errorOf hs h (gridCheck_checksAs (by decide)) <| errorsAs_store
    (fun _ => raisesOnly_loopUp fun a _ => store_raisesOnly_of_fits (by simp [Fits]) a) fun _ _ => rfl
  | .rdu8, h => submit_errorOf hs h (byteReadCheck_checksAs (by decide)) (readBytes_errorsAs (by decide) 1)
  | .rdu16, h => submit_errorOf hs h (byteReadCheck_checksAs (by decide)) (readBytes_errorsAs (by decide) 2)
  | .rdu32, h => submit_errorOf hs h (byteReadCheck_checksAs (by decide)) (readBytes_errorsAs (by decide) 4)
  | .wru8, h => submit_errorOf hs h (byteWriteCheck_checksAs (by decide)) (writeBytes_errorsAs (by decide) 1)
  | .wru16, h => submit_errorOf hs h (byteWriteCheck_checksAs (by decide)) (writeBytes_errorsAs (by decide) 2)
  | .wru32, h => submit_errorOf hs h (byteWriteCheck_checksAs (by decide)) (writeBytes_errorsAs (by decide) 4)
  | .getbit, h => submit_errorOf hs h noCheck_checksAs (readBits_errorsAs (by decide) 1)
  | .getbits n, h => submit_errorOf hs h (countCheck_checksAs rfl) <|
    readBits_errorsAs (by simp [lateErrors, mayRaise]) n.toNat
  | .bralign, h => submit_errorOf hs h noCheck_checksAs (errorsAs_ok fun _ => rfl)
  | .putbit, h => submit_errorOf hs h noCheck_checksAs (writeBits_errorsAs (by decide) 1)
  | .putbits n, h => submit_errorOf hs h (countCheck_checksAs rfl) <|
    writeBits_errorsAs (by simp [lateErrors, mayRaise]) n.toNat
  | .bwflush, h => submit_errorOf hs h noCheck_checksAs <|
    errorsAs_store (fun _ => flushWriter_raisesOnly (by decide)) fun _ _ => rfl
  | .htrans, h => submit_errorOf hs h (gridCheck_checksAs (by decide)) <|
    onGrid_errorsAs fun _ _ => forwardTransform_raisesOnly (by decide) _ _
  | .hinv, h => submit_errorOf hs h (gridCheck_checksAs (by decide)) <|
    onGrid_errorsAs fun _ _ => inverseTransform_raisesOnly (by decide) _ _
  | .digitize, h => submit_errorOf hs h (gridCheck_checksAs (by decide)) <|
    onGrid_errorsAs fun _ _ => digitizeGrid_raisesOnly _ _
  | .undigitize, h => submit_errorOf hs h (gridCheck_checksAs (by decide)) <|
    onGrid_errorsAs fun _ _ => undigitizeGrid_raisesOnly (by decide) _ _
  | .huffsym, h => submit_errorOf hs h noCheck_checksAs <|
    errorsAs_store (fun _ => huffDecode_raisesOnly (by decide) (by decide) _) fun _ _ => rfl
  | .qtdec q, h => submit_errorOf hs h (planeCheck_checksAs q) <|
    onStreamGrid_errorsAs fun _ _ =>
      qtdecQuadrant_raisesOnly (by simp [lateErrors, mayRaise]) (by simp [lateErrors, mayRaise]) _ _ _ _ _ _
  | .term, h => submit_errorOf hs h noCheck_checksAs <|
    errorsAs_bind (fun _ => getBits_raisesOnly (by decide) 4) termEnd_errorsAs
  | .signs, h => submit_errorOf hs h (gridCheck_checksAs (by decide)) <| onStreamGrid_errorsAs fun _ _ =>
    raisesOnly_loopUp fun _ _ => raisesOnly_overQuadrant fun _ _ => signCell_raisesOnly (by decide) (by decide) _ _
  | .riceval k, h => submit_errorOf hs h (countCheck_checksAs rfl) <| errorsAs_store
    (fun _ => riceValue_raisesOnly (by simp [lateErrors, mayRaise]) (by simp [lateErrors, mayRaise]) k.toNat)
    fun _ _ => rfl
  | .ricedec q, h => submit_errorOf hs h (gridCheck_checksAs (by simp [mayRaise])) <|
    errorsAs_bind (fun _ => getBits_raisesOnly (by simp [lateErrors, mayRaise]) 4) fun _ => errorsAs_store
      (fun _ => raisesOnly_overQuadrant fun _ _ =>
        riceCell_raisesOnly (by simp [lateErrors, mayRaise]) (by simp [lateErrors, mayRaise]) _ _ _) fun _ _ => rfl

end

/-- Settles O8: the check of a legal command and its pseudocode both raise only errors of its row. -/
theorem errorsAreThoseOfTheTable : Obligations.ErrorsAreThoseOfTheTable := by
  intro i s t hi hs h
  cases exec_errorOf hs h with
  | none hnone => exact .inl hnone
  | early _ hrow => exact .inr (hrow hi)
  | late hlate => exact .inr (mem_lateErrors.1 hlate).1

/-- Settles O12: SIZE, SEQ and ILLEGAL are never raised part way, so they come from the check. -/
theorem earlyErrorsChangeStatusOnly : Obligations.EarlyErrorsChangeStatusOnly := by
  intro i s t hs h hearly
  cases exec_errorOf hs h with
  | none hnone => simp [hnone] at hearly
  | early ht _ => exact ht
  | late hlate =>
    obtain ⟨-, hsize, hseq, hillegal⟩ := (mem_lateErrors.1 hlate).2.ne_early
    simp [hsize, hseq, hillegal] at hearly

end Sys2Proof.Machine
end

section
/-! Proofs of the family `70_reset_and_hazards.md`. Every accepted command runs to its completion (R253); what the two
resets give and leave (R250, R251); and the protocol violations of R257. -/

namespace Sys2Proof.Machine

variable {i : Instr} {s t : State} {off : Nat}

/-! ## Completion -/

/-- Whenever the pseudocode `body` answers, LASTOP is as acceptance left it: only acceptance writes it (R220). -/
def KeepsLastOp (body : State → Except ErrCode State) : Prop :=
  ∀ s s' : State, body s = .ok s' → s'.lastOp = s.lastOp

theorem keepsLastOp_ok {g : State → State} (hg : ∀ s, (g s).lastOp = s.lastOp) : KeepsLastOp fun s => .ok (g s) := by
  intro s s' h
  cases h
  exact hg s

theorem keepsLastOp_bind {α : Type} {x : State → Except ErrCode α} {f : State → α → Except ErrCode State}
    (hf : ∀ a, KeepsLastOp fun s => f s a) : KeepsLastOp fun s => x s >>= f s := by
  intro s s' h
  obtain ⟨a, -, ha⟩ := bind_ok.1 h
  exact hf a s s' ha

/-- Pseudocode that computes a value and then stores it by `g`, the shape of most commands. -/
theorem keepsLastOp_store {α : Type} {x : State → Except ErrCode α} {g : State → α → State}
    (hg : ∀ a s, (g s a).lastOp = s.lastOp) : KeepsLastOp fun s => x s >>= fun a => .ok (g s a) :=
  keepsLastOp_bind fun a => keepsLastOp_ok (hg a)

/-- The end of TERM's pseudocode: FORMAT unless the nybble it read is 0 (R182). -/
theorem termEnd_keepsLastOp (p : Nat × BitReader) :
    KeepsLastOp fun s => if p.1 ≠ 0 then .error .format else .ok { s with rd := p.2 } := by
  intro s s' h
  dsimp only at h
  split at h
  · cases h
  · cases h
    rfl

/-- Accepted, a submitted command completes, whichever way it ends (R220, R221). -/
theorem submit_accepted {op : BitVec 8} {touches : Touches} {check : State → Option ErrCode}
    {body : State → Except ErrCode State} (hs : s.err = .none) (hbody : KeepsLastOp body) :
    ∃ t, submit op touches check body s = .next t ∧ t.busy = false ∧ t.done = true ∧ t.lastOp = op := by
  obtain ⟨t, h⟩ := submit_next op touches check body s
  refine ⟨t, h, ?_⟩
  rcases submit_cases h with ⟨herr, -⟩ | ⟨-, e, -, rfl⟩ | ⟨-, -, b, hb, rfl⟩ | ⟨-, -, e, -, rfl⟩
  · exact absurd hs herr
  · simp
  · simp [hbody _ b hb]
  · simp

theorem exec_accepted (hs : s.err = .none ∨ i = .srst) :
    ∃ t, exec i s = .next t ∧ t.busy = false ∧ t.done = true ∧ t.lastOp = i.opcode := by
  by_cases hi : i = .srst
  · subst hi
    exact ⟨_, rfl, rfl, rfl, rfl⟩
  · have herr := hs.resolve_right hi
    cases i with
    | srst => exact absurd rfl hi
    | nop | bralign => exact submit_accepted herr (keepsLastOp_ok fun _ => rfl)
    | clr | rdu8 | rdu16 | rdu32 | wru8 | wru16 | wru32 | getbit | getbits n | putbit | putbits n | bwflush | htrans
    | hinv | digitize | undigitize | huffsym | qtdec q | signs | riceval k =>
      exact submit_accepted herr (keepsLastOp_store fun _ _ => rfl)
    | term => exact submit_accepted herr (keepsLastOp_bind termEnd_keepsLastOp)
    | ricedec q =>
      exact submit_accepted herr (keepsLastOp_bind fun _ => keepsLastOp_store fun _ _ => rfl)

/-- Settles O7: acceptance sets LASTOP, the pseudocode keeps it, and completion sets BUSY and DONE; what is not accepted
is ignored. -/
theorem everyCommandCompletes : Obligations.EveryCommandCompletes :=
  fun _ _ => ⟨exec_accepted, exec_ignored⟩

/-! ## Reset -/

/-- Settles O18: the sizes are legal, and every memory and both streams' registers are empty. -/
theorem resetIsSound : Obligations.ResetIsSound :=
  ⟨sound_of_streams (by decide) rfl rfl rfl rfl (by decide) fun _ => streamsSound_of_cleared rfl rfl, rfl, rfl, rfl⟩

/-- The reset input is never a protocol violation (R250). -/
theorem hostMove_reset (s : State) : hostMove .reset s = .next (hardReset s) := by
  have hallowed : violation .reset s = none := by simp [violation, busyViolation]
  rw [hostMove_of_allowed hallowed, hostEffect]

/-- Reset gives every register its reset value, since none of them shows what reset keeps (R251). -/
theorem regValue_hardReset (off : Nat) (s : State) : regValue off (hardReset s) = regValue off State.reset := rfl

/-- A register that keeps what the host writes shows nothing that a command can write (R25 to R30). -/
theorem regValue_commandInputs (hoff : off ∈ writableOffsets) (s : State) :
    regValue off s.commandInputs = regValue off s := by
  fin_cases hoff <;> rfl

/-- No command changes a register that keeps what the host writes. -/
theorem exec_regValue (h : exec i s = .next t) (hoff : off ∈ writableOffsets) : regValue off t = regValue off s := by
  rw [← regValue_commandInputs hoff t, exec_commandInputs h, regValue_commandInputs hoff]

/-- Settles O57: reset is `hardReset`, whose registers are those of `State.reset`; SRST is `softReset`, and like every
command leaves the registers that keep what the host writes. -/
theorem resetAndSrstDiffer : Obligations.ResetAndSrstDiffer := by
  refine fun s => ⟨⟨hardReset s, hostMove_reset s, fun off => regValue_hardReset off s, rfl, rfl, rfl⟩, ?_⟩
  have hsrst : exec .srst s = .next (finished 0x01 (softReset s)) := srstResetsStreamAndError.2 s
  exact ⟨_, hsrst, rfl, rfl, rfl, rfl, rfl, rfl, rfl, rfl, rfl, fun _ hoff => exec_regValue hsrst hoff⟩

/-! ## Protocol violations -/

theorem hostMove_of_violation {m : HostMove} {r : Refusal} (h : violation m s = some r) :
    hostMove m s = .refused r := by
  simp [hostMove, h]

/-- While a command runs only a STATUS read and a reset are moves (R255, R250). -/
theorem violation_of_busy {m : HostMove} (hs : s.busy = true) (hreset : m ≠ .reset)
    (habandon : m ≠ .resetDuringCommand) (hstatus : ∀ size, m ≠ .regRead 0x04 size) :
    violation m s = some .hostWhileBusy := by
  have hbusy : busyViolation m s = some .hostWhileBusy := by
    cases m with
    | regRead off size =>
      have hoff : off ≠ 0x04 := by
        rintro rfl
        exact hstatus size rfl
      simp [busyViolation, hs, hoff]
    | reset => exact absurd rfl hreset
    | resetDuringCommand => exact absurd rfl habandon
    | regWrite | coefRead | coefWrite | inRead | inWrite | outRead | outWrite => simp [busyViolation, hs]
  simp [violation, hbusy]

theorem regViolation_of_not_aligned {size : Nat} (h : size ≠ 4 ∨ off % 4 ≠ 0) :
    regViolation off size = some .hostNotAlignedWord := if_pos h

theorem coefViolation_of_not_word {a size : Nat} {p : Params} (h : size ≠ 4) :
    coefViolation a size p = some .hostNotAlignedWord := if_pos h

theorem coefViolation_of_outside {a : Nat} {p : Params} (h : p.coefWords ≤ a) :
    coefViolation a 4 p = some .hostOutsideMemory := by
  simp [coefViolation, h]

theorem byteViolation_of_outside {a n : Nat} (h : n ≤ a) : byteViolation a n = some .hostOutsideMemory := if_pos h

/-- Settles O56: each of these moves is a violation, found by the check of its own space once BUSY = 0. -/
theorem protocolViolationsAreRefused : Obligations.ProtocolViolationsAreRefused := by
  refine fun s => ⟨fun hs m hreset habandon hstatus =>
      hostMove_of_violation (violation_of_busy hs hreset habandon hstatus),
    fun hs off size v h => ⟨hostMove_of_violation ?_, hostMove_of_violation ?_⟩,
    fun hs a size v h => ⟨hostMove_of_violation ?_, hostMove_of_violation ?_⟩,
    fun hs a v h => hostMove_of_violation ?_, fun hs a b h => hostMove_of_violation ?_,
    fun hs a b h => hostMove_of_violation ?_⟩
  · simp [violation, busyViolation_of_idle hs, regViolation_of_not_aligned h]
  · simp [violation, busyViolation_of_idle hs, regViolation_of_not_aligned h]
  · simp [violation, busyViolation_of_idle hs, coefViolation_of_not_word h]
  · simp [violation, busyViolation_of_idle hs, coefViolation_of_not_word h]
  · simp [violation, busyViolation_of_idle hs, coefViolation_of_outside h]
  · simp [violation, busyViolation_of_idle hs, byteViolation_of_outside h]
  · simp [violation, busyViolation_of_idle hs, byteViolation_of_outside h]

end Sys2Proof.Machine
end
